-- ==== Sys2Proof/Word.lean ====
section
/-! DEFINITION. The word types of the block: u8 and u16 of 00_scope.md rule R7. -/

namespace Sys2Proof

/-- The spec's u8 (00_scope.md R7). -/
abbrev Byte := BitVec 8

/-- The spec's u16: an address, a data word, a length as presented (00_scope.md R7). -/
abbrev Half := BitVec 16

end Sys2Proof
end

