-- ==== Sys2Proof/Config.lean ====
section
/-! DEFINITION. What is fixed for the machine: the constants of 00_scope.md rule R6, the record of its open
parameters, and the free values (opaque, no value can be proved of them). -/

namespace Sys2Proof

/-- Transport mode, "a process-wide compile-time selection" (00_scope.md R6). -/
inductive Mode where
  | bitbang
  | controller
  deriving DecidableEq, Repr

/-- BB_SAMPLE_POINT (00_scope.md R6; 40_transport.md R136; 92 D11). -/
inductive SamplePoint where
  | afterPulse
  | whileHigh
  deriving DecidableEq, Repr

/-- The addresses of the boundary registers and pins of 10_state.md R36, owned by the pin/register abstraction
(00_scope.md R6; 92 D27). No rule of the spec reads one: the block reaches each register by a named event. -/
structure Addresses where
  /-- `DIR.CS`. -/
  dirCs : Nat
  /-- `OUT.CS`. -/
  outCs : Nat
  /-- `DIR.SCK`. -/
  dirSck : Nat
  /-- `DIR.MOSI`. -/
  dirMosi : Nat
  /-- `DIR.MISO`. -/
  dirMiso : Nat
  /-- `OUT.SCK`. -/
  outSck : Nat
  /-- `OUT.MOSI`. -/
  outMosi : Nat
  /-- `IN.MISO`. -/
  inMiso : Nat
  /-- `STAT.TXRDY`. -/
  statTxrdy : Nat
  /-- `TXBUF`. -/
  txbuf : Nat
  /-- `STAT.RXRDY`. -/
  statRxrdy : Nat
  /-- `RXBUF`. -/
  rxbuf : Nat
  /-- `TIER`. -/
  tier : Nat
  deriving DecidableEq, Repr

/-- The parameters a machine is built with (00_scope.md R6). No step changes them. -/
structure Params where
  /-- MODE. -/
  mode : Mode
  /-- SETTLE_COUNT: iterations of the settle wait (70 R262). -/
  settleCount : Nat
  /-- POLL_BUDGET: `none`, or the number of attempts, at least 1 (40 R144). -/
  pollBudget : Option Nat
  /-- HAS_ARRAY. -/
  hasArray : Bool
  /-- HAS_THROTTLE. -/
  hasThrottle : Bool
  /-- TIER_LOW, an opaque code. -/
  tierLow : Nat
  /-- TIER_HIGH, an opaque code. -/
  tierHigh : Nat
  /-- CTRL_ATOMIC: the reference controller (true) or the asynchronous one (false). -/
  ctrlAtomic : Bool
  /-- CTRL_LIVE: whether the controller answers at all, at reset (40 R150). -/
  ctrlLive : Bool
  /-- BB_SAMPLE_POINT. -/
  samplePoint : SamplePoint
  /-- Whether obligation O-SETTLE is assumed (70 R262). -/
  oSettle : Bool
  /-- The register and pin addresses. -/
  addresses : Addresses
  deriving DecidableEq, Repr

namespace Config

/-- CAPACITY (00_scope.md R6): device capacity in bytes. -/
abbrev capacity : Nat := 4096
/-- LEN_MAX (00_scope.md R6): the largest array length. -/
abbrev lenMax : Nat := 255
/-- BUF_SIZE (00_scope.md R6): entries of the transfer buffer. -/
abbrev bufSize : Nat := 256
/-- OPC_WREN (00_scope.md R6). -/
abbrev opcWren : Byte := 0x06#8
/-- OPC_WRITE (00_scope.md R6). -/
abbrev opcWrite : Byte := 0x02#8
/-- OPC_READ (00_scope.md R6). -/
abbrev opcRead : Byte := 0x03#8
/-- DUMMY (00_scope.md R6): the byte that clocks a receive in controller mode. -/
abbrev dummy : Byte := 0xFF#8
/-- ERASE_FILL (00_scope.md R6): the byte erase_all writes. -/
abbrev eraseFill : Byte := 0x00#8

/-- The addresses of the machine whose reset state is `State.reset`: the registers numbered in the order of the table of
10_state.md R36. DESIGN CHOICE (log 38), unsafe for a claim about that one machine: the spec gives no address. -/
def addresses : Addresses where
  dirCs := 0
  outCs := 1
  dirSck := 2
  dirMosi := 3
  dirMiso := 4
  outSck := 5
  outMosi := 6
  inMiso := 7
  statTxrdy := 8
  txbuf := 9
  statRxrdy := 10
  rxbuf := 11
  tier := 12

/-- The parameters of the machine whose reset state is `State.reset`. DESIGN CHOICE (log 1), unsafe for a claim about
that one machine: the spec leaves the OPEN rows open. A statement about every state is about every parameter value. -/
def params : Params where
  mode := .controller
  settleCount := 1
  pollBudget := none
  hasArray := true
  hasThrottle := true
  tierLow := 0
  tierHigh := 1
  ctrlAtomic := true
  ctrlLive := true
  samplePoint := .afterPulse
  oSettle := true
  addresses := addresses

/-- FREE VALUE (log 9): a byte the spec leaves open, one for each draw: a reply byte of a header exchange
(20_memory.md R71 to R73), an entry of BUF nothing has written (10_state.md R44). -/
opaque freeByte : Nat → Byte

/-- FREE VALUE (log 9): a bit the spec leaves open, one for each draw: MISO when no device drives it (10_state.md
R39), WEL after a WRITE frame with no data (20_memory.md R81), WEL after a reset event (10_state.md R50). -/
opaque freeBit : Nat → Bool

/-- FREE VALUE (log 7): what a cell of the device store holds before anything has written it (10_state.md R50: the
contents are unspecified and kept across reset). One value for each address, so that two reads agree. -/
opaque eePowerOn : Nat → Byte

end Config

end Sys2Proof
end

