-- ==== Sys2Proof/Syntax.lean ====
section
/-! DEFINITION. The instructions: one constructor per row of spec/opcode_table.json, at the three levels of
30_encoding.md (wire commands, host operations, transport micro-operations), and the raw form each is presented in. -/

namespace Sys2Proof

/-- One instruction. A constructor carries every field of its encoding, the fields the operation ignores too, so that
no bit of a command is lost: `OP`, `ADDR` and `WDATA` latch whole fields (10_state.md R30). -/
inductive Instr where
  /-- WREN, wire: `[06]` (30_encoding.md R102). -/
  | wren
  /-- WRITE, wire: `[02 ah al d_0 ... d_{n-1}]` (30_encoding.md R103). -/
  | write (addr : Half) (data : List Byte)
  /-- READ, wire: `[03 ah al x_0 ... x_{n-1}]`, the x_i being the dummies (30_encoding.md R104). -/
  | read (addr : Half) (dummies : List Byte)
  /-- INIT, host op 0x0 (43_erase_and_init.md R203). -/
  | init (addr data len : Half)
  /-- READ_BYTE, host op 0x1 (41_command_framer.md R172). -/
  | readByte (addr data len : Half)
  /-- WRITE_BYTE, host op 0x2 (41_command_framer.md R173). -/
  | writeByte (addr data len : Half)
  /-- READ_WORD, host op 0x3 (41_command_framer.md R176). -/
  | readWord (addr data len : Half)
  /-- WRITE_WORD, host op 0x4 (41_command_framer.md R177). -/
  | writeWord (addr data len : Half)
  /-- READ_ARRAY, host op 0x5 (42_array_operations.md R193). -/
  | readArray (addr data len : Half)
  /-- WRITE_ARRAY, host op 0x6 (42_array_operations.md R190). -/
  | writeArray (addr data len : Half)
  /-- ERASE_ALL, host op 0x7 (43_erase_and_init.md R200). -/
  | eraseAll (addr data len : Half)
  /-- Host ops 0x8 to 0xF, reserved; `k` is op[2:0] (30_encoding.md R116). -/
  | reservedHost (k : BitVec 3) (addr data len : Half)
  /-- SEND_BYTE, transport op 0; uses `tdata[7:0]` (30_encoding.md R114). -/
  | sendByte (tdata : Half)
  /-- SEND_WORD, transport op 1 (30_encoding.md R114). -/
  | sendWord (tdata : Half)
  /-- RECEIVE_BYTE, transport op 2; ignores `tdata` (30_encoding.md R114). -/
  | receiveByte (tdata : Half)
  /-- Transport op 3, reserved and never issued (30_encoding.md R114). -/
  | reservedTransport (tdata : Half)
  deriving DecidableEq, Repr

/-- How an instruction is presented: a 52-bit host command word (30_encoding.md R111), the bytes of one frame, first
sent first (R100), or an 18-bit transport request (R114). The three levels have no common code space. -/
inductive Image where
  | cmd (w : BitVec 52)
  | frame (bytes : List Byte)
  | micro (w : BitVec 18)
  deriving DecidableEq, Repr

end Sys2Proof
end

