-- ==== Sys2Proof/WellFormed.lean ====
section
/-! DEFINITION. Which instructions the block issues: the ranges opcode_table.json and the rules give the fields. -/

namespace Sys2Proof

/-- A wire address is 0 .. 4095, bits 15:12 zero (20_memory.md R61; the table's field `a`). -/
def wireAddrOk (addr : Half) : Bool := decide (addr.toNat < Config.capacity)

/-- A frame carries 0 .. 255 data bytes (the table's widths; 20_memory.md R68). -/
def wireLenOk (bytes : List Byte) : Bool := decide (bytes.length ≤ Config.lenMax)

/-- Well-formed: wire fields in range, and not the micro-operation code that is never issued (30_encoding.md R114).
Every field of a host command is a legal encoding (30_encoding.md R117), the reserved codes included: they are
commands a host can present, refused by the block itself. -/
def Instr.wf : Instr → Bool
  | .wren => true
  | .write addr data => wireAddrOk addr && wireLenOk data
  | .read addr dummies => wireAddrOk addr && wireLenOk dummies
  | .init _ _ _ | .readByte _ _ _ | .writeByte _ _ _ | .readWord _ _ _ | .writeWord _ _ _ => true
  | .readArray _ _ _ | .writeArray _ _ _ | .eraseAll _ _ _ | .reservedHost _ _ _ _ => true
  | .sendByte _ | .sendWord _ | .receiveByte _ => true
  | .reservedTransport _ => false

/-- Well-formed parameters: a poll budget is a number n >= 1 (92 D6). -/
def Params.wf (p : Params) : Bool := decide (p.pollBudget ≠ some 0)

end Sys2Proof
end

