-- ==== Sys2Proof/Decode.lean ====
section
/-! DEFINITION. Decoding and encoding, from the tables of 30_encoding.md, and the byte-order helpers of 00_scope.md
rule R7 that they use. -/

namespace Sys2Proof

/-- `hi8(w) = w[15:8]` (00_scope.md R7). -/
def hi8 (w : Half) : Byte := w.extractLsb' 8 8

/-- `lo8(w) = w[7:0]` (00_scope.md R7). -/
def lo8 (w : Half) : Byte := w.extractLsb' 0 8

/-- `{h, l}`: concatenation, h in the high bits (00_scope.md R7). -/
def joinHL (h l : Byte) : Half := h ++ l

/-- Why a frame is no command of the block (30_encoding.md R101, R118; 20_memory.md R71, R74). -/
inductive DecodeError where
  /-- A frame with no byte (R74). -/
  | emptyFrame
  /-- A first byte other than 06, 02, 03 (R74, R115). -/
  | unknownOpcode (b : Byte)
  /-- A frame that opens with 06 and carries more bytes (R71). -/
  | bytesAfterWren
  /-- A WRITE or READ frame shorter than three bytes (R74). -/
  | shortFrame
  deriving DecidableEq, Repr

/-- The wire decoder: the opcode says whether an address follows, the closing edge how many bytes there were
(30_encoding.md R101 to R105, R118). -/
def decodeFrame : List Byte → Except DecodeError Instr
  | [] => .error .emptyFrame
  | o :: rest =>
    if o = Config.opcWren then
      match rest with
      | [] => .ok .wren
      | _ :: _ => .error .bytesAfterWren
    else if o = Config.opcWrite then
      match rest with
      | ah :: al :: ds => .ok (.write (joinHL ah al) ds)
      | _ => .error .shortFrame
    else if o = Config.opcRead then
      match rest with
      | ah :: al :: xs => .ok (.read (joinHL ah al) xs)
      | _ => .error .shortFrame
    else .error (.unknownOpcode o)

/-- `cmd[51:48]`, the operation code (30_encoding.md R111). -/
def cmdOp (w : BitVec 52) : BitVec 4 := w.extractLsb' 48 4
/-- `cmd[47:32]` (30_encoding.md R111). -/
def cmdAddr (w : BitVec 52) : Half := w.extractLsb' 32 16
/-- `cmd[31:16]` (30_encoding.md R111). -/
def cmdData (w : BitVec 52) : Half := w.extractLsb' 16 16
/-- `cmd[15:0]` (30_encoding.md R111). -/
def cmdLen (w : BitVec 52) : Half := w.extractLsb' 0 16

/-- The host decoder (30_encoding.md R111, R112, R116). -/
def decodeCmd (w : BitVec 52) : Instr :=
  match (cmdOp w).toNat with
  | 0 => .init (cmdAddr w) (cmdData w) (cmdLen w)
  | 1 => .readByte (cmdAddr w) (cmdData w) (cmdLen w)
  | 2 => .writeByte (cmdAddr w) (cmdData w) (cmdLen w)
  | 3 => .readWord (cmdAddr w) (cmdData w) (cmdLen w)
  | 4 => .writeWord (cmdAddr w) (cmdData w) (cmdLen w)
  | 5 => .readArray (cmdAddr w) (cmdData w) (cmdLen w)
  | 6 => .writeArray (cmdAddr w) (cmdData w) (cmdLen w)
  | 7 => .eraseAll (cmdAddr w) (cmdData w) (cmdLen w)
  | _ => .reservedHost ((cmdOp w).extractLsb' 0 3) (cmdAddr w) (cmdData w) (cmdLen w)

/-- `t[17:16]` (30_encoding.md R114). -/
def microOp (w : BitVec 18) : BitVec 2 := w.extractLsb' 16 2
/-- `t[15:0]` (30_encoding.md R114). -/
def microData (w : BitVec 18) : Half := w.extractLsb' 0 16

/-- The transport decoder (30_encoding.md R114). -/
def decodeMicro (w : BitVec 18) : Instr :=
  match (microOp w).toNat with
  | 0 => .sendByte (microData w)
  | 1 => .sendWord (microData w)
  | 2 => .receiveByte (microData w)
  | _ => .reservedTransport (microData w)

/-- The decoder: total, a frame that is no command is rejected by name. -/
def decode : Image → Except DecodeError Instr
  | .cmd w => .ok (decodeCmd w)
  | .frame bytes => decodeFrame bytes
  | .micro w => .ok (decodeMicro w)

/-- `{op, addr, data, len}` (30_encoding.md R111). -/
def packCmd (op : BitVec 4) (addr data len : Half) : BitVec 52 := op ++ addr ++ data ++ len

/-- `{t_op, t_data}` (30_encoding.md R114). -/
def packMicro (op : BitVec 2) (tdata : Half) : BitVec 18 := op ++ tdata

/-- The encoder, from the same tables (30_encoding.md R102 to R104, R111, R112, R114). -/
def encode : Instr → Image
  | .wren => .frame [Config.opcWren]
  | .write addr data => .frame (Config.opcWrite :: hi8 addr :: lo8 addr :: data)
  | .read addr dummies => .frame (Config.opcRead :: hi8 addr :: lo8 addr :: dummies)
  | .init addr data len => .cmd (packCmd 0x0#4 addr data len)
  | .readByte addr data len => .cmd (packCmd 0x1#4 addr data len)
  | .writeByte addr data len => .cmd (packCmd 0x2#4 addr data len)
  | .readWord addr data len => .cmd (packCmd 0x3#4 addr data len)
  | .writeWord addr data len => .cmd (packCmd 0x4#4 addr data len)
  | .readArray addr data len => .cmd (packCmd 0x5#4 addr data len)
  | .writeArray addr data len => .cmd (packCmd 0x6#4 addr data len)
  | .eraseAll addr data len => .cmd (packCmd 0x7#4 addr data len)
  | .reservedHost k addr data len => .cmd (packCmd (1#1 ++ k) addr data len)
  | .sendByte tdata => .micro (packMicro 0#2 tdata)
  | .sendWord tdata => .micro (packMicro 1#2 tdata)
  | .receiveByte tdata => .micro (packMicro 2#2 tdata)
  | .reservedTransport tdata => .micro (packMicro 3#2 tdata)

/-- The first `n` bytes of a number, byte 0 (bits 7..0) first. -/
def bytesOfNat : Nat → Nat → List Byte
  | 0, _ => []
  | n + 1, w => BitVec.ofNat 8 w :: bytesOfNat n (w / 256)

/-- Whether a byte is one of the three wire opcodes (30_encoding.md R101). -/
def isWireOpcode (b : Byte) : Bool := b == Config.opcWren || b == Config.opcWrite || b == Config.opcRead

/-- How many bytes a table word's frame has: its own, a WRITE or READ filled up with zero bytes to its address, a WRITE
shorter than that to one data byte (the table's 32-bit pattern). -/
def frameBytesOfTable (nbits : Nat) (b : Byte) : Nat :=
  if b = Config.opcWrite then (if nbits < 24 then 4 else nbits / 8)
  else if b = Config.opcRead then max 3 (nbits / 8)
  else nbits / 8

/-- The image a table word of `nbits` bits stands for. The table's three levels are told apart by width: 8 bits and
whole wider bytes are a frame, 18 bits (24 in whole bytes) a transport request unless the first byte is a wire opcode,
52 bits (56 in whole bytes) a host command. DESIGN CHOICE (log 24): the spec has no common code space. -/
def imageOfTableWord (nbits w : Nat) : Image :=
  if 49 ≤ nbits ∧ nbits ≤ 56 then .cmd (BitVec.ofNat 52 w)
  else if 17 ≤ nbits ∧ nbits ≤ 24 ∧ (nbits < 24 ∨ isWireOpcode (BitVec.ofNat 8 w) = false) then .micro (BitVec.ofNat 18 w)
  else .frame (bytesOfNat (frameBytesOfTable nbits (BitVec.ofNat 8 w)) w)

/-- The instruction the decoder reads from a word of the opcode table. -/
def decodeTableWord (nbits w : Nat) : Option Instr :=
  match decode (imageOfTableWord nbits w) with
  | .ok i => some i
  | .error _ => none

end Sys2Proof
end

