-- ==== Sys2Proof/Machine/State.lean ====
section
/-! DEFINITION. The machine's state as plain data: every piece of state the spec gives the framer, the controller and
the device (10_state.md, 20_memory.md, 40_transport.md), the positions of the sequencer, and the state after reset. -/

namespace Sys2Proof.Machine

open Sys2Proof

/-- Pins with a direction bit (10_state.md R36). -/
inductive Pin where
  | cs
  | sck
  | mosi
  | miso
  deriving DecidableEq, Repr

/-- Pins with an output bit (10_state.md R36, R38). -/
inductive OutPin where
  | cs
  | sck
  | mosi
  deriving DecidableEq, Repr

/-- `IN` or `OUT` (10_state.md R37). -/
inductive Dir where
  | input
  | output
  deriving DecidableEq, Repr

/-- The two ready flags (10_state.md R34, R35). -/
inductive Flag where
  | txrdy
  | rxrdy
  deriving DecidableEq, Repr

/-- The error results (60_exceptions.md R211). -/
inductive Status where
  | ok
  | invalidAddress
  | invalidLength
  | deviceTimeout
  | illegalOperation
  | notInitialised
  deriving DecidableEq, Repr

/-- An event at a boundary of the block (00_scope.md R10) or at the host interface (R11). -/
inductive Event where
  /-- `Dir(p, d)`. -/
  | dir (p : Pin) (d : Dir)
  /-- `Drive(p, v)`. -/
  | drive (p : OutPin) (v : Bool)
  /-- `Sample(MISO) -> b`. -/
  | sample (b : Bool)
  /-- `Poll(flag)`, recorded when the flag was read as 1. -/
  | poll (f : Flag)
  /-- `RegWrite(TXBUF, v)`. -/
  | regWrite (v : Byte)
  /-- `RegRead(RXBUF) -> v`. -/
  | regRead (v : Byte)
  /-- `ClockTier(n)`. -/
  | clockTier (n : Nat)
  /-- `Wait(SETTLE)`. -/
  | wait
  /-- `Cmd(op, addr, data, len)`. -/
  | cmd (op : BitVec 4) (addr data len : Half)
  /-- `Rsp(status, rdata)`. -/
  | rsp (status : BitVec 3) (data : Half)
  deriving DecidableEq, Repr

/-- Which byte of the transport request a send_byte takes: send_word sends both (40_transport.md R135). -/
inductive ByteSel where
  | hi
  | lo
  deriving DecidableEq, Repr

/-- Operands of a transport request. -/
inductive Src where
  /-- A constant: an opcode. -/
  | const (w : Half)
  /-- `ADDR`. -/
  | addr
  /-- `hi8(WDATA)`. -/
  | wdataHi
  /-- `WDATA[7:0]`. -/
  | wdataLo
  /-- `BUF[IDX]` (42_array_operations.md R190, A7). -/
  | bufIdx
  deriving DecidableEq, Repr

/-- Register transfers the rules write beside the events: each is part of the framer step of an event next to it
(40_transport.md R131), never a boundary event. -/
inductive Upd where
  /-- The Command Framer issues a transport request {t_op, t_data} (30_encoding.md R114). -/
  | request (op : BitVec 2) (src : Src)
  /-- `SHIFT <- value ; BITCNT <- 0` (40_transport.md R131). -/
  | loadShift (sel : ByteSel)
  /-- `SHIFT <- (SHIFT << 1)[7:0] ; BITCNT <- BITCNT + 1` (40_transport.md R131). -/
  | shiftLeft
  /-- `RXACC <- 0 ; BITCNT <- 0` (40_transport.md R136). -/
  | clearRx
  /-- `return RXACC` (40_transport.md R136). -/
  | returnRx
  /-- `RDATA[15:8] <-` the byte received (41_command_framer.md R176). -/
  | takeHi
  /-- `RDATA[7:0] <-` the byte received (41_command_framer.md R172, R176). -/
  | takeLo
  /-- `MemWrite(BUF:IDX, 1, v)` (42_array_operations.md R193). -/
  | storeBuf
  /-- `IDX <- 0`. -/
  | idxZero
  /-- `IDX <- IDX + 1`. -/
  | idxInc
  /-- `ADDR <- ADDR + 1` (41_command_framer.md R176, R177). -/
  | addrInc
  /-- `ERA <- 0` (43_erase_and_init.md R200). -/
  | eraZero
  /-- `ADDR <- zext_16(ERA) ; WDATA[7:0] <- 0x00` (43_erase_and_init.md R200). -/
  | eraLoad
  /-- `ERA <- ERA + 1` (43_erase_and_init.md R200). -/
  | eraInc
  /-- `INITED <- 1` (43_erase_and_init.md R203, I9). -/
  | setInited
  /-- Whether 0x02 has been handed to send_byte in the bracket (60_exceptions.md R218, T1). -/
  | bracketWrite (b : Bool)
  deriving DecidableEq, Repr

/-- What a response carries in `data` (30_encoding.md R113). -/
inductive RspSrc where
  | zero
  | byte
  | word
  deriving DecidableEq, Repr

/-- A boundary or host event the framer makes that is never held (00_scope.md R10; 10_state.md R29). -/
inductive Act where
  /-- `Dir(p, d)`. -/
  | dir (p : Pin) (d : Dir)
  /-- `Drive(p, v)`. -/
  | drive (p : OutPin) (v : Bool)
  /-- `Drive(MOSI, SHIFT[7])` (40_transport.md R131, s0). -/
  | driveMosi
  /-- `b <- Sample(MISO) ; RXACC <- {RXACC[6:0], b} ; BITCNT <- BITCNT + 1` (40_transport.md R136, s2). -/
  | sample
  /-- `RegWrite(TXBUF, value)` (40_transport.md R140, P1). -/
  | regWrite (sel : ByteSel)
  /-- `RegWrite(TXBUF, 0xFF)` (40_transport.md R141, P0). -/
  | regWriteDummy
  /-- `v <- RegRead(RXBUF) ; return v` (40_transport.md R141, P2). -/
  | regRead
  /-- `Wait(SETTLE)` (70_reset_and_hazards.md R262). -/
  | wait
  /-- `ClockTier(TIER_LOW)`. -/
  | tierLow
  /-- `ClockTier(TIER_HIGH)`. -/
  | tierHigh
  /-- `Rsp(STATUS, data)`. -/
  | rsp (src : RspSrc)
  deriving DecidableEq, Repr

/-- One item of an operation's sequence: an event, a poll (the one hold that may never be lifted: 40_transport.md
R144), or a register transfer that is part of the step of an event beside it. -/
inductive Micro where
  | reg (u : Upd)
  | ev (a : Act)
  | poll (f : Flag)
  deriving DecidableEq, Repr

/-- One data line between the block and the device. The block notices none of the three (70_reset_and_hazards.md R275;
log 42). -/
inductive Wire where
  /-- It carries the level that is put on it. -/
  | sound
  /-- It holds one level, whatever is put on it. -/
  | stuck (b : Bool)
  /-- It shows any value each time it is looked at: corrupted bits. -/
  | noisy
  deriving DecidableEq, Repr

/-- What the bus is like: whether the device is there at all, and its two data lines (70_reset_and_hazards.md R275; 93
U29; log 42). -/
structure Line where
  /-- The device is on the bus. A missing one acts on nothing and drives nothing. -/
  present : Bool
  /-- Data-in, MISO. -/
  dataIn : Wire
  /-- Data-out, MOSI. -/
  dataOut : Wire
  deriving DecidableEq, Repr

/-- The device is there and both lines are sound: what the rules of 20_memory.md section 5 are about. -/
def Line.sound : Line where
  present := true
  dataIn := .sound
  dataOut := .sound

/-- A move of an agent other than the framer and the host, at a scheduling point (log 12). -/
inductive EnvAct where
  /-- The asynchronous controller takes its enabled step: Load, Shift or Done (40_transport.md R153). -/
  | controller
  /-- The device takes its Commit step, if WIP = 1 (20_memory.md R79). -/
  | commit
  /-- The controller stops or starts answering (95_test_vectors.md section 2.10: V-Y3, V-Y4; log 15). -/
  | live (b : Bool)
  /-- A data line goes bad or good; while chip-select is high the device goes or comes (70_reset_and_hazards.md R275;
  log 42). -/
  | line (l : Line)
  deriving DecidableEq, Repr

/-- What the outside presents to an idle block (10_state.md R30, R44; 70_reset_and_hazards.md R250; log 16). -/
inductive Request where
  /-- An instruction at one of the three levels. -/
  | instr (im : Image)
  /-- An instruction that is started only: the steps that follow make its events one by one (10_state.md R29; log 11). -/
  | start (im : Image)
  /-- The host writes a byte of the transfer buffer it owns while SEQ = IDLE (10_state.md R44). -/
  | bufWrite (i : Byte) (v : Byte)
  /-- The other agents move between operations. -/
  | env (acts : List EnvAct)
  /-- A reset of the block (70_reset_and_hazards.md R250). -/
  | reset
  deriving DecidableEq, Repr

/-- Addressed bytes, one canonical form: addresses strictly rising. An unlisted address holds no value here (nothing
has written it), so no entry equals what an unlisted address reads as. -/
abbrev Memory := List Host.Cell

/-- What an unlisted address of a `Memory` reads as: no value (log 7, log 8 say what its readers do with it). -/
abbrev Memory.unlisted : Option Byte := none

/-- The framer's registers (10_state.md R24, R33, R42; 30_encoding.md R114). -/
structure Regs where
  /-- `OP`. -/
  op : BitVec 4
  /-- `ADDR`. -/
  addr : Half
  /-- `WDATA`. -/
  wdata : Half
  /-- `LEN`. -/
  len : Byte
  /-- `IDX`. -/
  idx : Byte
  /-- `SHIFT`. -/
  shift : Byte
  /-- `RXACC`. -/
  rxacc : Byte
  /-- `BITCNT`. -/
  bitcnt : BitVec 4
  /-- `RDATA`. -/
  rdata : Half
  /-- `ERA`. -/
  era : BitVec 13
  /-- `WAITCNT`. -/
  waitcnt : Nat
  /-- `POLLCNT`. -/
  pollcnt : Nat
  /-- `STATUS`. -/
  status : BitVec 3
  /-- `INITED`. -/
  inited : Bool
  /-- The transport request t[17:0] (30_encoding.md R114). -/
  treq : BitVec 18
  /-- The byte RECEIVE_BYTE returns on the internal interface (30_encoding.md R114). -/
  tret : Byte
  /-- `rsp_status`. -/
  rspStatus : BitVec 3
  /-- `rsp_data`. -/
  rspData : Half
  deriving DecidableEq, Repr

/-- The boundary registers of the pin abstraction (10_state.md R36 to R38). -/
structure Pins where
  /-- `DIR.CS`. -/
  dirCs : Dir
  /-- `DIR.SCK`. -/
  dirSck : Dir
  /-- `DIR.MOSI`. -/
  dirMosi : Dir
  /-- `DIR.MISO`. -/
  dirMiso : Dir
  /-- `OUT.CS`: also the level of the chip-select line the device sees. -/
  outCs : Bool
  /-- `OUT.SCK`. -/
  outSck : Bool
  /-- `OUT.MOSI`. -/
  outMosi : Bool
  deriving DecidableEq, Repr

/-- The controller (40_transport.md R150, R152). `TXRDY` and `RXRDY` as the framer reads them are `flagValue`. -/
structure Ctl where
  /-- `TXBUF`. -/
  txbuf : Byte
  /-- `TXRDY` of the reference controller (R150). -/
  txrdy : Bool
  /-- `RXRDY`. -/
  rxrdy : Bool
  /-- `RXBUF`. -/
  rxbuf : Byte
  /-- `TXFULL` of the asynchronous controller (R152). -/
  txfull : Bool
  /-- `SR_BUSY`. -/
  srBusy : Bool
  /-- `SR_OUT`. -/
  srOut : Byte
  /-- `SR_IN`. -/
  srIn : Byte
  /-- `SR_CNT`, 0 .. 8. -/
  srCnt : BitVec 4
  /-- Whether the controller answers: the current value of `CTRL_LIVE` (R150; log 15). -/
  live : Bool
  deriving DecidableEq, Repr

/-- The device's frame-decoding state while chip-select is low (10_state.md R48; 20_memory.md R70, R82, R83). -/
structure Frame where
  /-- The bytes m_0, m_1, ... received whole. -/
  bytes : List Byte
  /-- The replies r_0, r_1, ... of the exchanges done. -/
  replies : List Byte
  /-- The bits of the byte in progress, the first taken the highest. -/
  acc : Byte
  /-- How many bits of it have been taken, 0 .. 7. -/
  cnt : Nat
  /-- The reply byte of the latest exchange begun. -/
  reply : Byte
  /-- `in` so far: the reply bytes a receive_byte returned (40_transport.md R160). -/
  received : List Byte
  deriving DecidableEq, Repr

/-- The address and data of an accepted WRITE, until Commit (20_memory.md R79). -/
structure Pending where
  addr : Nat
  data : List Byte
  deriving DecidableEq, Repr

/-- The device (10_state.md R43, R46, R48; 20_memory.md section 5). -/
structure Dev where
  /-- The store EE, as far as something has written it. -/
  ee : Memory
  /-- `WEL`. -/
  wel : Bool
  /-- `WIP`. -/
  wip : Bool
  /-- The write cycle's data. -/
  pending : Option Pending
  /-- The frame that is open, if chip-select is low. -/
  frame : Option Frame
  /-- The bus it is on (log 42). -/
  line : Line
  deriving DecidableEq, Repr

/-- One closed bracket (00_scope.md R12; 40_transport.md R160). -/
structure FrameRec where
  /-- `out`: the bytes on data-out, as the device's end of the line shows them, DESIGN CHOICE (log 42). -/
  out : List Byte
  /-- The device's reply byte r_k of every exchange, kept or not: a free byte of a missing device. Not the samples, which
  differ from it on a bad data-in line, DESIGN CHOICE (log 42). -/
  replies : List Byte
  /-- `in`: the reply bytes a receive_byte returned. -/
  received : List Byte
  deriving DecidableEq, Repr

/-- The whole machine. -/
structure State where
  /-- The parameters (00_scope.md R6): never written. -/
  params : Params
  /-- `SEQ` (10_state.md R28): the items of the running operation still to be done; empty when `IDLE`. -/
  seq : List Micro
  /-- Part of `SEQ`: 0x02 was handed to send_byte in the latest bracket (60_exceptions.md R218, T1). -/
  bracketWrite : Bool
  /-- Part of `SEQ`: ClockTier(TIER_LOW) was done and not yet undone (60_exceptions.md R218, T2). -/
  tierLow : Bool
  /-- The framer's registers. -/
  regs : Regs
  /-- The boundary pins. -/
  pins : Pins
  /-- `TIER` (10_state.md R41). -/
  tier : Nat
  /-- The controller. -/
  ctl : Ctl
  /-- The device. -/
  dev : Dev
  /-- The transfer buffer BUF, as far as something has written it (10_state.md R44). -/
  buf : Memory
  /-- The model's own: how many free values have been drawn (log 9). -/
  draws : Nat
  /-- The model's own: what the outside presents next, the oldest first (log 16). -/
  inbox : List Request
  /-- The model's own: the other agents' moves at the scheduling points to come (log 12). -/
  sched : List (List EnvAct)
  /-- The model's own: the boundary and host events so far, the newest first (00_scope.md R10, R11). -/
  trace : List Event
  /-- The model's own: the frames closed so far, the newest first (00_scope.md R12). -/
  frames : List FrameRec
  deriving DecidableEq, Repr

/-- The model faults of 60_exceptions.md R222: the spec gives the run no further meaning. Each is safe: the model stops
where the spec promises nothing. -/
inductive Fault where
  /-- Raised by a `Drive` on a pin whose `DIR` is not `OUT` (10_state.md R37). Safe. -/
  | pinNotOutput
  /-- Raised by the device when a bracket closes off a byte boundary (20_memory.md R70). Safe. -/
  | partialByte
  /-- Raised by the device when it is given, or reaches, an address of 4096 or more (20_memory.md R61, R72, R73). Safe. -/
  | deviceAddressRange
  /-- Raised by the device when a bracket opens while WIP = 1 (20_memory.md R80). Safe. -/
  | deviceBusyAccess
  /-- Raised by the asynchronous controller when TXBUF is written while full (40_transport.md R154 a). Safe. -/
  | txOverwrite
  /-- Raised by RegRead(RXBUF) before the receive's own exchange is done (40_transport.md R154 b). Safe. -/
  | staleRx
  /-- Raised by Drive(CS, 1) while the asynchronous controller is not idle (40_transport.md R154 c). Safe. -/
  | csEarly
  deriving DecidableEq, Repr

/-- Why an instruction has no next state without a fault. -/
inductive Refusal where
  /-- Raised by `exec` for an instruction that has no meaning yet. Safe. -/
  | notModelled (mnemonic : String)
  /-- Raised by every meaning when SEQ is not IDLE: the host has no move then (10_state.md R30, R91; log 26). `step`
  never asks for it. Safe. -/
  | busy
  /-- Raised by transport code 3, "reserved and never issued" (30_encoding.md R114; 93 U14). Safe. -/
  | reservedTransportCode
  deriving DecidableEq, Repr

/-- Registers after reset: INITED = 0 (10_state.md R50); the rest DESIGN CHOICE 0 (logs 2, 3, 19), unsafe. -/
def Regs.reset : Regs where
  op := 0
  addr := 0
  wdata := 0
  len := 0
  idx := 0
  shift := 0
  rxacc := 0
  bitcnt := 0
  rdata := 0
  era := 0
  waitcnt := 0
  pollcnt := 0
  status := 0
  inited := false
  treq := 0
  tret := 0
  rspStatus := 0
  rspData := 0

/-- Pins after reset: DESIGN CHOICE inputs, chip-select not asserted, the other levels 0 (log 4), unsafe. -/
def Pins.reset : Pins where
  dirCs := .input
  dirSck := .input
  dirMosi := .input
  dirMiso := .input
  outCs := true
  outSck := false
  outMosi := false

/-- The controller after reset: idle and empty, TXRDY = 1, RXRDY = 0 (10_state.md R50); the data registers DESIGN
CHOICE 0 (log 5), unsafe. -/
def Ctl.reset (live : Bool) : Ctl where
  txbuf := 0
  txrdy := true
  rxrdy := false
  rxbuf := 0
  txfull := false
  srBusy := false
  srOut := 0
  srIn := 0
  srCnt := 0
  live := live

/-- The device at reset: WIP = 0, no frame open (10_state.md R50); WEL DESIGN CHOICE 0 (log 6), the bus sound DESIGN
CHOICE (log 42), both unsafe. -/
def Dev.reset : Dev where
  ee := []
  wel := false
  wip := false
  pending := none
  frame := none
  line := Line.sound

/-- The state right after reset of a machine with parameters `p` (10_state.md R50, 70_reset_and_hazards.md R250). -/
def State.resetWith (p : Params) : State where
  params := p
  seq := []
  bracketWrite := false
  tierLow := false
  regs := Regs.reset
  pins := Pins.reset
  tier := 0
  ctl := Ctl.reset p.ctrlLive
  dev := Dev.reset
  buf := []
  draws := 0
  inbox := []
  sched := []
  trace := []
  frames := []

/-- The machine right after reset (10_state.md R50), with the parameters of log 1. -/
def State.reset : State := State.resetWith Config.params

/-- `busy` is 1 exactly when `SEQ != IDLE` (10_state.md R42). -/
def State.busy (s : State) : Bool := !s.seq.isEmpty

end Sys2Proof.Machine
end

