-- ==== Sys2Proof/Machine/Access.lean ====
section
/-! DEFINITION. The named updates of State, the free draws, and reads and writes of the two memories. -/

namespace Sys2Proof.Machine

open Sys2Proof

/-! Named updates: one per part of State. -/

def State.setSeq (s : State) (q : List Micro) : State := { s with seq := q }
def State.setBracketWrite (s : State) (b : Bool) : State := { s with bracketWrite := b }
def State.setTierLow (s : State) (b : Bool) : State := { s with tierLow := b }
def State.setRegs (s : State) (r : Regs) : State := { s with regs := r }
def State.setPins (s : State) (p : Pins) : State := { s with pins := p }
def State.setTier (s : State) (n : Nat) : State := { s with tier := n }
def State.setCtl (s : State) (c : Ctl) : State := { s with ctl := c }
def State.setDev (s : State) (d : Dev) : State := { s with dev := d }
def State.setBuf (s : State) (m : Memory) : State := { s with buf := m }
def State.setDraws (s : State) (n : Nat) : State := { s with draws := n }
def State.setInbox (s : State) (q : List Request) : State := { s with inbox := q }
def State.setSched (s : State) (q : List (List EnvAct)) : State := { s with sched := q }

/-- Records one boundary or host event (00_scope.md R10, R11). -/
def State.log (s : State) (e : Event) : State := { s with trace := e :: s.trace }

/-- Records one closed frame (00_scope.md R12). -/
def State.logFrame (s : State) (f : FrameRec) : State := { s with frames := f :: s.frames }

/-! Free values (log 9). -/

/-- A byte the spec leaves open. -/
def drawByte (s : State) : Byte × State := (Config.freeByte s.draws, s.setDraws (s.draws + 1))

/-! Memories. -/

/-- The byte listed at an address, or what an unlisted address reads as. -/
def Memory.read : Memory → Nat → Option Byte
  | [], _ => Memory.unlisted
  | (k, v) :: m, a => if a = k then some v else Memory.read m a

/-- Writes one byte, keeping the addresses strictly rising. -/
def Memory.write : Memory → Nat → Byte → Memory
  | [], a, v => [(a, v)]
  | (k, w) :: m, a, v =>
    if a < k then (a, v) :: (k, w) :: m
    else if a = k then (a, v) :: m
    else (k, w) :: Memory.write m a v

/-- Writes bytes at ascending addresses. -/
def Memory.writeList : Memory → Nat → List Byte → Memory
  | m, _, [] => m
  | m, a, v :: vs => Memory.writeList (Memory.write m a v) (a + 1) vs

/-- The canonical form: addresses strictly rising, which also lists none twice. -/
abbrev Memory.wf (m : Memory) : Prop := m.Pairwise (fun x y => x.1 < y.1)

/-- Every listed address is below a bound: 4096 for EE, 256 for BUF. -/
abbrev Memory.below (m : Memory) (n : Nat) : Prop := ∀ c ∈ m, c.1 < n

/-- `MemRead(EE:a, 1)` (00_scope.md R9): a cell nothing has written holds its free power-on byte (10_state.md R50). -/
def Dev.read (d : Dev) (a : Nat) : Byte := (Memory.read d.ee a).getD (Config.eePowerOn a)

/-- The device store as the machine holds it. -/
def eeRead (s : State) (a : Nat) : Byte := s.dev.read a

/-- `MemRead(BUF:i, 1)` (00_scope.md R9): an entry nothing has written gives an unspecified byte (10_state.md R44). -/
def bufRead (s : State) (i : Nat) : Byte × State :=
  match Memory.read s.buf i with
  | some v => (v, s)
  | none => drawByte s

/-- `MemWrite(BUF:i, 1, v)` (00_scope.md R9). -/
def bufWrite (s : State) (i : Byte) (v : Byte) : State := s.setBuf (Memory.write s.buf i.toNat v)

/-! The record of what a receive_byte returned. -/

/-- A reply byte that a receive_byte returns goes into `in` of the open frame (40_transport.md R160). -/
def Dev.note (r : Byte) (d : Dev) : Dev :=
  match d.frame with
  | none => d
  | some f => { d with frame := some { f with received := f.received ++ [r] } }

/-- The same on the machine. -/
def noteReceived (r : Byte) (s : State) : State := s.setDev (s.dev.note r)

/-! Bit-field helpers (00_scope.md R7, R8; 10_state.md R25). -/

/-- `{x[6:0], b}`: shift left by one, bit 0 filled with b. -/
def shiftIn (x : Byte) (b : Bool) : Byte := (x <<< 1) ||| (BitVec.ofBool b).setWidth 8

/-- `(x << 1)[7:0]`. -/
def shiftOut (x : Byte) : Byte := x <<< 1

/-- `zext_16` of a byte. -/
def zext16 (b : Byte) : Half := b.setWidth 16

end Sys2Proof.Machine
end

