-- ==== Sys2Proof/Machine/Operands.lean ====
section
/-! DEFINITION. Every operand form: operands of transport requests, the byte a send_byte takes, what a response
carries, and the register transfers of the rules. -/

namespace Sys2Proof.Machine

open Sys2Proof

/-- The value of a request operand. A byte is zero-extended: the t_data bits a SEND_BYTE does not use are 0, DESIGN
CHOICE (log 39; 30_encoding.md R114 leaves them open). The second part is the state after the read (an unwritten BUF
entry draws a free byte). -/
def srcValue (src : Src) (s : State) : Half × State :=
  match src with
  | .const w => (w, s)
  | .addr => (s.regs.addr, s)
  | .wdataHi => (zext16 (hi8 s.regs.wdata), s)
  | .wdataLo => (zext16 (lo8 s.regs.wdata), s)
  | .bufIdx => (zext16 (bufRead s s.regs.idx.toNat).1, (bufRead s s.regs.idx.toNat).2)

/-- The byte of the transport request that a send_byte takes (30_encoding.md R114; 40_transport.md R135). -/
def reqByte (sel : ByteSel) (s : State) : Byte :=
  match sel with
  | .hi => hi8 (microData s.regs.treq)
  | .lo => lo8 (microData s.regs.treq)

/-- What a response carries (30_encoding.md R113; 41_command_framer.md R172, R176). -/
def rspValue (src : RspSrc) (s : State) : Half :=
  match src with
  | .zero => 0
  | .byte => zext16 (lo8 s.regs.rdata)
  | .word => s.regs.rdata

/-- The register transfers (see `Upd` for the rule of each). -/
def applyUpd (u : Upd) (s : State) : State :=
  match u with
  | .request op src =>
    let s' := (srcValue src s).2
    s'.setRegs { s'.regs with treq := packMicro op (srcValue src s).1 }
  | .loadShift sel => s.setRegs { s.regs with shift := reqByte sel s, bitcnt := 0 }
  | .shiftLeft => s.setRegs { s.regs with shift := shiftOut s.regs.shift, bitcnt := s.regs.bitcnt + 1 }
  | .clearRx => s.setRegs { s.regs with rxacc := 0, bitcnt := 0 }
  | .returnRx => noteReceived s.regs.rxacc (s.setRegs { s.regs with tret := s.regs.rxacc })
  | .takeHi => s.setRegs { s.regs with rdata := joinHL s.regs.tret (lo8 s.regs.rdata) }
  | .takeLo => s.setRegs { s.regs with rdata := joinHL (hi8 s.regs.rdata) s.regs.tret }
  | .storeBuf => bufWrite s s.regs.idx s.regs.tret
  | .idxZero => s.setRegs { s.regs with idx := 0 }
  | .idxInc => s.setRegs { s.regs with idx := s.regs.idx + 1 }
  | .addrInc => s.setRegs { s.regs with addr := s.regs.addr + 1 }
  | .eraZero => s.setRegs { s.regs with era := 0 }
  | .eraLoad =>
    s.setRegs { s.regs with addr := s.regs.era.setWidth 16, wdata := joinHL (hi8 s.regs.wdata) Config.eraseFill }
  | .eraInc => s.setRegs { s.regs with era := s.regs.era + 1 }
  | .setInited => s.setRegs { s.regs with inited := true }
  | .bracketWrite b => s.setBracketWrite b

end Sys2Proof.Machine
end

