-- ==== Sys2Proof/Machine/Flags.lean ====
section
/-! DEFINITION. The flags (the block has no arithmetic condition codes: 10_state.md R32), the status codes, and the
checks at operation start. -/

namespace Sys2Proof.Machine

open Sys2Proof

/-- The status codes (30_encoding.md R113; 60_exceptions.md R211). -/
def Status.code : Status → BitVec 3
  | .ok => 0
  | .invalidAddress => 1
  | .invalidLength => 2
  | .deviceTimeout => 3
  | .illegalOperation => 4
  | .notInitialised => 5

/-- The controller exists only in controller mode (10_state.md R20), and is the asynchronous one when
`CTRL_ATOMIC = false` (40_transport.md R152). -/
def isAsync (s : State) : Bool := decide (s.params.mode = .controller) && !s.params.ctrlAtomic

/-- The asynchronous controller is idle when `TXFULL = 0` and `SR_BUSY = 0` (40_transport.md R153). -/
def ctlIdle (s : State) : Bool := !s.ctl.txfull && !s.ctl.srBusy

/-- A ready flag as the framer reads it (10_state.md R34, R35). Reference controller: 0 while it is dead
(40_transport.md R150); if it answers again, the flags it held before show again, a sticky RXRDY too, DESIGN CHOICE (log
40). Asynchronous controller: `TXRDY = not TXFULL` (R152). -/
def flagValue (f : Flag) (s : State) : Bool :=
  match f with
  | .txrdy => if s.params.ctrlAtomic then s.ctl.live && s.ctl.txrdy else !s.ctl.txfull
  | .rxrdy => if s.params.ctrlAtomic then s.ctl.live && s.ctl.rxrdy else s.ctl.rxrdy

/-- READ_ARRAY and WRITE_ARRAY (30_encoding.md R112). -/
def isArrayOp (op : BitVec 4) : Bool := op == 0x5#4 || op == 0x6#4

/-- The condition of InvalidAddress, in natural numbers (60_exceptions.md R212). -/
def addressBad (op : BitVec 4) (addr len : Half) : Bool :=
  if op = 0x1#4 ∨ op = 0x2#4 then decide (Config.capacity ≤ addr.toNat)
  else if op = 0x3#4 ∨ op = 0x4#4 then decide (Config.capacity ≤ addr.toNat + 1)
  else if isArrayOp op then decide (Config.capacity ≤ addr.toNat ∨ Config.capacity < addr.toNat + len.toNat)
  else false

/-- The checks at operation start, in their order; the first that fails gives the result (60_exceptions.md R216). -/
def startCheck (op : BitVec 4) (addr len : Half) (s : State) : Option Status :=
  if 0x8#4 ≤ op ∨ (isArrayOp op = true ∧ s.params.hasArray = false) then some .illegalOperation
  else if op ≠ 0x0#4 ∧ s.regs.inited = false then some .notInitialised
  else if isArrayOp op = true ∧ Config.lenMax < len.toNat then some .invalidLength
  else if addressBad op addr len = true then some .invalidAddress
  else none

end Sys2Proof.Machine
end

