-- ==== Sys2Proof/Machine/Device.lean ====
section
/-! DEFINITION. The reference device (20_memory.md section 5): frames by chip-select edges, bits by pulses, and the
write cycle. The device's functions take its state and the number of the next free draw, and give both back. -/

namespace Sys2Proof.Machine

open Sys2Proof

/-- An empty frame, as chip-select opens it (20_memory.md R70). -/
def Frame.empty : Frame where
  bytes := []
  replies := []
  acc := 0
  cnt := 0
  reply := 0
  received := []

/-! The bus (70_reset_and_hazards.md R275; log 42). -/

/-- The level a data line shows when `v` is put on it, and the next free draw. -/
def Wire.carry (w : Wire) (v : Bool) (n : Nat) : Bool × Nat :=
  match w with
  | .sound => (v, n)
  | .stuck b => (b, n)
  | .noisy => (Config.freeBit n, n + 1)

/-- The bus changes. A device goes or comes only while no frame is open. -/
def Dev.setLine (l : Line) (d : Dev) : Dev :=
  { d with line := { l with present := if d.frame = none then l.present else d.line.present } }

/-! Frames, bit by bit. -/

/-- `A = {m_1, m_2}` (20_memory.md R70). -/
def frameAddr (ah al : Byte) : Nat := (joinHL ah al).toNat

/-- The addresses a frame has given or reached are all below CAPACITY (20_memory.md R61, R72, R73; log 21). -/
def frameInRange : List Byte → Bool
  | o :: ah :: al :: ds =>
    if o = Config.opcRead then decide (frameAddr ah al < Config.capacity)
    else if o = Config.opcWrite then
      decide (frameAddr ah al < Config.capacity ∧ frameAddr ah al + ds.length ≤ Config.capacity)
    else true
  | _ => true

/-- The same of a frame on this device; a missing one has reached no address. -/
def Dev.inRange (d : Dev) (bytes : List Byte) : Bool := !d.line.present || frameInRange bytes

/-- The reply byte r_k of the exchange that follows the bytes received so far: `EE[A + i]` in a READ's data phase
(20_memory.md R73, R75), otherwise unspecified (R71 to R74). -/
def replyFor (d : Dev) (bytes : List Byte) (n : Nat) : Except Fault (Byte × Nat) :=
  match bytes with
  | o :: ah :: al :: xs =>
    if o = Config.opcRead ∧ d.line.present = true then
      if frameAddr ah al + xs.length < Config.capacity then .ok (d.read (frameAddr ah al + xs.length), n)
      else .error .deviceAddressRange
    else .ok (Config.freeByte n, n + 1)
  | _ => .ok (Config.freeByte n, n + 1)

/-- The device takes one bit of the byte in progress; the eighth completes the byte (20_memory.md R83) and puts its reply
r_k on record: the byte the device gives, not the samples the master takes, DESIGN CHOICE (log 42) where a bad line or a
missing device makes the two differ. -/
def takeBit (d : Dev) (m : Bool) (f : Frame) : Except Fault Frame :=
  if f.cnt < 7 then .ok { f with acc := shiftIn f.acc m, cnt := f.cnt + 1 }
  else if d.inRange (f.bytes ++ [shiftIn f.acc m]) then
    .ok { f with bytes := f.bytes ++ [shiftIn f.acc m], replies := f.replies ++ [f.reply], acc := 0, cnt := 0 }
  else .error .deviceAddressRange

/-- One clock pulse with `m` put on data-out: ignored when no frame is open (40_transport.md R130); the first pulse of an
exchange fixes its reply byte (20_memory.md R82, R83). The frame takes the level the line shows the device, so on a stuck
or noisy data-out line `out` records that level and not the one the block drove, DESIGN CHOICE (log 42): 00_scope.md R12
and 40_transport.md R160 do not say which end of a bad line counts. -/
def Dev.pulse (m : Bool) (d : Dev) (n : Nat) : Except Fault (Dev × Nat) :=
  match d.frame with
  | none => .ok (d, n)
  | some f =>
    match (if f.cnt = 0 then replyFor d f.bytes (d.line.dataOut.carry m n).2
      else .ok (f.reply, (d.line.dataOut.carry m n).2)) with
    | .error e => .error e
    | .ok (r, n') =>
      match takeBit d (d.line.dataOut.carry m n).1 { f with reply := r } with
      | .error e => .error e
      | .ok f' => .ok ({ d with frame := some f' }, n')

/-- The index j of the latest pulse of its exchange, if the frame has had one (20_memory.md R82). -/
def lastPulse (f : Frame) : Option Nat :=
  if f.cnt = 0 then (if f.bytes = [] then none else some 7) else some (f.cnt - 1)

/-- What the device puts on MISO: bit 7-j of r_k for the latest pulse j of exchange k (20_memory.md R82), a free level
when it drives nothing, because no frame is open, no pulse was given, or it is missing (10_state.md R39; 93 U29). -/
def Dev.driven (d : Dev) (n : Nat) : Bool × Nat :=
  match d.frame with
  | none => (Config.freeBit n, n + 1)
  | some f =>
    match (if d.line.present then lastPulse f else none) with
    | none => (Config.freeBit n, n + 1)
    | some j => (f.reply.getLsbD (7 - j), n)

/-- The level of MISO as it is sampled (10_state.md R39; 70_reset_and_hazards.md R275). -/
def Dev.sample (d : Dev) (n : Nat) : Bool × Nat := d.line.dataIn.carry (d.driven n).1 (d.driven n).2

/-- `k` pulses of a byte exchange, most significant bit first, sampling after each (40_transport.md R151). -/
def Dev.exchangeBits : Nat → Byte → Byte → Dev → Nat → Except Fault (Byte × Dev × Nat)
  | 0, _, r, d, n => .ok (r, d, n)
  | k + 1, v, r, d, n =>
    match d.pulse v.msb n with
    | .error e => .error e
    | .ok (d', n') => Dev.exchangeBits k (shiftOut v) (shiftIn r (d'.sample n').1) d' (d'.sample n').2

/-- `Exchange(v) -> r` (40_transport.md R151). -/
def Dev.exchange (v : Byte) (d : Dev) (n : Nat) : Except Fault (Byte × Dev × Nat) := Dev.exchangeBits 8 v 0 d n

/-- Byte exchanges in order, the bytes received kept in `in` or not (30_encoding.md R104). -/
def Dev.exchangeAll (keep : Bool) : List Byte → Dev → Nat → Except Fault (Dev × Nat)
  | [], d, n => .ok (d, n)
  | v :: vs, d, n =>
    match d.exchange v n with
    | .error e => .error e
    | .ok (r, d', n') => Dev.exchangeAll keep vs (if keep then d'.note r else d') n'

/-- Chip-select falls: a frame opens, unless a write cycle is running (20_memory.md R70, R80). -/
def Dev.openFrame (d : Dev) : Except Fault Dev :=
  if d.line.present && d.wip then .error .deviceBusyAccess else .ok { d with frame := some Frame.empty }

/-- What the device does with a whole frame (20_memory.md R71 to R74, R79, R81). -/
def Dev.obey (bytes : List Byte) (d : Dev) (n : Nat) : Dev × Nat :=
  match bytes with
  | [o] => if o = Config.opcWren then ({ d with wel := true }, n) else (d, n)
  | [o, _, _] => if o = Config.opcWrite then ({ d with wel := Config.freeBit n }, n + 1) else (d, n)
  | o :: ah :: al :: v :: vs =>
    if o = Config.opcWrite ∧ d.wel = true then
      ({ d with wip := true, pending := some { addr := frameAddr ah al, data := v :: vs } }, n)
    else (d, n)
  | _ => (d, n)

/-- What the device does at the close of a frame: nothing if it is missing. -/
def Dev.act (bytes : List Byte) (d : Dev) (n : Nat) : Dev × Nat := if d.line.present then d.obey bytes n else (d, n)

/-- The device's own step Commit (20_memory.md R77, R79); not enabled, nothing happens. -/
def Dev.commit (d : Dev) : Dev :=
  if d.wip then
    match d.pending with
    | some p => { d with ee := Memory.writeList d.ee p.addr p.data, wel := false, wip := false, pending := none }
    | none => { d with wel := false, wip := false }
  else d

/-! The device as a part of the machine. -/

/-- A pulse on the wire. -/
def pulse (m : Bool) (s : State) : Except Fault State :=
  match s.dev.pulse m s.draws with
  | .error e => .error e
  | .ok (d, n) => .ok ((s.setDev d).setDraws n)

/-- The level of MISO, and the next free draw. -/
def sampleMiso (s : State) : Bool × Nat := s.dev.sample s.draws

/-- A byte exchange on the wire (40_transport.md R151). -/
def exchange (v : Byte) (s : State) : Except Fault (Byte × State) :=
  match s.dev.exchange v s.draws with
  | .error e => .error e
  | .ok (r, d, n) => .ok (r, (s.setDev d).setDraws n)

/-- Byte exchanges on the wire. -/
def exchangeAll (keep : Bool) (vs : List Byte) (s : State) : Except Fault State :=
  match s.dev.exchangeAll keep vs s.draws with
  | .error e => .error e
  | .ok (d, n) => .ok ((s.setDev d).setDraws n)

/-- The open frame closes off a byte boundary: PartialByte; else the device acts on it, and it is on record
(20_memory.md R70). -/
def closeFrame (s : State) : Except Fault State :=
  match s.dev.frame with
  | none => .ok s
  | some f =>
    if f.cnt = 0 then
      .ok (((s.setDev (Dev.act f.bytes { s.dev with frame := none } s.draws).1).setDraws
        (Dev.act f.bytes { s.dev with frame := none } s.draws).2).logFrame
        { out := f.bytes, replies := f.replies, received := f.received })
    else .error .partialByte

/-- Chip-select falls on the machine's device. -/
def openFrame (s : State) : Except Fault State :=
  match s.dev.openFrame with
  | .error e => .error e
  | .ok d => .ok (s.setDev d)

/-- The chip-select line takes a level; a level it already has changes nothing (20_memory.md R70). -/
def csLevel (v : Bool) (s : State) : Except Fault State :=
  if s.pins.outCs = v then .ok s
  else if v then closeFrame (s.setPins { s.pins with outCs := v })
  else openFrame (s.setPins { s.pins with outCs := v })

/-- Commit as a step of the machine. -/
def commit (s : State) : State := s.setDev s.dev.commit

/-- One frame applied to the device: a bracket with the given bytes, then exchanges whose replies are kept
(30_encoding.md R100, R104; log 17). -/
def frameBracket (bytes dummies : List Byte) (s : State) : Except Fault State :=
  match csLevel false s with
  | .error e => .error e
  | .ok s1 =>
    match exchangeAll false bytes s1 with
    | .error e => .error e
    | .ok s2 =>
      match exchangeAll true dummies s2 with
      | .error e => .error e
      | .ok s3 => csLevel true s3

end Sys2Proof.Machine
end

