-- ==== Sys2Proof/Machine/Ops.lean ====
section
/-! DEFINITION. The shared operations of the framer and the controller: the other agents' moves, the boundary events,
the poll, the sequencer, the error results (the block's exceptions: 60_exceptions.md R218) and the response that
returns from them (R219). -/

namespace Sys2Proof.Machine

open Sys2Proof

/-! The controller (40_transport.md section 5). -/

/-- The asynchronous controller's enabled step, Load, Shift or Done (40_transport.md R153); none when it is idle or
dead (log 15), or when there is no asynchronous controller. -/
def ctlStep (s : State) : Except Fault State :=
  if isAsync s && s.ctl.live then
    if s.ctl.srBusy then
      if s.ctl.srCnt < 8#4 then
        match pulse s.ctl.srOut.msb s with
        | .error e => .error e
        | .ok s' =>
          .ok ((s'.setDraws (sampleMiso s').2).setCtl { s'.ctl with
            srOut := shiftOut s'.ctl.srOut, srIn := shiftIn s'.ctl.srIn (sampleMiso s').1, srCnt := s'.ctl.srCnt + 1 })
      else if s.ctl.srCnt = 8#4 then
        .ok (s.setCtl { s.ctl with rxbuf := s.ctl.srIn, rxrdy := true, srBusy := false })
      else .ok s
    else if s.ctl.txfull then
      .ok (s.setCtl { s.ctl with srOut := s.ctl.txbuf, txfull := false, srBusy := true, srCnt := 0 })
    else .ok s
  else .ok s

/-- `RegWrite(TXBUF, v)`: the reference controller completes the exchange inside the step, a dead one does nothing
(40_transport.md R150); the asynchronous one takes the byte, unless it is full (R153, R154 a). A write while the shift
register is busy and TXBUF empty is no fault, DESIGN CHOICE (log 43), although R154 closes with the controller idle at
each receive_byte of a fault-free run. -/
def ctlWrite (v : Byte) (s : State) : Except Fault State :=
  if s.params.ctrlAtomic then
    if s.ctl.live then
      match exchange v (s.setCtl { s.ctl with txbuf := v }) with
      | .error e => .error e
      | .ok (r, s') => .ok (s'.setCtl { s'.ctl with rxbuf := r, rxrdy := true, txrdy := true })
    else .ok s
  else if s.ctl.txfull then .error .txOverwrite
  else .ok (s.setCtl { s.ctl with txbuf := v, txfull := true })

/-- `RegRead(RXBUF)`: gives RXBUF and clears RXRDY (40_transport.md R150, R153). With the asynchronous controller it is
StaleRx before the receive's own exchange, the last one written, is done, that is while the controller is not idle
(R154 b; log 27). -/
def ctlRead (s : State) : Except Fault (Byte × State) :=
  if s.params.ctrlAtomic = false ∧ ctlIdle s = false then .error .staleRx
  else .ok (s.ctl.rxbuf, s.setCtl { s.ctl with rxrdy := false })

/-! The other agents (10_state.md R20; log 12). -/

/-- One move of another agent. -/
def envAct (a : EnvAct) (s : State) : Except Fault State :=
  match a with
  | .controller => ctlStep s
  | .commit => .ok (commit s)
  | .live b => .ok (s.setCtl { s.ctl with live := b })
  | .line l => .ok (s.setDev (s.dev.setLine l))

/-- Moves of other agents, in order. -/
def envActs : List EnvAct → State → Except Fault State
  | [], s => .ok s
  | a :: as, s =>
    match envAct a s with
    | .error e => .error e
    | .ok s' => envActs as s'

/-- A scheduling point: the other agents make the moves the schedule has for it, none when it is exhausted. -/
def envPoint (s : State) : Except Fault State :=
  match s.sched with
  | [] => .ok s
  | as :: rest => envActs as (s.setSched rest)

/-! Boundary events (00_scope.md R10). -/

/-- `DIR.p` (10_state.md R37). -/
def pinDir (p : OutPin) (s : State) : Dir :=
  match p with
  | .cs => s.pins.dirCs
  | .sck => s.pins.dirSck
  | .mosi => s.pins.dirMosi

/-- `Dir(p, d)` (10_state.md R37). -/
def setDir (p : Pin) (d : Dir) (s : State) : State :=
  match p with
  | .cs => s.setPins { s.pins with dirCs := d }
  | .sck => s.setPins { s.pins with dirSck := d }
  | .mosi => s.setPins { s.pins with dirMosi := d }
  | .miso => s.setPins { s.pins with dirMiso := d }

/-- What a level on a pin does (10_state.md R38): chip-select is the device's frame (20_memory.md R70), a rise of the
clock is a pulse that carries the data-out level (20_memory.md R83; log 22). -/
def lineLevel (p : OutPin) (v : Bool) (s : State) : Except Fault State :=
  match p with
  | .cs => csLevel v s
  | .sck =>
    let s' := s.setPins { s.pins with outSck := v }
    if v ∧ s.pins.outSck = false then pulse s.pins.outMosi s' else .ok s'
  | .mosi => .ok (s.setPins { s.pins with outMosi := v })

/-- `Drive(p, v)`: PinNotOutput on a pin that is no output (10_state.md R37), CsEarly when chip-select rises on a busy
asynchronous controller (40_transport.md R154 c), then what the level does: PartialByte when chip-select rises off a byte
boundary (20_memory.md R70), DeviceBusyAccess when it falls during a write cycle (R80), DeviceAddressRange at a pulse (R61).
Where one Drive meets several, on any pin, the first in this order is the fault, DESIGN CHOICE (log 41):
60_exceptions.md R222 orders none. -/
def drivePin (p : OutPin) (v : Bool) (s : State) : Except Fault State :=
  if pinDir p s = .input then .error .pinNotOutput
  else if p = .cs ∧ v = true ∧ isAsync s = true ∧ ctlIdle s = false then .error .csEarly
  else lineLevel p v (s.log (.drive p v))

/-- Counts the settle wait down to 0 (70_reset_and_hazards.md R262). -/
def countDown : Nat → Nat
  | 0 => 0
  | n + 1 => countDown n

/-- `Wait(SETTLE)`, once it is enabled (70_reset_and_hazards.md R262). -/
def settleWait (s : State) : State :=
  let s1 := s.setRegs { s.regs with waitcnt := s.params.settleCount }
  (s1.setRegs { s1.regs with waitcnt := countDown s1.regs.waitcnt }).log .wait

/-- `Rsp(STATUS, data)` on the response port (30_encoding.md R113; 60_exceptions.md R219). The port keeps it until the next
response, DESIGN CHOICE (log 3): 10_state.md R50 calls it valid only with a Rsp event. -/
def sendRsp (data : Half) (s : State) : State :=
  (s.setRegs { s.regs with rspStatus := s.regs.status, rspData := data }).log (.rsp s.regs.status data)

/-- One event of the framer. -/
def perform (a : Act) (s : State) : Except Fault State :=
  match a with
  | .dir p d => .ok ((setDir p d s).log (.dir p d))
  | .drive p v => drivePin p v s
  | .driveMosi => drivePin .mosi s.regs.shift.msb s
  | .sample =>
    .ok (((s.setDraws (sampleMiso s).2).setRegs { s.regs with
      rxacc := shiftIn s.regs.rxacc (sampleMiso s).1, bitcnt := s.regs.bitcnt + 1 }).log (.sample (sampleMiso s).1))
  | .regWrite sel => ctlWrite (reqByte sel s) (s.log (.regWrite (reqByte sel s)))
  | .regWriteDummy => ctlWrite Config.dummy (s.log (.regWrite Config.dummy))
  | .regRead =>
    match ctlRead s with
    | .error e => .error e
    | .ok (v, s') => .ok ((noteReceived v (s'.setRegs { s'.regs with tret := v })).log (.regRead v))
  | .wait => .ok (settleWait s)
  | .tierLow => .ok (((s.setTier s.params.tierLow).setTierLow true).log (.clockTier s.params.tierLow))
  | .tierHigh => .ok (((s.setTier s.params.tierHigh).setTierLow false).log (.clockTier s.params.tierHigh))
  | .rsp src => .ok (sendRsp (rspValue src s) s)

/-! The sequencer (10_state.md R28, R29): one attempt at one item is one step. -/

/-- What one item, or a run of items, of a sequence comes to. -/
inductive Move where
  /-- It is done. -/
  | went (s : State)
  /-- The framer is held: SEQ is at the item still. -/
  | held (s : State)
  /-- The poll budget ran out: `raise DeviceTimeout(flag)`. -/
  | timedOut (s : State) (f : Flag)
  /-- A model fault. -/
  | stopped (e : Fault)
  deriving DecidableEq, Repr

/-- A move that is done, or a fault. -/
def Move.ofExcept (r : Except Fault State) : Move :=
  match r with
  | .error e => .stopped e
  | .ok s => .went s

/-- A move that held the framer, or a fault. -/
def Move.hold (r : Except Fault State) : Move :=
  match r with
  | .error e => .stopped e
  | .ok s => .held s

/-- The hold of `Wait(SETTLE)`: under O-SETTLE it is enabled when WIP = 0, without O-SETTLE always
(70_reset_and_hazards.md R262). -/
def waitHeld (a : Act) (s : State) : Bool := decide (a = .wait) && s.params.oSettle && s.dev.wip

/-- `Poll(flag)` with a budget: at most `n` attempts, each at a scheduling point (40_transport.md R144). -/
def pollTries (f : Flag) : Nat → State → Move
  | 0, s => .timedOut s f
  | n + 1, s =>
    match envPoint s with
    | .error e => .stopped e
    | .ok s' =>
      if flagValue f s' then .went (s'.log (.poll f))
      else pollTries f n (s'.setRegs { s'.regs with pollcnt := n })

/-- One attempt at an item. An event and a poll have their scheduling point first. A framer that is held stays at the
item, and the agent it waits for takes its enabled step (70_reset_and_hazards.md R280, fairness; log 13, log 14): the
device its Commit for `Wait(SETTLE)`, the asynchronous controller its Load, Shift or Done for a poll without a budget. -/
def attempt (m : Micro) (s : State) : Move :=
  match m with
  | .reg u => .went (applyUpd u s)
  | .ev a =>
    match envPoint s with
    | .error e => .stopped e
    | .ok s' => if waitHeld a s' then .held (commit s') else .ofExcept (perform a s')
  | .poll f =>
    match s.params.pollBudget with
    | some n => pollTries f n (s.setRegs { s.regs with pollcnt := n })
    | none =>
      match envPoint s with
      | .error e => .stopped e
      | .ok s' => if flagValue f s' then .went (s'.log (.poll f)) else .hold (ctlStep s')

/-- At most `n` attempts at an item. -/
def attempts : Nat → Micro → State → Move
  | 0, _, s => .held s
  | n + 1, m, s =>
    match attempt m s with
    | .held s' => attempts n m s'
    | .went s' => .went s'
    | .timedOut s' f => .timedOut s' f
    | .stopped e => .stopped e

/-- More attempts than a hold can take that another agent lifts by itself: the asynchronous controller is idle after at
most eight Shift and Done, then Load, eight Shift and Done (40_transport.md R153). -/
def holdTries : Nat := 21

/-- One item of a sequence, as far as the other agents let it come. -/
def item (m : Micro) (s : State) : Move := attempts holdTries m s

/-- Runs a sequence: SEQ moves past each item that is done (10_state.md R29). -/
def runSeq : List Micro → State → Move
  | [], s => .went s
  | m :: ms, s =>
    match item m s with
    | .went s' => runSeq ms (s'.setSeq ms)
    | .held s' => .held s'
    | .timedOut s' f => .timedOut s' f
    | .stopped e => .stopped e

/-- SEQ goes to the position of the next event of a sequence: the register transfers before it are part of the step of
the event behind them (10_state.md R29; log 11). -/
def toNextEvent : List Micro → State → State
  | .reg u :: ms, s => toNextEvent ms (applyUpd u s)
  | ms, s => s.setSeq ms

/-! Error results, the block's exceptions (60_exceptions.md section 3), and the response that returns. -/

/-- T0 of the exit (60_exceptions.md R218 b), in the step of the raise, no other agent between them (log 30). -/
def exitDrive (s : State) : Except Fault State :=
  if s.pins.outCs = false then perform (.drive .cs true) s else .ok s

/-- T1 to T3 of the exit (60_exceptions.md R218 b): what the state at the raise asks for. -/
def exitSeq (s : State) : List Micro :=
  (if s.pins.outCs = false ∧ s.bracketWrite = true then [.ev .wait] else [])
    ++ (if s.tierLow = true then [.ev .tierHigh] else []) ++ [.ev (.rsp .zero)]

/-- DeviceTimeout is raised in a running operation (60_exceptions.md R218 b): the operation is abandoned, STATUS says
why, the bracket is closed, and SEQ goes to the rest of the exit. -/
def exitStart (s : State) : Except Fault State :=
  match exitDrive (s.setRegs { s.regs with status := Status.deviceTimeout.code }) with
  | .error e => .error e
  | .ok s' => .ok (s'.setSeq (exitSeq s))

/-- A result that may be a fault, as an outcome. -/
def outcome (r : Except Fault State) : Host.Outcome State Fault Refusal :=
  match r with
  | .error e => .fault e
  | .ok s => .next s

/-- What a run that raises no timeout comes to. -/
def Move.outcome (m : Move) : Host.Outcome State Fault Refusal :=
  match m with
  | .went s => .next s
  | .held s => .next s
  | .timedOut s _ => .next s
  | .stopped e => .fault e

/-- The whole exit. It has no poll, so it raises no timeout. -/
def timeoutExit (s : State) : Host.Outcome State Fault Refusal :=
  match exitStart s with
  | .error e => .fault e
  | .ok s' => (runSeq s'.seq s').outcome

/-- A check that fails (60_exceptions.md R218 a): no boundary event, `Rsp(code, 0)`, SEQ stays IDLE. -/
def errorResult (st : Status) (s : State) : State :=
  sendRsp 0 (s.setRegs { s.regs with status := st.code })

/-- Runs an operation's sequence to its end, to a hold that nobody lifts (a next state with SEQ at the poll:
70_reset_and_hazards.md R265), or to its error exit. -/
def runOp (ms : List Micro) (s : State) : Host.Outcome State Fault Refusal :=
  match runSeq ms (s.setSeq ms) with
  | .timedOut s' _ => timeoutExit s'
  | m => m.outcome

/-- One step of the running operation: one boundary event, and SEQ at the next (10_state.md R29). -/
def advance (s : State) : Host.Outcome State Fault Refusal :=
  match s.seq with
  | [] => .next s
  | m :: ms =>
    match attempt m s with
    | .went s' => .next (toNextEvent ms s')
    | .held s' => .next s'
    | .timedOut s' _ => outcome (exitStart s')
    | .stopped e => .fault e

/-- An operation that was started, run to its end without a step between its events: what an instruction means is this
whole run (log 11). -/
def whole (r : Host.Outcome State Fault Refusal) : Host.Outcome State Fault Refusal :=
  match r with
  | .next s => runOp s.seq s
  | .fault e => .fault e
  | .refused r => .refused r

/-- Operation start, the latches (10_state.md R30). -/
def latch (op : BitVec 4) (addr data len : Half) (s : State) : State :=
  (s.setRegs { s.regs with op := op, addr := addr, wdata := data }).log (.cmd op addr data len)

/-- A command accepted: `LEN <- len[7:0]`, the status is OK so far, no bracket and no throttle yet (10_state.md R30). -/
def accept (len : Half) (s : State) : State :=
  ((s.setRegs { s.regs with len := lo8 len, status := Status.ok.code }).setBracketWrite false).setTierLow false

/-- A host operation starts: latch, check, and either the error result or SEQ at the operation's first event
(10_state.md R30). The host has no move while an operation runs. -/
def startHost (op : BitVec 4) (addr data len : Half) (sequence : State → List Micro) (s : State) :
    Host.Outcome State Fault Refusal :=
  if s.busy then .refused .busy
  else
    match startCheck op addr len s with
    | some st => .next (errorResult st (latch op addr data len s))
    | none =>
      .next (toNextEvent (sequence (accept len (latch op addr data len s))) (accept len (latch op addr data len s)))

/-- A transport micro-operation requested on the internal interface while no operation runs (log 20). -/
def startTransport (ms : List Micro) (s : State) : Host.Outcome State Fault Refusal :=
  if s.busy then .refused .busy else .next (toNextEvent ms s)

/-- A wire command: its frame applied to the device, which the framer has no part in (log 17). -/
def runFrame (bytes dummies : List Byte) (s : State) : Host.Outcome State Fault Refusal :=
  if s.busy then .refused .busy else outcome (frameBracket bytes dummies s)

/-! What an idle block does with the outside's other requests. -/

/-- A reset of the block (70_reset_and_hazards.md R250, 10_state.md R50): the reset values, the device store kept
(20_memory.md R84), WEL open; the parameters and the model's own fields go on (log 29). -/
def blockReset (s : State) : State :=
  { State.resetWith s.params with
    dev := { Dev.reset with ee := s.dev.ee, wel := Config.freeBit s.draws, line := s.dev.line }
    draws := s.draws + 1, inbox := s.inbox, sched := s.sched, trace := s.trace, frames := s.frames }

end Sys2Proof.Machine
end

