-- ==== Sys2Proof/Machine/Sequences.lean ====
section
/-! DEFINITION. The event sequences of the operations: each list is the pseudocode of one rule, expanded in place
(10_state.md R31), the events in the rule's order with the register transfers beside them. -/

namespace Sys2Proof.Machine

open Sys2Proof

/-- `n` copies of a sequence, one after the other: a counted loop (41_command_framer.md R180). -/
def repeatSeq : Nat → List Micro → List Micro
  | 0, _ => []
  | n + 1, ms => ms ++ repeatSeq n ms

/-! Transport (40_transport.md). -/

/-- One bit of bit-bang send_byte, position Bk (40_transport.md R131). -/
def sendBitSeq : List Micro := [.ev .driveMosi, .ev (.drive .sck true), .ev (.drive .sck false), .reg .shiftLeft]

/-- send_byte of one byte of the request (40_transport.md R131, R140). -/
def sendByteSeq (p : Params) (sel : ByteSel) : List Micro :=
  match p.mode with
  | .bitbang => .reg (.loadShift sel) :: repeatSeq 8 sendBitSeq
  | .controller => [.poll .txrdy, .ev (.regWrite sel)]

/-- send_word: high byte, then low byte (40_transport.md R135). -/
def sendWordSeq (p : Params) : List Micro := sendByteSeq p .hi ++ sendByteSeq p .lo

/-- One bit of bit-bang receive_byte, position Bk (40_transport.md R136). -/
def recvBitSeq (p : Params) : List Micro :=
  match p.samplePoint with
  | .afterPulse => [.ev (.drive .sck true), .ev (.drive .sck false), .ev .sample]
  | .whileHigh => [.ev (.drive .sck true), .ev .sample, .ev (.drive .sck false)]

/-- receive_byte (40_transport.md R136, R141). -/
def recvByteSeq (p : Params) : List Micro :=
  match p.mode with
  | .bitbang => .reg .clearRx :: (repeatSeq 8 (recvBitSeq p) ++ [.reg .returnRx])
  | .controller => [.ev .regWriteDummy, .poll .rxrdy, .ev .regRead]

/-- The Command Framer calls send_byte (30_encoding.md R114). -/
def callSendByte (p : Params) (src : Src) : List Micro := .reg (.request 0#2 src) :: sendByteSeq p .lo

/-- The Command Framer calls send_word (30_encoding.md R114). -/
def callSendWord (p : Params) (src : Src) : List Micro := .reg (.request 1#2 src) :: sendWordSeq p

/-- The Command Framer calls receive_byte. The request has no operand: its t_data bits are 0, DESIGN CHOICE (log 39;
30_encoding.md R114 leaves them open). -/
def callRecvByte (p : Params) : List Micro := .reg (.request 2#2 (.const 0)) :: recvByteSeq p

/-- cs_assert (40_transport.md R138): a bracket opens, 0x02 not yet sent in it. -/
def csAssert : List Micro := [.reg (.bracketWrite false), .ev (.drive .cs false)]

/-- cs_deassert (40_transport.md R139). -/
def csDeassert : List Micro := [.ev (.drive .cs true)]

/-! Command Framer (41_command_framer.md). -/

/-- wren_pulse() (41_command_framer.md R171). -/
def wrenPulse (p : Params) : List Micro := csAssert ++ callSendByte p (.const 0x0006) ++ csDeassert

/-- The head of a READ frame: P0 to P2 of 41_command_framer.md R172, B1 to B3 of 42_array_operations.md R193. -/
def readHead (p : Params) : List Micro := csAssert ++ callSendByte p (.const 0x0003) ++ callSendWord p .addr

/-- The head of a write: P0 to P5 of 41_command_framer.md R173, A1 to A6 of 42_array_operations.md R190. -/
def writeHead (p : Params) : List Micro :=
  wrenPulse p ++ csAssert ++ .reg (.bracketWrite true) :: callSendByte p (.const 0x0002) ++ callSendWord p .addr

/-- P0 to P4 of read_byte, the byte received going where `dst` says (41_command_framer.md R172, R176). -/
def readFrameSeq (p : Params) (dst : Upd) : List Micro := readHead p ++ callRecvByte p ++ .reg dst :: csDeassert

/-- P0 to P8 of write_byte with the data byte `src` (41_command_framer.md R173). -/
def writeFrameSeq (p : Params) (src : Src) : List Micro := writeHead p ++ callSendByte p src ++ csDeassert ++ [.ev .wait]

/-- read_byte (41_command_framer.md R172). -/
def readByteSeq (p : Params) : List Micro := readFrameSeq p .takeLo ++ [.ev (.rsp .byte)]

/-- write_byte (41_command_framer.md R173). -/
def writeByteSeq (p : Params) : List Micro := writeFrameSeq p .wdataLo ++ [.ev (.rsp .zero)]

/-- read_word (41_command_framer.md R176). -/
def readWordSeq (p : Params) : List Micro :=
  readFrameSeq p .takeHi ++ .reg .addrInc :: readFrameSeq p .takeLo ++ [.ev (.rsp .word)]

/-- write_word (41_command_framer.md R177). -/
def writeWordSeq (p : Params) : List Micro :=
  writeFrameSeq p .wdataHi ++ .reg .addrInc :: writeFrameSeq p .wdataLo ++ [.ev (.rsp .zero)]

/-! Array Operations (42_array_operations.md). -/

/-- `ClockTier(TIER_LOW)`, only if HAS_THROTTLE (42_array_operations.md R190, R193). -/
def throttleDown (p : Params) : List Micro := if p.hasThrottle then [.ev .tierLow] else []

/-- `ClockTier(TIER_HIGH)`, only if HAS_THROTTLE (42_array_operations.md R190, R193). -/
def throttleUp (p : Params) : List Micro := if p.hasThrottle then [.ev .tierHigh] else []

/-- One turn of the loop A7 (42_array_operations.md R190). -/
def writeArrayTurn (p : Params) : List Micro := callSendByte p .bufIdx ++ [.reg .idxInc]

/-- write_array with `LEN = n` (42_array_operations.md R190). -/
def writeArraySeq (p : Params) (n : Nat) : List Micro :=
  throttleDown p ++ writeHead p ++ .reg .idxZero :: repeatSeq n (writeArrayTurn p) ++ csDeassert ++ [.ev .wait]
    ++ throttleUp p ++ [.ev (.rsp .zero)]

/-- One turn of the loop B4 (42_array_operations.md R193). -/
def readArrayTurn (p : Params) : List Micro := callRecvByte p ++ [.reg .storeBuf, .reg .idxInc]

/-- read_array with `LEN = n` (42_array_operations.md R193). -/
def readArraySeq (p : Params) (n : Nat) : List Micro :=
  throttleDown p ++ readHead p ++ .reg .idxZero :: repeatSeq n (readArrayTurn p) ++ csDeassert
    ++ throttleUp p ++ [.ev (.rsp .zero)]

/-! Bulk Erase and Lifecycle (43_erase_and_init.md). -/

/-- One turn of the loop E1 (43_erase_and_init.md R200). -/
def eraseTurn (p : Params) : List Micro := .reg .eraLoad :: writeFrameSeq p .wdataLo ++ [.reg .eraInc]

/-- erase_all (43_erase_and_init.md R200). -/
def eraseAllSeq (p : Params) : List Micro :=
  .reg .eraZero :: repeatSeq Config.capacity (eraseTurn p) ++ [.ev (.rsp .zero)]

/-- I2 to I5 of init (43_erase_and_init.md R203). -/
def initPins (p : Params) : List Micro :=
  match p.mode with
  | .bitbang => [.ev (.dir .sck .output), .ev (.drive .sck false), .ev (.dir .mosi .output), .ev (.dir .miso .input)]
  | .controller => []

/-- init (43_erase_and_init.md R203). I9 sets INITED in the step of the response, not before (10_state.md R33): the
transfer stands behind that event, and nothing the response carries depends on it. -/
def initSeq (p : Params) : List Micro :=
  [.ev (.dir .cs .output), .ev (.drive .cs true)] ++ initPins p ++ wrenPulse p ++ [.ev (.rsp .zero), .reg .setInited]

end Sys2Proof.Machine
end

