-- ==== Sys2Proof/Machine/Arrays.lean ====
section
/-! DEFINITION. The array operations (42_array_operations.md). -/

namespace Sys2Proof.Machine

open Sys2Proof

/-- READ_ARRAY (42_array_operations.md R193). -/
def startReadArray (addr data len : Half) (s : State) : Host.Outcome State Fault Refusal :=
  startHost 0x5#4 addr data len (fun t => readArraySeq t.params t.regs.len.toNat) s

/-- READ_ARRAY, whole. -/
def execReadArray (addr data len : Half) (s : State) : Host.Outcome State Fault Refusal :=
  whole (startReadArray addr data len s)

/-- WRITE_ARRAY (42_array_operations.md R190). -/
def startWriteArray (addr data len : Half) (s : State) : Host.Outcome State Fault Refusal :=
  startHost 0x6#4 addr data len (fun t => writeArraySeq t.params t.regs.len.toNat) s

/-- WRITE_ARRAY, whole. -/
def execWriteArray (addr data len : Half) (s : State) : Host.Outcome State Fault Refusal :=
  whole (startWriteArray addr data len s)

end Sys2Proof.Machine
end

