-- ==== Sys2Proof/Machine/ByteWord.lean ====
section
/-! DEFINITION. The byte and word operations of the Command Framer (41_command_framer.md). -/

namespace Sys2Proof.Machine

open Sys2Proof

/-- READ_BYTE (41_command_framer.md R172). -/
def startReadByte (addr data len : Half) (s : State) : Host.Outcome State Fault Refusal :=
  startHost 0x1#4 addr data len (fun t => readByteSeq t.params) s

/-- READ_BYTE, whole. -/
def execReadByte (addr data len : Half) (s : State) : Host.Outcome State Fault Refusal :=
  whole (startReadByte addr data len s)

/-- WRITE_BYTE (41_command_framer.md R173). -/
def startWriteByte (addr data len : Half) (s : State) : Host.Outcome State Fault Refusal :=
  startHost 0x2#4 addr data len (fun t => writeByteSeq t.params) s

/-- WRITE_BYTE, whole. -/
def execWriteByte (addr data len : Half) (s : State) : Host.Outcome State Fault Refusal :=
  whole (startWriteByte addr data len s)

/-- READ_WORD (41_command_framer.md R176). -/
def startReadWord (addr data len : Half) (s : State) : Host.Outcome State Fault Refusal :=
  startHost 0x3#4 addr data len (fun t => readWordSeq t.params) s

/-- READ_WORD, whole. -/
def execReadWord (addr data len : Half) (s : State) : Host.Outcome State Fault Refusal :=
  whole (startReadWord addr data len s)

/-- WRITE_WORD (41_command_framer.md R177). -/
def startWriteWord (addr data len : Half) (s : State) : Host.Outcome State Fault Refusal :=
  startHost 0x4#4 addr data len (fun t => writeWordSeq t.params) s

/-- WRITE_WORD, whole. -/
def execWriteWord (addr data len : Half) (s : State) : Host.Outcome State Fault Refusal :=
  whole (startWriteWord addr data len s)

end Sys2Proof.Machine
end

