-- ==== Sys2Proof/Machine/Lifecycle.lean ====
section
/-! DEFINITION. Lifecycle, Bulk Erase and the reserved host codes (43_erase_and_init.md; 30_encoding.md R116). -/

namespace Sys2Proof.Machine

open Sys2Proof

/-- INIT (43_erase_and_init.md R203). -/
def startInit (addr data len : Half) (s : State) : Host.Outcome State Fault Refusal :=
  startHost 0x0#4 addr data len (fun t => initSeq t.params) s

/-- INIT, whole. -/
def execInit (addr data len : Half) (s : State) : Host.Outcome State Fault Refusal :=
  whole (startInit addr data len s)

/-- ERASE_ALL (43_erase_and_init.md R200). -/
def startEraseAll (addr data len : Half) (s : State) : Host.Outcome State Fault Refusal :=
  startHost 0x7#4 addr data len (fun t => eraseAllSeq t.params) s

/-- ERASE_ALL, whole. -/
def execEraseAll (addr data len : Half) (s : State) : Host.Outcome State Fault Refusal :=
  whole (startEraseAll addr data len s)

/-- Host codes 0x8 to 0xF: the error result IllegalOperation (30_encoding.md R116; 60_exceptions.md R216). The check
always fails, so no sequence runs. -/
def startReservedHost (k : BitVec 3) (addr data len : Half) (s : State) : Host.Outcome State Fault Refusal :=
  startHost (1#1 ++ k) addr data len (fun _ => []) s

/-- A reserved code, whole. -/
def execReservedHost (k : BitVec 3) (addr data len : Half) (s : State) : Host.Outcome State Fault Refusal :=
  whole (startReservedHost k addr data len s)

end Sys2Proof.Machine
end

