-- ==== Sys2Proof/Machine/Transport.lean ====
section
/-! DEFINITION. The transport micro-operations (40_transport.md; 30_encoding.md R114). -/

namespace Sys2Proof.Machine

open Sys2Proof

/-- SEND_BYTE (40_transport.md R131, R140). A standalone 0x02 makes no bracket a WRITE bracket: the mark of
60_exceptions.md R218 T1 stays as it was, DESIGN CHOICE (log 20). -/
def startSendByte (tdata : Half) (s : State) : Host.Outcome State Fault Refusal :=
  startTransport (callSendByte s.params (.const tdata)) s

/-- SEND_BYTE, whole. -/
def execSendByte (tdata : Half) (s : State) : Host.Outcome State Fault Refusal := whole (startSendByte tdata s)

/-- SEND_WORD (40_transport.md R135), the mark of T1 as in SEND_BYTE. -/
def startSendWord (tdata : Half) (s : State) : Host.Outcome State Fault Refusal :=
  startTransport (callSendWord s.params (.const tdata)) s

/-- SEND_WORD, whole. -/
def execSendWord (tdata : Half) (s : State) : Host.Outcome State Fault Refusal := whole (startSendWord tdata s)

/-- RECEIVE_BYTE: the byte goes to the internal return port (40_transport.md R136, R141). -/
def startReceiveByte (tdata : Half) (s : State) : Host.Outcome State Fault Refusal :=
  startTransport (.reg (.request 2#2 (.const tdata)) :: recvByteSeq s.params) s

/-- RECEIVE_BYTE, whole. -/
def execReceiveByte (tdata : Half) (s : State) : Host.Outcome State Fault Refusal := whole (startReceiveByte tdata s)

/-- Transport code 3: "a model's decoder must refuse it" (93_implementation_defined.md U14; 30_encoding.md R114). -/
def execReservedTransport (_tdata : Half) (_s : State) : Host.Outcome State Fault Refusal :=
  .refused .reservedTransportCode

end Sys2Proof.Machine
end

