-- ==== Sys2Proof/Machine/Wire.lean ====
section
/-! DEFINITION. The wire commands WREN, WRITE and READ, executed by the device (20_memory.md section 5). -/

namespace Sys2Proof.Machine

open Sys2Proof

/-- WREN: the frame `[06]` (30_encoding.md R102), which sets the latch at its close (20_memory.md R71). -/
def execWren (s : State) : Host.Outcome State Fault Refusal := runFrame [Config.opcWren] [] s

/-- WRITE: the frame `[02 ah al d_0 ...]` (30_encoding.md R103; 20_memory.md R72, R79, R81). -/
def execWrite (addr : Half) (data : List Byte) (s : State) : Host.Outcome State Fault Refusal :=
  runFrame (Config.opcWrite :: hi8 addr :: lo8 addr :: data) [] s

/-- READ: the frame `[03 ah al x_0 ...]`, the device's bytes of the data phase kept as the frame's `in` (30_encoding.md
R104; 20_memory.md R73). -/
def execRead (addr : Half) (dummies : List Byte) (s : State) : Host.Outcome State Fault Refusal :=
  runFrame [Config.opcRead, hi8 addr, lo8 addr] dummies s

/-- A frame that is no command: the device ignores it, but for the faults any frame can have (20_memory.md R71, R74). -/
def runUnknownFrame (bytes : List Byte) (s : State) : Host.Outcome State Fault Refusal := runFrame bytes [] s

end Sys2Proof.Machine
end

