-- ==== Sys2Proof/Machine/Dispatch.lean ====
section
/-! DEFINITION. exec: one arm per constructor of Instr. -/

namespace Sys2Proof.Machine

open Sys2Proof

def exec (i : Instr) (s : State) : Host.Outcome State Fault Refusal :=
  match i with
  -- wire commands (20_memory.md)
  | .wren => Sys2Proof.Machine.execWren s
  | .write addr data => Sys2Proof.Machine.execWrite addr data s
  | .read addr dummies => Sys2Proof.Machine.execRead addr dummies s
  -- host operations (41_command_framer.md, 42_array_operations.md, 43_erase_and_init.md)
  | .init addr data len => Sys2Proof.Machine.execInit addr data len s
  | .readByte addr data len => Sys2Proof.Machine.execReadByte addr data len s
  | .writeByte addr data len => Sys2Proof.Machine.execWriteByte addr data len s
  | .readWord addr data len => Sys2Proof.Machine.execReadWord addr data len s
  | .writeWord addr data len => Sys2Proof.Machine.execWriteWord addr data len s
  | .readArray addr data len => Sys2Proof.Machine.execReadArray addr data len s
  | .writeArray addr data len => Sys2Proof.Machine.execWriteArray addr data len s
  | .eraseAll addr data len => Sys2Proof.Machine.execEraseAll addr data len s
  | .reservedHost k addr data len => Sys2Proof.Machine.execReservedHost k addr data len s
  -- transport micro-operations (40_transport.md)
  | .sendByte tdata => Sys2Proof.Machine.execSendByte tdata s
  | .sendWord tdata => Sys2Proof.Machine.execSendWord tdata s
  | .receiveByte tdata => Sys2Proof.Machine.execReceiveByte tdata s
  | .reservedTransport tdata => Sys2Proof.Machine.execReservedTransport tdata s

end Sys2Proof.Machine
end

