-- ==== Sys2Proof/Machine/Serve.lean ====
section
/-! DEFINITION. What an idle block does with the next request from outside: fetch, decode and run. -/

namespace Sys2Proof.Machine

open Sys2Proof

/-- One image presented to an idle block: what it decodes to is run, and a frame that is no command is applied to the
device all the same, which ignores it (20_memory.md R74; log 18). -/
def present (im : Image) (s : State) : Host.Outcome State Fault Refusal :=
  match im with
  | .cmd w => exec (decodeCmd w) s
  | .micro w => exec (decodeMicro w) s
  | .frame bytes =>
    match decodeFrame bytes with
    | .ok i => exec i s
    | .error _ => runUnknownFrame bytes s

/-- An instruction started only: the block's operations stop at their first event, a frame is the device's and is applied
whole (10_state.md R30; log 11). -/
def start (i : Instr) (s : State) : Host.Outcome State Fault Refusal :=
  match i with
  | .wren => execWren s
  | .write addr data => execWrite addr data s
  | .read addr dummies => execRead addr dummies s
  | .init addr data len => startInit addr data len s
  | .readByte addr data len => startReadByte addr data len s
  | .writeByte addr data len => startWriteByte addr data len s
  | .readWord addr data len => startReadWord addr data len s
  | .writeWord addr data len => startWriteWord addr data len s
  | .readArray addr data len => startReadArray addr data len s
  | .writeArray addr data len => startWriteArray addr data len s
  | .eraseAll addr data len => startEraseAll addr data len s
  | .reservedHost k addr data len => startReservedHost k addr data len s
  | .sendByte tdata => startSendByte tdata s
  | .sendWord tdata => startSendWord tdata s
  | .receiveByte tdata => startReceiveByte tdata s
  | .reservedTransport tdata => execReservedTransport tdata s

/-- One image presented to an idle block to be started only. -/
def presentStart (im : Image) (s : State) : Host.Outcome State Fault Refusal :=
  match im with
  | .cmd w => start (decodeCmd w) s
  | .micro w => start (decodeMicro w) s
  | .frame bytes => present (.frame bytes) s

/-- One request, taken by an idle block (log 16). -/
def serve (r : Request) (s : State) : Host.Outcome State Fault Refusal :=
  match r with
  | .instr im => present im s
  | .start im => presentStart im s
  | .bufWrite i v => .next (bufWrite s i v)
  | .env acts => outcome (envActs acts s)
  | .reset => .next (blockReset s)

/-- An idle block's step: it takes the next request, and without one it waits while the other agents may move
(10_state.md R30; 70_reset_and_hazards.md R250). -/
def idleStep (s : State) : Host.Outcome State Fault Refusal :=
  match s.inbox with
  | r :: rest => serve r (s.setInbox rest)
  | [] => outcome (envPoint s)

/-- Presents a table word's instruction next, to an idle block (log 16). -/
def presentTableWord (nbits w : Nat) (s : State) : State :=
  (s.setSeq []).setInbox (.instr (imageOfTableWord nbits w) :: s.inbox)

end Sys2Proof.Machine
end

