-- ==== Sys2Proof/Machine/Step.lean ====
section
/-! DEFINITION. One step: a running operation makes its next event, an idle block takes what the outside presents. -/

namespace Sys2Proof.Machine

open Sys2Proof

/-- One step of the machine. -/
def step (s : State) : Host.Outcome State Fault Refusal := if s.busy then advance s else idleStep s

/-- `s` with the instruction of a table word presented next (log 16). -/
def State.withFetchWord (s : State) (nbits w : Nat) : State := presentTableWord nbits w s

end Sys2Proof.Machine
end

