-- ==== Sys2Proof/Safety.lean ====
section
/-! DEFINITION. What the claims are said in: the states in which the transport works, the state between operations
(10_state.md R52), the invariant of the machine, and the event traces the rules' pseudocode lists. -/

namespace Sys2Proof.Machine

open Sys2Proof

/-! States. -/

/-- The transport can move a byte: no other agent has a move of its own waiting, and the lines are set up as init and
the platform leave them. Bit-bang mode: clock and data-out are outputs, the clock is low (40_transport.md R130).
Controller mode: the reference controller, alive and ready (40_transport.md R150; 70 R253), with a budget that is no
empty one. The device is there and the data lines are sound (70 R275; log 42). -/
abbrev Linked (s : State) : Prop :=
  s.sched = [] ∧
  (s.params.mode = .bitbang → s.pins.dirSck = .output ∧ s.pins.dirMosi = .output ∧ s.pins.outSck = false) ∧
  (s.params.mode = .controller →
    s.params.ctrlAtomic = true ∧ s.ctl.live = true ∧ s.ctl.txrdy = true ∧ s.params.pollBudget ≠ some 0) ∧
  s.dev.line = Line.sound

/-- The same whatever the bus is like (70 R275). -/
abbrev Wired (s : State) : Prop := Linked { s with dev := { s.dev with line := Line.sound } }

/-- The lines between operations: chip-select is an output and high, no frame is open (10_state.md R52). -/
abbrev LinesIdle (s : State) : Prop :=
  s.pins.dirCs = .output ∧ s.pins.outCs = true ∧ s.dev.frame = none

/-- Between operations, after init, with the reference parameters (10_state.md R52): the block is idle and initialised,
the transport works, the lines are idle, no write cycle runs. -/
abbrev Ready (s : State) : Prop :=
  s.seq = [] ∧ s.regs.inited = true ∧ Linked s ∧ LinesIdle s ∧ s.dev.wip = false

/-- Controller mode with a controller that never answers (40_transport.md R150, `CTRL_LIVE = false`): idle, the lines
idle, no write cycle, no other agent moving. -/
abbrev Dead (s : State) : Prop :=
  s.seq = [] ∧ s.sched = [] ∧ s.params.mode = .controller ∧ s.params.ctrlAtomic = true ∧
    s.ctl.live = false ∧ LinesIdle s ∧ s.dev.wip = false

/-- The bus as a frame from outside finds it: chip-select high, no frame open, the block idle, the device there and its
lines sound (20_memory.md R70). -/
abbrev BusIdle (s : State) : Prop :=
  s.seq = [] ∧ s.pins.outCs = true ∧ s.dev.frame = none ∧ s.dev.line = Line.sound

/-- A host command that passes every check of 60_exceptions.md R216, with the comparisons of R212 and R213. -/
abbrev Accepted (s : State) (w : BitVec 52) : Prop :=
  let op := (cmdOp w).toNat
  let addr := (cmdAddr w).toNat
  let len := (cmdLen w).toNat
  op < 8 ∧ (op ≠ 0 → s.regs.inited = true) ∧
  (op = 5 ∨ op = 6 → s.params.hasArray = true ∧ len ≤ 255 ∧ addr < 4096 ∧ addr + len ≤ 4096) ∧
  (op = 1 ∨ op = 2 → addr < 4096) ∧ (op = 3 ∨ op = 4 → addr + 1 < 4096)

/-! Runs. -/

/-- `n` steps, as far as there is a next state (10_state.md R29). -/
def steps : Nat → State → Host.Outcome State Fault Refusal
  | 0, s => .next s
  | n + 1, s =>
    match step s with
    | .next t => steps n t
    | .fault e => .fault e
    | .refused r => .refused r

/-! Frames of the statements. -/

/-- A state without what the transport leaves behind, the part a frame condition of an operation says nothing of: SEQ
with its two marks (10_state.md R28), the count of free draws, the transport request and return ports, and the scratch of
the configured mode, dead between operations (10_state.md R22). Bit-bang mode: SHIFT, RXACC, BITCNT and OUT.MOSI
(40_transport.md R131, R136). Controller mode: TXBUF, RXBUF, RXRDY and POLLCNT (R140, R141, R144, R150). Everything else
is kept, the other mode's registers too. -/
def visible (s : State) : State :=
  { s with
    seq := [], bracketWrite := false, tierLow := false, draws := 0
    regs := { s.regs with
      treq := 0, tret := 0
      shift := if s.params.mode = .bitbang then 0 else s.regs.shift
      rxacc := if s.params.mode = .bitbang then 0 else s.regs.rxacc
      bitcnt := if s.params.mode = .bitbang then 0 else s.regs.bitcnt
      pollcnt := if s.params.mode = .controller then 0 else s.regs.pollcnt }
    pins := { s.pins with outMosi := if s.params.mode = .bitbang then false else s.pins.outMosi }
    ctl := { s.ctl with
      txbuf := if s.params.mode = .controller then 0 else s.ctl.txbuf
      rxbuf := if s.params.mode = .controller then 0 else s.ctl.rxbuf
      rxrdy := if s.params.mode = .controller then false else s.ctl.rxrdy } }

/-- The framer's registers after a host operation that answered OK: the latches of 10_state.md R30, STATUS and the
response port (30_encoding.md R113). -/
def doneRegs (r : Regs) (op : BitVec 4) (addr data len rdata : Half) : Regs :=
  { r with
    op := op, addr := addr, wdata := data, len := lo8 len
    status := Status.ok.code, rspStatus := Status.ok.code, rspData := rdata }

/-- What an operation has done that is abandoned at the first poll of its first bracket, before the bracket opened:
ERASE_ALL has loaded its first address (43_erase_and_init.md R200). -/
def firstRegs (op : BitVec 4) (r : Regs) : Regs :=
  if op = 0x7#4 then { r with era := 0, addr := 0, wdata := joinHL (hi8 r.wdata) Config.eraseFill } else r

/-- Its events before the bracket: the pins of INIT (43_erase_and_init.md R203), the tier call of an array operation (42
R190, R193). INIT makes no other before its bracket in controller mode. -/
def firstTrace (p : Params) (op : BitVec 4) : List Event :=
  if op = 0x0#4 then [.dir .cs .output, .drive .cs true]
  else if (op = 0x5#4 ∨ op = 0x6#4) ∧ p.hasThrottle = true then [.clockTier p.tierLow] else []

/-- The tier call that undoes it (60_exceptions.md R218, T2). -/
def lastTrace (p : Params) (op : BitVec 4) : List Event :=
  if (op = 0x5#4 ∨ op = 0x6#4) ∧ p.hasThrottle = true then [.clockTier p.tierHigh] else []

/-- The state after a command that a check refuses: the latches, STATUS and the response, two host events, and nothing
else: no boundary event, no pin, device or buffer touched (60_exceptions.md R218 a; 10_state.md R30). -/
def refusedWith (st : Status) (op : BitVec 4) (addr data len : Half) (s : State) : State :=
  { s with
    regs := { s.regs with
      op := op, addr := addr, wdata := data, status := st.code, rspStatus := st.code, rspData := 0 }
    trace := .rsp st.code 0 :: .cmd op addr data len :: s.trace }

/-! The invariant. -/

/-- The data a write cycle holds lies inside the store (20_memory.md R72, R79). -/
def PendingInRange (d : Dev) : Prop :=
  ∀ p, d.pending = some p → p.addr + p.data.length ≤ Config.capacity

/-- A frame that is open is not past a byte, has a reply for each byte, and has reached no address outside the store of
a device that is there (20_memory.md R70, R61). -/
def FrameInRange (d : Dev) : Prop :=
  ∀ f, d.frame = some f → f.cnt < 8 ∧ f.replies.length = f.bytes.length ∧ d.inRange f.bytes = true

/-- What every step keeps: both memories are canonical and inside their address spaces (10_state.md R43, R44), a frame
is open exactly while chip-select is low (20_memory.md R70), a write cycle runs exactly while it has data (R79), and no
frame is open during one (R80), if the device is there. -/
def Inv (s : State) : Prop :=
  Memory.wf s.dev.ee ∧ Memory.below s.dev.ee Config.capacity ∧
  Memory.wf s.buf ∧ Memory.below s.buf Config.bufSize ∧
  (s.dev.frame.isSome = true ↔ s.pins.outCs = false) ∧
  (s.dev.wip = true ↔ s.dev.pending.isSome = true) ∧
  (s.dev.frame.isSome = true → s.dev.line.present = true → s.dev.wip = false) ∧
  PendingInRange s.dev ∧ FrameInRange s.dev

/-! Traces, oldest event first, as the rules list them. -/

/-- The bits of a byte, most significant first, each put into three events. -/
def byBit (v : Byte) (f : Bool → List Event) : List Event :=
  f (v.getLsbD 7) ++ f (v.getLsbD 6) ++ f (v.getLsbD 5) ++ f (v.getLsbD 4) ++
    f (v.getLsbD 3) ++ f (v.getLsbD 2) ++ f (v.getLsbD 1) ++ f (v.getLsbD 0)

/-- send_byte: 24 events of bit-bang mode (40_transport.md R131), 2 of controller mode (R140). -/
def sendTrace (p : Params) (v : Byte) : List Event :=
  match p.mode with
  | .bitbang => byBit v (fun b => [.drive .mosi b, .drive .sck true, .drive .sck false])
  | .controller => [.poll .txrdy, .regWrite v]

/-- receive_byte that returns `r`: 24 events of bit-bang mode (40_transport.md R136), 3 of controller mode (R141). -/
def recvTrace (p : Params) (r : Byte) : List Event :=
  match p.mode, p.samplePoint with
  | .bitbang, .afterPulse => byBit r (fun b => [.drive .sck true, .drive .sck false, .sample b])
  | .bitbang, .whileHigh => byBit r (fun b => [.drive .sck true, .sample b, .drive .sck false])
  | .controller, _ => [.regWrite Config.dummy, .poll .rxrdy, .regRead r]

/-- Several bytes sent. -/
def sendAllTrace (p : Params) : List Byte → List Event
  | [] => []
  | v :: vs => sendTrace p v ++ sendAllTrace p vs

/-- Several bytes received. -/
def recvAllTrace (p : Params) : List Byte → List Event
  | [] => []
  | r :: rs => recvTrace p r ++ recvAllTrace p rs

/-- wren_pulse() (41_command_framer.md R171). -/
def wrenTrace (p : Params) : List Event := [.drive .cs false] ++ sendTrace p Config.opcWren ++ [.drive .cs true]

/-- A READ frame at `a` that gives the bytes `rs` (41_command_framer.md R172, P0 to P4; 42 R193, B1 to B5). -/
def readTrace (p : Params) (a : Half) (rs : List Byte) : List Event :=
  [.drive .cs false] ++ sendAllTrace p [Config.opcRead, hi8 a, lo8 a] ++ recvAllTrace p rs ++ [.drive .cs true]

/-- A write of the bytes `ds` at `a`: the enable bracket, the WRITE bracket, the settle wait (41 R173, P0 to P8; 42 R190,
A1 to A9). -/
def writeTrace (p : Params) (a : Half) (ds : List Byte) : List Event :=
  wrenTrace p ++ [.drive .cs false] ++ sendAllTrace p (Config.opcWrite :: hi8 a :: lo8 a :: ds) ++
    [.drive .cs true, .wait]

/-- The tier calls around an array operation, only if HAS_THROTTLE (42 R190, R193). -/
def throttled (p : Params) (t : List Event) : List Event :=
  if p.hasThrottle then [.clockTier p.tierLow] ++ t ++ [.clockTier p.tierHigh] else t

/-- init's events (43_erase_and_init.md R203). -/
def initTrace (p : Params) : List Event :=
  [.dir .cs .output, .drive .cs true] ++
    (match p.mode with
      | .bitbang => [.dir .sck .output, .drive .sck false, .dir .mosi .output, .dir .miso .input]
      | .controller => []) ++ wrenTrace p

/-- erase_all's events for the `n` addresses from `a` on (43_erase_and_init.md R200). -/
def eraseTrace (p : Params) : Nat → Nat → List Event
  | _, 0 => []
  | a, n + 1 => writeTrace p (BitVec.ofNat 16 a) [Config.eraseFill] ++ eraseTrace p (a + 1) n

/-- What erase_all puts on the wire for the `n` addresses from `a` on, frame by frame (43_erase_and_init.md R200). -/
def eraseOuts : Nat → Nat → List (List Byte)
  | _, 0 => []
  | a, n + 1 =>
    [Config.opcWren] :: [Config.opcWrite, hi8 (BitVec.ofNat 16 a), lo8 (BitVec.ofNat 16 a), Config.eraseFill] ::
      eraseOuts (a + 1) n

/-- The trace after a host operation that made the events `t`: the command, the events, the response. -/
def opTrace (op : BitVec 4) (addr data len : Half) (t : List Event) (st : Status) (rdata : Half)
    (before : List Event) : List Event :=
  .rsp st.code rdata :: (t.reverse ++ .cmd op addr data len :: before)

/-- What the device sees on data-out during a receive (20_memory.md R83; 30_encoding.md R109): 0xFF in controller
mode, eight copies of the last bit sent, bit 0 of the low address byte, in bit-bang mode. -/
def dummySeen (p : Params) (a : Half) : Byte :=
  match p.mode with
  | .bitbang => if (lo8 a).getLsbD 0 then 0xFF else 0x00
  | .controller => Config.dummy

/-- `n` bytes of the device store from address `a` on. -/
def eeBytes (s : State) (a : Nat) : Nat → List Byte
  | 0 => []
  | n + 1 => eeRead s a :: eeBytes s (a + 1) n

/-- The bytes `vs` are those BUF gives from entry `k` on: an entry nothing has written gives any byte (10_state.md
R44). -/
def BufGives (m : Memory) (k : Nat) (vs : List Byte) : Prop :=
  ∀ i v, i < vs.length → Memory.read m (k + i) = some v → vs[i]? = some v

/-- A WRITE of the bytes `ds` from `a` on has taken effect between `s` and `t`: the store has them and is otherwise as it
was, the latch and WIP are clear, the bus is as it was (20_memory.md R72, R77, R79). -/
def Committed (s t : State) (a : Nat) (ds : List Byte) : Prop :=
  t.dev.wel = false ∧ t.dev.wip = false ∧ t.dev.pending = none ∧ t.dev.frame = none ∧
  t.dev.line = s.dev.line ∧
  ∀ b, eeRead t b = if a ≤ b ∧ b < a + ds.length then (ds[b - a]?).getD 0 else eeRead s b

end Sys2Proof.Machine
end

