-- ==== Sys2Proof/Certificates/Slice0/Obligations.lean ====
section
/-! DEFINITION. The statements for the provers, grouped as the spec's files: encodings, steps and reset, checks,
operations, wire commands, transport, faults and timeouts, invariants, round trips. -/

open Sys2Proof Sys2Proof.Machine

/-! Encodings (30_encoding.md). -/

/-- Decoding an encoded instruction gives it back, with every operand at every value (30_encoding.md R102 to R104,
R111, R112, R114). -/
def Obligations.DecodeOfEncode : Prop := ∀ i : Instr, decode (encode i) = .ok i

/-- What decodes is the encoding of what it decodes to: no instruction has two encodings, no bit of one is dropped. -/
def Obligations.EncodeOfDecode : Prop := ∀ (im : Image) (i : Instr), decode im = .ok i → encode i = im

/-- The wire commands are WREN, one byte, and WRITE and READ, three bytes and any number of data bytes; no other frame
is one (30_encoding.md R101 to R104, R115, R118). -/
def Obligations.WireCommandSet : Prop :=
  ∀ bytes : List Byte, (∃ i, decodeFrame bytes = .ok i) ↔
    bytes = [0x06#8] ∨ ∃ o ah al ds, (o = 0x02#8 ∨ o = 0x03#8) ∧ bytes = o :: ah :: al :: ds

/-- A few words of the tables and what they stand for: the wire examples of 30_encoding.md R102 to R104, host words of
R111 and R112, transport words of R114. -/
def Obligations.DecodesWords : Prop :=
  decode (.frame [0x06#8]) = .ok .wren ∧
  decode (.frame [0x02#8, 0x0A#8, 0xBC#8, 0x5A#8]) = .ok (.write 0x0ABC#16 [0x5A#8]) ∧
  decode (.frame [0x03#8, 0x01#8, 0x23#8, 0xFF#8]) = .ok (.read 0x0123#16 [0xFF#8]) ∧
  decode (.cmd 0x0000000000000#52) = .ok (.init 0 0 0) ∧
  decode (.cmd 0x2001000AB0000#52) = .ok (.writeByte 0x0010#16 0x00AB#16 0) ∧
  decode (.cmd 0x5002000000003#52) = .ok (.readArray 0x0020#16 0 3) ∧
  decode (.cmd 0xD000000000000#52) = .ok (.reservedHost 5#3 0 0 0) ∧
  decode (.micro 0x00006#18) = .ok (.sendByte 0x0006#16) ∧
  decode (.micro 0x10ABC#18) = .ok (.sendWord 0x0ABC#16) ∧
  decode (.micro 0x20000#18) = .ok (.receiveByte 0)

/-! Steps and reset (10_state.md, 70_reset_and_hazards.md). -/

/-- A step of an idle block runs the instruction presented to it: the image at the head of the inbox is taken, and
exec of what it decodes to is the step (10_state.md R30). That the request instr runs the whole instruction in one step is
the model's choice, log 11 (R29 has one boundary event a step: EventByEvent); the inbox is the model's too, log 16. -/
def Obligations.StepRunsDecodedInstruction : Prop :=
  ∀ (s : State) (im : Image) (i : Instr) (rest : List Request), s.seq = [] → s.inbox = .instr im :: rest →
    decode im = .ok i → step s = exec i (s.setInbox rest)

/-- The steps of a running operation are its events. A step makes one boundary or host event (10_state.md R29), with two
exceptions that make none: the step of a held framer, at the settle wait under O-SETTLE or at a poll without a budget,
which leaves SEQ and the trace, and the step of a poll whose budget runs out with chip-select high, whose exit begins
without a T0 (60_exceptions.md R218). And an instruction that is started and then stepped comes to exactly what exec
answers for it, a fault or a refusal included. The model's choices: that one request starts an instruction and another
runs it whole, logs 11 and 16; how a hold steps, logs 13 and 14; that T0 is made in the step in which the budget runs out,
log 30. -/
def Obligations.EventByEvent : Prop :=
  (∀ (s t : State) (m : Micro) (rest : List Micro), s.seq = m :: rest → (∀ u, m ≠ .reg u) → step s = .next t →
    (∃ e, t.trace = e :: s.trace) ∨
      (t.trace = s.trace ∧ t.seq = s.seq ∧
        ((m = .ev .wait ∧ s.params.oSettle = true) ∨ ∃ f, m = .poll f ∧ s.params.pollBudget = none)) ∨
      (t.trace = s.trace ∧ s.pins.outCs = true ∧ t.regs.status = 3 ∧
        ∃ f, m = .poll f ∧ s.params.pollBudget ≠ none)) ∧
  (∀ (s : State) (im : Image) (rest : List Request), s.seq = [] → s.inbox = .start im :: rest →
    ∃ n, steps n s = step { s with inbox := .instr im :: rest })

/-- While an operation runs the host has no move: what it would present changes nothing of what the step does
(10_state.md R30). The inbox is the model's choice, log 16. -/
def Obligations.HostHasNoMoveWhileBusy : Prop :=
  ∀ (s : State) (q : List Request), s.seq ≠ [] →
    step (s.setInbox q) =
      match step s with
      | .next t => .next (t.setInbox q)
      | .fault e => .fault e
      | .refused r => .refused r

/-- The reset values 10_state.md R50 gives, for every choice of the parameters, and the store kept when the block is
reset again: SEQ IDLE and busy 0, INITED 0, TXRDY 1, RXRDY 0, the controller idle and empty, WIP 0, no frame,
chip-select not asserted. TXRDY = 1 is marked by the spec as its own general knowledge; that a reset is a request, and
what else it keeps, is the model's choice, log 29. -/
def Obligations.ResetValues : Prop :=
  (∀ p : Params, (State.resetWith p).seq = [] ∧ (State.resetWith p).busy = false ∧
    (State.resetWith p).regs.inited = false ∧ (State.resetWith p).ctl.txrdy = true ∧
    (State.resetWith p).ctl.rxrdy = false ∧ (State.resetWith p).ctl.txfull = false ∧
    (State.resetWith p).ctl.srBusy = false ∧ (State.resetWith p).dev.wip = false ∧
    (State.resetWith p).dev.frame = none ∧ (State.resetWith p).pins.outCs = true) ∧
  (∀ (s : State) (rest : List Request), s.seq = [] → s.inbox = .reset :: rest →
    ∃ t, step s = .next t ∧ t.params = s.params ∧ t.inbox = rest ∧ t.seq = [] ∧ t.busy = false ∧
      t.regs.inited = false ∧ t.ctl.txrdy = true ∧ t.ctl.rxrdy = false ∧ t.ctl.txfull = false ∧ t.ctl.srBusy = false ∧
      t.dev.wip = false ∧ t.dev.frame = none ∧ t.pins.outCs = true ∧ ∀ a, eeRead t a = eeRead s a)

/-- The host writes a byte of the buffer it owns while SEQ is IDLE, and nothing else changes (10_state.md R44). The
write comes from the inbox: the model's choice, log 16. -/
def Obligations.HostWritesBuffer : Prop :=
  ∀ (s : State) (i v : Byte) (rest : List Request), s.seq = [] → s.inbox = .bufWrite i v :: rest →
    ∃ t, step s = .next t ∧ t = { s with inbox := rest, buf := t.buf } ∧
      ∀ j, Memory.read t.buf j = if j = i.toNat then some v else Memory.read s.buf j

/-- Commit, the device's own step: enabled when WIP = 1, it writes every pending byte, then clears WEL and WIP;
nothing else changes (20_memory.md R79, R77). The move comes from the inbox: the model's choice, log 16. -/
def Obligations.CommitWritesPending : Prop :=
  ∀ (s : State) (p : Pending) (rest : List Request), s.seq = [] → s.inbox = .env [.commit] :: rest →
    s.dev.wip = true → s.dev.pending = some p →
    ∃ t, step s = .next t ∧ t = { s with inbox := rest, dev := t.dev } ∧ t.dev.wel = false ∧ t.dev.wip = false ∧
      t.dev.frame = s.dev.frame ∧ t.dev.line = s.dev.line ∧
      ∀ a, eeRead t a =
        if p.addr ≤ a ∧ a < p.addr + p.data.length then (p.data[a - p.addr]?).getD 0 else eeRead s a

/-! Checks at operation start (60_exceptions.md R216). -/

/-- Check 1: the reserved codes 0x8 to 0xF, and the array codes when HAS_ARRAY is false, end with IllegalOperation and
do nothing else, initialised or not, whatever the fields hold (30_encoding.md R116; 60_exceptions.md R216, R218 a). -/
def Obligations.ReservedCodesAreIllegal : Prop :=
  ∀ (s : State) (addr data len : Half), s.seq = [] →
    (∀ k : BitVec 3, exec (.reservedHost k addr data len) s =
      .next (refusedWith .illegalOperation (1#1 ++ k) addr data len s)) ∧
    (s.params.hasArray = false →
      exec (.readArray addr data len) s = .next (refusedWith .illegalOperation 0x5#4 addr data len s) ∧
      exec (.writeArray addr data len) s = .next (refusedWith .illegalOperation 0x6#4 addr data len s))

/-- Check 2: with INITED = 0 every operation but INIT ends with NotInitialised and does nothing else, whatever its
fields hold (60_exceptions.md R216, R218 a; 70_reset_and_hazards.md R251). -/
def Obligations.NotInitialisedBeforeInit : Prop :=
  ∀ (s : State) (addr data len : Half), s.seq = [] → s.regs.inited = false →
    exec (.readByte addr data len) s = .next (refusedWith .notInitialised 0x1#4 addr data len s) ∧
    exec (.writeByte addr data len) s = .next (refusedWith .notInitialised 0x2#4 addr data len s) ∧
    exec (.readWord addr data len) s = .next (refusedWith .notInitialised 0x3#4 addr data len s) ∧
    exec (.writeWord addr data len) s = .next (refusedWith .notInitialised 0x4#4 addr data len s) ∧
    exec (.eraseAll addr data len) s = .next (refusedWith .notInitialised 0x7#4 addr data len s) ∧
    (s.params.hasArray = true →
      exec (.readArray addr data len) s = .next (refusedWith .notInitialised 0x5#4 addr data len s) ∧
      exec (.writeArray addr data len) s = .next (refusedWith .notInitialised 0x6#4 addr data len s))

/-- Check 3: an array operation of 256 bytes or more ends with InvalidLength and does nothing else, whatever its
address (60_exceptions.md R213, R216, R218 a). -/
def Obligations.LongArraysAreInvalid : Prop :=
  ∀ (s : State) (addr data len : Half), s.seq = [] → s.regs.inited = true → s.params.hasArray = true →
    256 ≤ len.toNat →
    exec (.readArray addr data len) s = .next (refusedWith .invalidLength 0x5#4 addr data len s) ∧
    exec (.writeArray addr data len) s = .next (refusedWith .invalidLength 0x6#4 addr data len s)

/-- Check 4: an address out of range, by the comparisons in natural numbers of 60_exceptions.md R212, ends with
InvalidAddress and does nothing else (R216, R218 a). -/
def Obligations.BadAddressesAreInvalid : Prop :=
  ∀ (s : State) (addr data len : Half), s.seq = [] → s.regs.inited = true →
    (4096 ≤ addr.toNat →
      exec (.readByte addr data len) s = .next (refusedWith .invalidAddress 0x1#4 addr data len s) ∧
      exec (.writeByte addr data len) s = .next (refusedWith .invalidAddress 0x2#4 addr data len s)) ∧
    (4096 ≤ addr.toNat + 1 →
      exec (.readWord addr data len) s = .next (refusedWith .invalidAddress 0x3#4 addr data len s) ∧
      exec (.writeWord addr data len) s = .next (refusedWith .invalidAddress 0x4#4 addr data len s)) ∧
    (s.params.hasArray = true → len.toNat ≤ 255 → 4096 ≤ addr.toNat ∨ 4096 < addr.toNat + len.toNat →
      exec (.readArray addr data len) s = .next (refusedWith .invalidAddress 0x5#4 addr data len s) ∧
      exec (.writeArray addr data len) s = .next (refusedWith .invalidAddress 0x6#4 addr data len s))

/-- The checks at operation start, whole: in the order of 60_exceptions.md R216 the first that fails gives the result
(R212 for the last), with nothing else done (R218 a); when none fails the operation runs, its latches are OP and LEN,
and a next state has the status OK or DeviceTimeout, no check's. That STATUS is OK in a state held at a poll is the
model's choice, log 28, and that such a state is a next state is log 14. -/
def Obligations.ChecksInOrder : Prop :=
  ∀ (s : State) (w : BitVec 52), s.seq = [] →
    let op := (cmdOp w).toNat
    let addr := (cmdAddr w).toNat
    let len := (cmdLen w).toNat
    let array := op = 5 ∨ op = 6
    let ends := fun st : Status =>
      exec (decodeCmd w) s = .next (refusedWith st (cmdOp w) (cmdAddr w) (cmdData w) (cmdLen w) s)
    if 8 ≤ op ∨ (array ∧ s.params.hasArray = false) then ends .illegalOperation
    else if op ≠ 0 ∧ s.regs.inited = false then ends .notInitialised
    else if array ∧ 255 < len then ends .invalidLength
    else if ((op = 1 ∨ op = 2) ∧ 4096 ≤ addr) ∨ ((op = 3 ∨ op = 4) ∧ 4096 ≤ addr + 1) ∨
        (array ∧ (4096 ≤ addr ∨ 4096 < addr + len)) then ends .invalidAddress
    else ∀ t, exec (decodeCmd w) s = .next t →
      (t.regs.status = 0 ∨ t.regs.status = 3) ∧ t.regs.op = cmdOp w ∧ t.regs.len = lo8 (cmdLen w)

/-! Operations. In each the frame condition is the equation of visible states: what the right side does not change is
unchanged. -/

/-- INIT from any idle lines: the pins, the enable pulse, INITED (43_erase_and_init.md R203; 10_state.md R51, R52). -/
def Obligations.InitCompletes : Prop :=
  ∀ (s : State) (addr data len : Half), s.seq = [] → s.sched = [] → s.pins.outCs = true → s.dev.frame = none →
    s.dev.wip = false → s.dev.line = Line.sound →
    (s.params.mode = .controller →
      s.params.ctrlAtomic = true ∧ s.ctl.live = true ∧ s.ctl.txrdy = true ∧ s.params.pollBudget ≠ some 0) →
    ∃ t r, exec (.init addr data len) s = .next t ∧ Ready t ∧
      visible t = visible { s with
        regs := { doneRegs s.regs 0x0#4 addr data len 0 with inited := true }
        pins := match s.params.mode with
          | .bitbang => {
              dirCs := .output, dirSck := .output, dirMosi := .output, dirMiso := .input
              outCs := true, outSck := false, outMosi := false }
          | .controller => { s.pins with dirCs := .output, outCs := true }
        dev := { s.dev with wel := true }
        frames := ⟨[0x06#8], [r], []⟩ :: s.frames
        trace := opTrace 0x0#4 addr data len (initTrace s.params) .ok 0 s.trace } ∧
      (s.params.mode = .bitbang → t.pins.outMosi = false)

/-- READ_BYTE returns the byte stored at the address: one READ frame, its events, nothing else changed
(41_command_framer.md R172). -/
def Obligations.ReadByteCompletes : Prop :=
  ∀ (s : State) (addr data len : Half), Ready s → addr.toNat < 4096 →
    ∃ t r0 r1 r2, exec (.readByte addr data len) s = .next t ∧ t.seq = [] ∧
      visible t = visible { s with
        regs := { doneRegs s.regs 0x1#4 addr data len (zext16 (eeRead s addr.toNat)) with
          rdata := joinHL (hi8 s.regs.rdata) (eeRead s addr.toNat) }
        frames := ⟨[0x03#8, hi8 addr, lo8 addr, dummySeen s.params addr],
          [r0, r1, r2, eeRead s addr.toNat], [eeRead s addr.toNat]⟩ :: s.frames
        trace := opTrace 0x1#4 addr data len (readTrace s.params addr [eeRead s addr.toNat]) .ok
          (zext16 (eeRead s addr.toNat)) s.trace }

/-- READ_WORD returns the two bytes at the address and the next, the first high: two READ frames, ADDR stepped,
nothing else changed (41_command_framer.md R176). -/
def Obligations.ReadWordCompletes : Prop :=
  ∀ (s : State) (addr data len : Half), Ready s → addr.toNat + 1 < 4096 →
    ∃ t r0 r1 r2 q0 q1 q2, exec (.readWord addr data len) s = .next t ∧ t.seq = [] ∧
      visible t = visible { s with
        regs := { doneRegs s.regs 0x3#4 (addr + 1) data len
            (joinHL (eeRead s addr.toNat) (eeRead s (addr.toNat + 1))) with
          rdata := joinHL (eeRead s addr.toNat) (eeRead s (addr.toNat + 1)) }
        frames :=
          ⟨[0x03#8, hi8 (addr + 1), lo8 (addr + 1), dummySeen s.params (addr + 1)],
            [q0, q1, q2, eeRead s (addr.toNat + 1)], [eeRead s (addr.toNat + 1)]⟩ ::
          ⟨[0x03#8, hi8 addr, lo8 addr, dummySeen s.params addr],
            [r0, r1, r2, eeRead s addr.toNat], [eeRead s addr.toNat]⟩ :: s.frames
        trace := opTrace 0x3#4 addr data len
          (readTrace s.params addr [eeRead s addr.toNat] ++
            readTrace s.params (addr + 1) [eeRead s (addr.toNat + 1)]) .ok
          (joinHL (eeRead s addr.toNat) (eeRead s (addr.toNat + 1))) s.trace }

/-- READ_ARRAY fills BUF[0 .. len-1] from the store, for every length 0 .. 255: one READ frame inside the tier calls,
every other entry of BUF and everything else unchanged (42_array_operations.md R193, R194). IDX = LEN after the loop is the
model's choice, log 31. -/
def Obligations.ReadArrayCompletes : Prop :=
  ∀ (s : State) (addr data len : Half), Ready s → s.params.hasArray = true → len.toNat ≤ 255 → addr.toNat < 4096 →
    addr.toNat + len.toNat ≤ 4096 →
    ∃ t r0 r1 r2, exec (.readArray addr data len) s = .next t ∧ t.seq = [] ∧
      visible t = visible { s with
        regs := { doneRegs s.regs 0x5#4 addr data len 0 with idx := lo8 len }
        tier := if s.params.hasThrottle then s.params.tierHigh else s.tier
        buf := t.buf
        frames := ⟨0x03#8 :: hi8 addr :: lo8 addr :: List.replicate len.toNat (dummySeen s.params addr),
          r0 :: r1 :: r2 :: eeBytes s addr.toNat len.toNat, eeBytes s addr.toNat len.toNat⟩ :: s.frames
        trace := opTrace 0x5#4 addr data len
          (throttled s.params (readTrace s.params addr (eeBytes s addr.toNat len.toNat))) .ok 0 s.trace } ∧
      ∀ i, Memory.read t.buf i =
        if i < len.toNat then some (eeRead s (addr.toNat + i)) else Memory.read s.buf i

/-- WRITE_BYTE under O-SETTLE: the byte is stored, every other cell is unchanged, the latch and WIP are clear; the two
brackets and the settle wait, nothing else changed (41_command_framer.md R173; 70 R262). -/
def Obligations.WriteByteCompletes : Prop :=
  ∀ (s : State) (addr data len : Half), Ready s → s.params.oSettle = true → addr.toNat < 4096 →
    ∃ t r rs, exec (.writeByte addr data len) s = .next t ∧ t.seq = [] ∧ rs.length = 4 ∧
      visible t = visible { s with
        regs := { doneRegs s.regs 0x2#4 addr data len 0 with waitcnt := 0 }
        dev := t.dev
        frames := ⟨[0x02#8, hi8 addr, lo8 addr, lo8 data], rs, []⟩ :: ⟨[0x06#8], [r], []⟩ :: s.frames
        trace := opTrace 0x2#4 addr data len (writeTrace s.params addr [lo8 data]) .ok 0 s.trace } ∧
      Committed s t addr.toNat [lo8 data]

/-- WRITE_WORD under O-SETTLE: the high byte at the address, the low byte at the next, every other cell unchanged;
each half with its own enable pulse and settle wait, ADDR stepped (41_command_framer.md R177). -/
def Obligations.WriteWordCompletes : Prop :=
  ∀ (s : State) (addr data len : Half), Ready s → s.params.oSettle = true → addr.toNat + 1 < 4096 →
    ∃ t r rs q qs, exec (.writeWord addr data len) s = .next t ∧ t.seq = [] ∧ rs.length = 4 ∧ qs.length = 4 ∧
      visible t = visible { s with
        regs := { doneRegs s.regs 0x4#4 (addr + 1) data len 0 with waitcnt := 0 }
        dev := t.dev
        frames :=
          ⟨[0x02#8, hi8 (addr + 1), lo8 (addr + 1), lo8 data], qs, []⟩ :: ⟨[0x06#8], [q], []⟩ ::
          ⟨[0x02#8, hi8 addr, lo8 addr, hi8 data], rs, []⟩ :: ⟨[0x06#8], [r], []⟩ :: s.frames
        trace := opTrace 0x4#4 addr data len
          (writeTrace s.params addr [hi8 data] ++ writeTrace s.params (addr + 1) [lo8 data]) .ok 0 s.trace } ∧
      Committed s t addr.toNat [hi8 data, lo8 data]

/-- WRITE_ARRAY of 1 to 255 bytes under O-SETTLE: the bytes of BUF, any value for an entry nothing has written, are
stored from the address on, every other cell is unchanged; one enable pulse, one WRITE frame, one settle wait, inside
the tier calls; BUF and ADDR unchanged (42_array_operations.md R190; 10_state.md R44). IDX = LEN after the loop is the
model's choice, log 31. -/
def Obligations.WriteArrayCompletes : Prop :=
  ∀ (s : State) (addr data len : Half), Ready s → s.params.oSettle = true → s.params.hasArray = true →
    0 < len.toNat → len.toNat ≤ 255 → addr.toNat + len.toNat ≤ 4096 →
    ∃ t r rs vs, exec (.writeArray addr data len) s = .next t ∧ t.seq = [] ∧
      vs.length = len.toNat ∧ BufGives s.buf 0 vs ∧
      visible t = visible { s with
        regs := { doneRegs s.regs 0x6#4 addr data len 0 with idx := lo8 len, waitcnt := 0 }
        tier := if s.params.hasThrottle then s.params.tierHigh else s.tier
        dev := t.dev
        frames := ⟨0x02#8 :: hi8 addr :: lo8 addr :: vs, rs, []⟩ :: ⟨[0x06#8], [r], []⟩ :: s.frames
        trace := opTrace 0x6#4 addr data len (throttled s.params (writeTrace s.params addr vs)) .ok 0 s.trace } ∧
      Committed s t addr.toNat vs

/-- WRITE_ARRAY of length 0: the tier calls, the enable pulse, a WRITE frame with no data and the settle wait are
made, the store is unchanged, no write cycle starts, the latch is left open (42_array_operations.md R194; 20_memory.md
R81). IDX = 0 after a loop of no turns is the model's choice, log 31. -/
def Obligations.WriteArrayOfNothing : Prop :=
  ∀ (s : State) (addr data len : Half), Ready s → s.params.hasArray = true → len = 0 → addr.toNat < 4096 →
    ∃ t r rs w, exec (.writeArray addr data len) s = .next t ∧ t.seq = [] ∧
      visible t = visible { s with
        regs := { doneRegs s.regs 0x6#4 addr data 0 0 with idx := 0, waitcnt := 0 }
        tier := if s.params.hasThrottle then s.params.tierHigh else s.tier
        dev := { s.dev with wel := w }
        frames := ⟨[0x02#8, hi8 addr, lo8 addr], rs, []⟩ :: ⟨[0x06#8], [r], []⟩ :: s.frames
        trace := opTrace 0x6#4 addr data 0 (throttled s.params (writeTrace s.params addr [])) .ok 0 s.trace }

/-- ERASE_ALL under O-SETTLE: every cell is 0x00, by 4096 whole write_byte sequences at ascending addresses; nothing
else changed (43_erase_and_init.md R200). -/
def Obligations.EraseAllCompletes : Prop :=
  ∀ (s : State) (addr data len : Half), Ready s → s.params.oSettle = true →
    ∃ t fs, exec (.eraseAll addr data len) s = .next t ∧ t.seq = [] ∧
      fs.reverse.map (fun f => f.out) = eraseOuts 0 4096 ∧
      visible t = visible { s with
        regs := { doneRegs s.regs 0x7#4 4095 (joinHL (hi8 data) 0x00#8) len 0 with era := 4096, waitcnt := 0 }
        dev := t.dev
        frames := fs ++ s.frames
        trace := opTrace 0x7#4 addr data len (eraseTrace s.params 0 4096) .ok 0 s.trace } ∧
      Committed s t 0 (List.replicate 4096 0x00#8)

/-- Without O-SETTLE the settle wait is always enabled: WRITE_BYTE, and WRITE_ARRAY of 1 to 255 bytes with its tier
calls, answer OK with the write cycle still running and the store unchanged; a second bracket opened then, as WRITE_WORD
and ERASE_ALL open one, is the fault DeviceBusyAccess (70_reset_and_hazards.md R262; 20_memory.md R79, R80; 42 R190). IDX
= LEN after the loop is the model's choice, log 31. -/
def Obligations.WritesWithoutSettle : Prop :=
  ∀ (s : State) (addr data len : Half), Ready s → s.params.oSettle = false →
    (addr.toNat < 4096 →
      ∃ t r rs, exec (.writeByte addr data len) s = .next t ∧ t.seq = [] ∧ rs.length = 4 ∧
        visible t = visible { s with
          regs := { doneRegs s.regs 0x2#4 addr data len 0 with waitcnt := 0 }
          dev := { s.dev with
            wel := true, wip := true, pending := some { addr := addr.toNat, data := [lo8 data] } }
          frames := ⟨[0x02#8, hi8 addr, lo8 addr, lo8 data], rs, []⟩ :: ⟨[0x06#8], [r], []⟩ :: s.frames
          trace := opTrace 0x2#4 addr data len (writeTrace s.params addr [lo8 data]) .ok 0 s.trace }) ∧
    (s.params.hasArray = true → 0 < len.toNat → len.toNat ≤ 255 → addr.toNat + len.toNat ≤ 4096 →
      ∃ t r rs vs, exec (.writeArray addr data len) s = .next t ∧ t.seq = [] ∧
        vs.length = len.toNat ∧ BufGives s.buf 0 vs ∧
        visible t = visible { s with
          regs := { doneRegs s.regs 0x6#4 addr data len 0 with idx := lo8 len, waitcnt := 0 }
          tier := if s.params.hasThrottle then s.params.tierHigh else s.tier
          dev := { s.dev with wel := true, wip := true, pending := some { addr := addr.toNat, data := vs } }
          frames := ⟨0x02#8 :: hi8 addr :: lo8 addr :: vs, rs, []⟩ :: ⟨[0x06#8], [r], []⟩ :: s.frames
          trace := opTrace 0x6#4 addr data len (throttled s.params (writeTrace s.params addr vs)) .ok 0 s.trace }) ∧
    (addr.toNat + 1 < 4096 → exec (.writeWord addr data len) s = .fault .deviceBusyAccess) ∧
    exec (.eraseAll addr data len) s = .fault .deviceBusyAccess

/-! Wire commands (20_memory.md section 5; 30_encoding.md section 1). -/

/-- WREN sets the latch at its close, and nothing else (20_memory.md R71). The frame is applied directly to the
device: the model's choice, log 17. -/
def Obligations.WrenSetsLatch : Prop :=
  ∀ s : State, BusIdle s → s.dev.wip = false →
    ∃ r, exec .wren s = .next { s with
      dev := { s.dev with wel := true }
      draws := s.draws + 1
      frames := ⟨[0x06#8], [r], []⟩ :: s.frames }

/-- WRITE with data, closed while WEL = 1, starts the write cycle with its address and data; the store is not written
yet, nothing else changes (20_memory.md R72, R79). The frame is applied directly to the device: the model's choice,
log 17. -/
def Obligations.WriteStartsCycle : Prop :=
  ∀ (s : State) (addr : Half) (ds : List Byte), BusIdle s → s.dev.wip = false → s.dev.wel = true → ds ≠ [] →
    addr.toNat + ds.length ≤ 4096 →
    ∃ rs n, exec (.write addr ds) s = .next { s with
      dev := { s.dev with wip := true, pending := some { addr := addr.toNat, data := ds } }
      draws := n
      frames := ⟨0x02#8 :: hi8 addr :: lo8 addr :: ds, rs, []⟩ :: s.frames }

/-- WRITE with data, closed while WEL = 0, does nothing: the device ignores it without a report (20_memory.md R72,
R77). The frame is applied directly to the device: the model's choice, log 17. -/
def Obligations.WriteIgnoredWithoutLatch : Prop :=
  ∀ (s : State) (addr : Half) (ds : List Byte), BusIdle s → s.dev.wip = false → s.dev.wel = false → ds ≠ [] →
    addr.toNat + ds.length ≤ 4096 →
    ∃ rs n, exec (.write addr ds) s = .next { s with
      draws := n
      frames := ⟨0x02#8 :: hi8 addr :: lo8 addr :: ds, rs, []⟩ :: s.frames }

/-- WRITE with no data leaves the store and WIP as they are and the latch open: any value, one draw (20_memory.md
R81). The frame is applied directly to the device: the model's choice, log 17. -/
def Obligations.WriteOfNothing : Prop :=
  ∀ (s : State) (addr : Half), BusIdle s → s.dev.wip = false → addr.toNat < 4096 →
    ∃ rs n w, exec (.write addr []) s = .next { s with
      dev := { s.dev with wel := w }
      draws := n
      frames := ⟨[0x02#8, hi8 addr, lo8 addr], rs, []⟩ :: s.frames }

/-- READ gives the store's bytes from the address on, whatever the dummies, and changes nothing (20_memory.md R73,
R75). The frame is applied directly to the device: the model's choice, log 17. -/
def Obligations.ReadGivesStore : Prop :=
  ∀ (s : State) (addr : Half) (xs : List Byte), BusIdle s → s.dev.wip = false → addr.toNat < 4096 →
    addr.toNat + xs.length ≤ 4096 →
    ∃ r0 r1 r2 n, exec (.read addr xs) s = .next { s with
      draws := n
      frames := ⟨0x03#8 :: hi8 addr :: lo8 addr :: xs, r0 :: r1 :: r2 :: eeBytes s addr.toNat xs.length,
        eeBytes s addr.toNat xs.length⟩ :: s.frames }

/-- A frame that is no wire command, one that opens with 06 and goes on among them, is ignored: neither the store, nor
the latch, nor WIP changes (20_memory.md R71, R74). The frame is applied directly to the device: the model's choice,
log 17. -/
def Obligations.OtherFramesIgnored : Prop :=
  ∀ (s : State) (bytes : List Byte) (rest : List Request), BusIdle s → s.dev.wip = false →
    s.inbox = .instr (.frame bytes) :: rest → (∀ i, decodeFrame bytes ≠ .ok i) →
    ∃ rs n, step s = .next { s with inbox := rest, draws := n, frames := ⟨bytes, rs, []⟩ :: s.frames }

/-- An address at or past 4096, given or reached, is the fault DeviceAddressRange, whatever the latch (20_memory.md
R61, R72, R73), and a bracket opened during a write cycle is the fault DeviceBusyAccess (R80). The frame is applied
directly to the device, and the fault comes with the byte that reaches the address: the model's choices, logs 17 and
21. -/
def Obligations.DeviceFaults : Prop :=
  ∀ (s : State) (addr : Half) (ds : List Byte), BusIdle s →
    (s.dev.wip = false → 4096 ≤ addr.toNat ∨ 4096 < addr.toNat + ds.length →
      exec (.write addr ds) s = .fault .deviceAddressRange ∧ exec (.read addr ds) s = .fault .deviceAddressRange) ∧
    (s.dev.wip = true →
      exec .wren s = .fault .deviceBusyAccess ∧ exec (.write addr ds) s = .fault .deviceBusyAccess ∧
      exec (.read addr ds) s = .fault .deviceBusyAccess)

/-! Transport micro-operations (40_transport.md). -/

/-- SEND_BYTE in bit-bang mode: 24 events, the byte most significant bit first, SHIFT 0, BITCNT 8, OUT.MOSI the last
bit, OUT.SCK low; an open frame has the byte and the device's reply, and with no frame open the device is unchanged
(40_transport.md R131, R130). Requested while no operation runs: the model's choice, log 20. -/
def Obligations.SendByteBitbang : Prop :=
  ∀ (s : State) (tdata : Half), s.seq = [] → Linked s → s.params.mode = .bitbang →
    (∀ b rs r0 rv r n, s.dev.frame = some ⟨b, rs, 0, 0, r0, rv⟩ → replyFor s.dev b s.draws = .ok (r, n) →
      frameInRange (b ++ [lo8 tdata]) = true →
      exec (.sendByte tdata) s = .next { s with
        regs := { s.regs with treq := packMicro 0#2 tdata, shift := 0, bitcnt := 8 }
        pins := { s.pins with outMosi := tdata.getLsbD 0, outSck := false }
        dev := { s.dev with frame := some ⟨b ++ [lo8 tdata], rs ++ [r], 0, 0, r, rv⟩ }
        draws := n
        trace := (byBit (lo8 tdata) (fun b => [.drive .mosi b, .drive .sck true, .drive .sck false])).reverse ++
          s.trace }) ∧
    (s.dev.frame = none →
      exec (.sendByte tdata) s = .next { s with
        regs := { s.regs with treq := packMicro 0#2 tdata, shift := 0, bitcnt := 8 }
        pins := { s.pins with outMosi := tdata.getLsbD 0, outSck := false }
        trace := (byBit (lo8 tdata) (fun b => [.drive .mosi b, .drive .sck true, .drive .sck false])).reverse ++
          s.trace })

/-- SEND_BYTE in controller mode, reference controller: 2 events; the exchange is done inside the register write,
RXBUF has the device's reply, RXRDY and TXRDY are 1 (40_transport.md R140, R144, R150, R151). Requested while no
operation runs: the model's choice, log 20. -/
def Obligations.SendByteController : Prop :=
  ∀ (s : State) (tdata : Half), s.seq = [] → Linked s → s.params.mode = .controller →
    (∀ b rs r0 rv r n, s.dev.frame = some ⟨b, rs, 0, 0, r0, rv⟩ → replyFor s.dev b s.draws = .ok (r, n) →
      frameInRange (b ++ [lo8 tdata]) = true →
      exec (.sendByte tdata) s = .next { s with
        regs := { s.regs with treq := packMicro 0#2 tdata, pollcnt := (s.params.pollBudget).getD s.regs.pollcnt }
        ctl := { s.ctl with txbuf := lo8 tdata, rxbuf := r, rxrdy := true, txrdy := true }
        dev := { s.dev with frame := some ⟨b ++ [lo8 tdata], rs ++ [r], 0, 0, r, rv⟩ }
        draws := n
        trace := .regWrite (lo8 tdata) :: .poll .txrdy :: s.trace }) ∧
    (s.dev.frame = none →
      ∃ r n, exec (.sendByte tdata) s = .next { s with
        regs := { s.regs with treq := packMicro 0#2 tdata, pollcnt := (s.params.pollBudget).getD s.regs.pollcnt }
        ctl := { s.ctl with txbuf := lo8 tdata, rxbuf := r, rxrdy := true, txrdy := true }
        draws := n
        trace := .regWrite (lo8 tdata) :: .poll .txrdy :: s.trace })

/-- SEND_WORD, both modes: the high byte, then the low byte, nothing between them (40_transport.md R135). Requested
while no operation runs: the model's choice, log 20. -/
def Obligations.SendWordSendsTwoBytes : Prop :=
  ∀ (s : State) (tdata : Half), s.seq = [] → Linked s →
    (∀ b rs r0 rv r n r' n', s.dev.frame = some ⟨b, rs, 0, 0, r0, rv⟩ → replyFor s.dev b s.draws = .ok (r, n) →
      frameInRange (b ++ [hi8 tdata]) = true → replyFor s.dev (b ++ [hi8 tdata]) n = .ok (r', n') →
      frameInRange (b ++ [hi8 tdata] ++ [lo8 tdata]) = true →
      ∃ t, exec (.sendWord tdata) s = .next t ∧ t.seq = [] ∧ t.regs.treq = packMicro 1#2 tdata ∧
        visible t = visible { s with
          dev := { s.dev with frame := some ⟨b ++ [hi8 tdata] ++ [lo8 tdata], rs ++ [r] ++ [r'], 0, 0, r', rv⟩ }
          trace := (sendTrace s.params (hi8 tdata) ++ sendTrace s.params (lo8 tdata)).reverse ++ s.trace }) ∧
    (s.dev.frame = none →
      ∃ t, exec (.sendWord tdata) s = .next t ∧ t.seq = [] ∧ t.regs.treq = packMicro 1#2 tdata ∧
        visible t = visible { s with
          trace := (sendTrace s.params (hi8 tdata) ++ sendTrace s.params (lo8 tdata)).reverse ++ s.trace })

/-- RECEIVE_BYTE in bit-bang mode: 24 events at the configured sample point, the device's reply byte returned, most
significant bit first; data-out is not driven, so the device takes eight copies of its level; with no frame open the
bits are free and the device is unchanged (40_transport.md R136; 20_memory.md R82, R83; 10_state.md R39). A stuck data-in
line is not noticed: the byte is what it shows, 0xFF or 0x00, the device there or missing (70 R275). Requested while no
operation runs: the model's choice, log 20; how the bus goes bad, log 42. -/
def Obligations.ReceiveByteBitbang : Prop :=
  ∀ (s : State) (tdata : Half), s.seq = [] → Wired s → s.params.mode = .bitbang →
    (s.dev.line = Line.sound →
      (∀ b rs r0 rv r n, s.dev.frame = some ⟨b, rs, 0, 0, r0, rv⟩ → replyFor s.dev b s.draws = .ok (r, n) →
        frameInRange (b ++ [if s.pins.outMosi then 0xFF#8 else 0x00#8]) = true →
        exec (.receiveByte tdata) s = .next { s with
          regs := { s.regs with treq := packMicro 2#2 tdata, tret := r, rxacc := r, bitcnt := 8 }
          pins := { s.pins with outSck := false }
          dev := { s.dev with
            frame := some ⟨b ++ [if s.pins.outMosi then 0xFF#8 else 0x00#8], rs ++ [r], 0, 0, r, rv ++ [r]⟩ }
          draws := n
          trace := (recvTrace s.params r).reverse ++ s.trace }) ∧
      (s.dev.frame = none →
        ∃ r n, exec (.receiveByte tdata) s = .next { s with
          regs := { s.regs with treq := packMicro 2#2 tdata, tret := r, rxacc := r, bitcnt := 8 }
          pins := { s.pins with outSck := false }
          draws := n
          trace := (recvTrace s.params r).reverse ++ s.trace })) ∧
    (∀ (pr w : Bool) (x : Byte), s.dev.line = { present := pr, dataIn := .stuck w, dataOut := .sound } →
      x = (if w then 0xFF#8 else 0x00#8) →
      (∀ b rs r0 rv r n, s.dev.frame = some ⟨b, rs, 0, 0, r0, rv⟩ → replyFor s.dev b s.draws = .ok (r, n) →
        s.dev.inRange (b ++ [if s.pins.outMosi then 0xFF#8 else 0x00#8]) = true →
        ∃ m, exec (.receiveByte tdata) s = .next { s with
          regs := { s.regs with treq := packMicro 2#2 tdata, tret := x, rxacc := x, bitcnt := 8 }
          pins := { s.pins with outSck := false }
          dev := { s.dev with
            frame := some ⟨b ++ [if s.pins.outMosi then 0xFF#8 else 0x00#8], rs ++ [r], 0, 0, r, rv ++ [x]⟩ }
          draws := m
          trace := (recvTrace s.params x).reverse ++ s.trace }) ∧
      (s.dev.frame = none →
        ∃ m, exec (.receiveByte tdata) s = .next { s with
          regs := { s.regs with treq := packMicro 2#2 tdata, tret := x, rxacc := x, bitcnt := 8 }
          pins := { s.pins with outSck := false }
          draws := m
          trace := (recvTrace s.params x).reverse ++ s.trace }))

/-- RECEIVE_BYTE in controller mode, reference controller: 3 events; the dummy 0xFF clocks the exchange, the device's
reply is read from RXBUF and returned, which clears RXRDY (40_transport.md R141, R150). A stuck data-in line is not
noticed: the byte is what it shows, 0xFF or 0x00, the device there or missing (70 R275). Requested while no operation
runs: the model's choice, log 20; how the bus goes bad, log 42. -/
def Obligations.ReceiveByteController : Prop :=
  ∀ (s : State) (tdata : Half), s.seq = [] → Wired s → s.params.mode = .controller →
    (s.dev.line = Line.sound →
      (∀ b rs r0 rv r n, s.dev.frame = some ⟨b, rs, 0, 0, r0, rv⟩ → replyFor s.dev b s.draws = .ok (r, n) →
        frameInRange (b ++ [0xFF#8]) = true →
        exec (.receiveByte tdata) s = .next { s with
          regs := { s.regs with
            treq := packMicro 2#2 tdata, tret := r, pollcnt := (s.params.pollBudget).getD s.regs.pollcnt }
          ctl := { s.ctl with txbuf := 0xFF#8, rxbuf := r, rxrdy := false, txrdy := true }
          dev := { s.dev with frame := some ⟨b ++ [0xFF#8], rs ++ [r], 0, 0, r, rv ++ [r]⟩ }
          draws := n
          trace := .regRead r :: .poll .rxrdy :: .regWrite 0xFF#8 :: s.trace }) ∧
      (s.dev.frame = none →
        ∃ r n, exec (.receiveByte tdata) s = .next { s with
          regs := { s.regs with
            treq := packMicro 2#2 tdata, tret := r, pollcnt := (s.params.pollBudget).getD s.regs.pollcnt }
          ctl := { s.ctl with txbuf := 0xFF#8, rxbuf := r, rxrdy := false, txrdy := true }
          draws := n
          trace := .regRead r :: .poll .rxrdy :: .regWrite 0xFF#8 :: s.trace })) ∧
    (∀ (pr w : Bool) (x : Byte), s.dev.line = { present := pr, dataIn := .stuck w, dataOut := .sound } →
      x = (if w then 0xFF#8 else 0x00#8) →
      (∀ b rs r0 rv r n, s.dev.frame = some ⟨b, rs, 0, 0, r0, rv⟩ → replyFor s.dev b s.draws = .ok (r, n) →
        s.dev.inRange (b ++ [0xFF#8]) = true →
        ∃ m, exec (.receiveByte tdata) s = .next { s with
          regs := { s.regs with
            treq := packMicro 2#2 tdata, tret := x, pollcnt := (s.params.pollBudget).getD s.regs.pollcnt }
          ctl := { s.ctl with txbuf := 0xFF#8, rxbuf := x, rxrdy := false, txrdy := true }
          dev := { s.dev with frame := some ⟨b ++ [0xFF#8], rs ++ [r], 0, 0, r, rv ++ [x]⟩ }
          draws := m
          trace := .regRead x :: .poll .rxrdy :: .regWrite 0xFF#8 :: s.trace }) ∧
      (s.dev.frame = none →
        ∃ m, exec (.receiveByte tdata) s = .next { s with
          regs := { s.regs with
            treq := packMicro 2#2 tdata, tret := x, pollcnt := (s.params.pollBudget).getD s.regs.pollcnt }
          ctl := { s.ctl with txbuf := 0xFF#8, rxbuf := x, rxrdy := false, txrdy := true }
          draws := m
          trace := .regRead x :: .poll .rxrdy :: .regWrite 0xFF#8 :: s.trace }))

/-- Transport code 3 is reserved and never issued: it stops by name in every state (30_encoding.md R114; 93 U14).
Requested while no operation runs: the model's choice, log 20. -/
def Obligations.TransportCode3Refused : Prop :=
  ∀ (s : State) (tdata : Half), decode (.micro (3#2 ++ tdata)) = .ok (.reservedTransport tdata) ∧
    exec (.reservedTransport tdata) s = .refused .reservedTransportCode

/-- The asynchronous controller, nobody else moving. SEND_BYTE with TXBUF empty hands its byte over and returns without
waiting for the wire (40_transport.md R140, R152, R153). RECEIVE_BYTE on an idle controller with RXRDY 0 and no budget
waits for its own exchange: the device has the dummy 0xFF, its reply is returned and RXRDY cleared; with no frame open the
byte is free and the device unchanged (R141, R144, R153). The standalone request is the model's choice, log 20; that the
controller moves while the framer is held, log 14. -/
def Obligations.AsyncTakesByte : Prop :=
  ∀ (s : State) (tdata : Half), s.seq = [] → s.sched = [] → s.params.mode = .controller →
    s.params.ctrlAtomic = false → s.ctl.txfull = false →
    (s.params.pollBudget ≠ some 0 →
      exec (.sendByte tdata) s = .next { s with
        regs := { s.regs with treq := packMicro 0#2 tdata, pollcnt := (s.params.pollBudget).getD s.regs.pollcnt }
        ctl := { s.ctl with txbuf := lo8 tdata, txfull := true }
        trace := .regWrite (lo8 tdata) :: .poll .txrdy :: s.trace }) ∧
    (s.params.pollBudget = none → s.ctl.live = true → s.ctl.srBusy = false → s.ctl.rxrdy = false →
      s.dev.line = Line.sound →
      (∀ b rs r0 rv r n, s.dev.frame = some ⟨b, rs, 0, 0, r0, rv⟩ → replyFor s.dev b s.draws = .ok (r, n) →
        frameInRange (b ++ [0xFF#8]) = true →
        exec (.receiveByte tdata) s = .next { s with
          regs := { s.regs with treq := packMicro 2#2 tdata, tret := r }
          ctl := { s.ctl with txbuf := 0xFF#8, srOut := 0, srIn := r, srCnt := 8, rxbuf := r }
          dev := { s.dev with frame := some ⟨b ++ [0xFF#8], rs ++ [r], 0, 0, r, rv ++ [r]⟩ }
          draws := n
          trace := .regRead r :: .poll .rxrdy :: .regWrite 0xFF#8 :: s.trace }) ∧
      (s.dev.frame = none →
        ∃ r n, exec (.receiveByte tdata) s = .next { s with
          regs := { s.regs with treq := packMicro 2#2 tdata, tret := r }
          ctl := { s.ctl with txbuf := 0xFF#8, srOut := 0, srIn := r, srCnt := 8, rxbuf := r }
          draws := n
          trace := .regRead r :: .poll .rxrdy :: .regWrite 0xFF#8 :: s.trace }))

/-- Load, eight Shifts and Done of the asynchronous controller move one byte each way, as the reference controller's
exchange does: the device has TXBUF's byte, RXBUF has the device's reply, RXRDY is 1, the controller is idle
(40_transport.md R153, R154, R151). The controller's moves come from the inbox: the model's choice, log 16. -/
def Obligations.AsyncMovesByte : Prop :=
  ∀ (s : State) (b rs rv : List Byte) (r0 r : Byte) (n : Nat) (rest : List Request), s.seq = [] →
    s.inbox = .env (List.replicate 10 .controller) :: rest → s.params.mode = .controller →
    s.params.ctrlAtomic = false → s.ctl.live = true → s.ctl.txfull = true → s.ctl.srBusy = false →
    s.dev.line = Line.sound → s.dev.frame = some ⟨b, rs, 0, 0, r0, rv⟩ → replyFor s.dev b s.draws = .ok (r, n) →
    frameInRange (b ++ [s.ctl.txbuf]) = true →
    step s = .next { s with
      inbox := rest
      ctl := { s.ctl with
        txfull := false, srBusy := false, srOut := 0, srIn := r, srCnt := 8, rxbuf := r, rxrdy := true }
      dev := { s.dev with frame := some ⟨b ++ [s.ctl.txbuf], rs ++ [r], 0, 0, r, rv⟩ }
      draws := n }

/-! Faults, timeouts, blocking (60_exceptions.md; 70_reset_and_hazards.md). -/

/-- A Drive on a pin that is no output is the fault PinNotOutput: in bit-bang mode SEND_BYTE drives MOSI first
(10_state.md R37). Where the same Drive meets CsEarly, PartialByte, DeviceBusyAccess or DeviceAddressRange too, that
PinNotOutput is the fault is the model's choice, log 41; the standalone request is log 20. -/
def Obligations.DriveNeedsOutput : Prop :=
  (∀ (s : State) (p : OutPin) (v : Bool), pinDir p s = .input → perform (.drive p v) s = .error .pinNotOutput) ∧
  (∀ (s : State) (tdata : Half), s.seq = [] → s.sched = [] → s.params.mode = .bitbang → s.pins.dirMosi = .input →
    exec (.sendByte tdata) s = .fault .pinNotOutput)

/-- A bracket that closes off a byte boundary is the fault PartialByte, whatever closes it (20_memory.md R70): any
Drive(CS, 1) on an output pin, INIT's among them. With the asynchronous controller it must be idle, or the fault is
CsEarly, DriveNeedsOutput's PinNotOutput before both: the model's order, log 41. -/
def Obligations.PartialBytesFault : Prop :=
  ∀ (s : State) (f : Frame), s.pins.outCs = false → s.dev.frame = some f → f.cnt ≠ 0 →
    (s.pins.dirCs = .output → (isAsync s = true → ctlIdle s = true) →
      perform (.drive .cs true) s = .error .partialByte) ∧
    (∀ addr data len : Half, s.seq = [] → s.sched = [] → (isAsync s = true → ctlIdle s = true) →
      exec (.init addr data len) s = .fault .partialByte)

/-- The three hazards of the asynchronous controller, nobody else moving (40_transport.md R154): RECEIVE_BYTE with
TXBUF full is TxOverwrite; RECEIVE_BYTE with TXBUF empty and RXRDY still 1 from an earlier byte is StaleRx; INIT,
which raises chip-select, on a controller that is not idle is CsEarly. The model's choices: when a read is stale, log 27;
that CsEarly is the fault where the open frame is in mid-byte too and PartialByte applies, log 41; the standalone request,
log 20. -/
def Obligations.AsyncHazards : Prop :=
  ∀ (s : State) (tdata addr data len : Half), s.seq = [] → s.sched = [] → s.params.mode = .controller →
    s.params.ctrlAtomic = false → s.params.pollBudget ≠ some 0 →
    (s.ctl.txfull = true → exec (.receiveByte tdata) s = .fault .txOverwrite) ∧
    (s.ctl.txfull = false → s.ctl.rxrdy = true → exec (.receiveByte tdata) s = .fault .staleRx) ∧
    (s.ctl.txfull = true ∨ s.ctl.srBusy = true → exec (.init addr data len) s = .fault .csEarly)

/-- The poll, nobody else moving: a flag that is 1 is seen at the first attempt, POLLCNT at the budget; a flag that
stays 0 uses the whole budget, POLLCNT 0, and raises DeviceTimeout; without a budget it holds the framer, nothing
changed (40_transport.md R144). The hold as an outcome is the model's choice, log 14. -/
def Obligations.PollOutcomes : Prop :=
  ∀ (s : State) (f : Flag), s.sched = [] →
    (flagValue f s = true → s.params.pollBudget ≠ some 0 →
      attempt (.poll f) s = .went { s with
        regs := { s.regs with pollcnt := (s.params.pollBudget).getD s.regs.pollcnt }
        trace := .poll f :: s.trace }) ∧
    (∀ n, flagValue f s = false → s.params.pollBudget = some (n + 1) →
      attempt (.poll f) s = .timedOut { s with regs := { s.regs with pollcnt := 0 } } f) ∧
    (flagValue f s = false → isAsync s = false → s.params.pollBudget = none →
      attempt (.poll f) s = .held s ∧ item (.poll f) s = .held s)

/-- A dead controller with a poll budget. Every host operation that passes the checks, INIT before and after another,
is abandoned at its first poll: chip-select is raised, the clock tier restored if it was lowered, the response is
DeviceTimeout, 0, and INITED, the store and BUF are as they were. At a poll inside a WRITE bracket, whatever operation is
running, the exit waits for the settle interval too, after the device acted on what it had of the frame: T0 to T3, four
events at most (60_exceptions.md R214, R218 b; 40_transport.md R144). That the controller is dead is a state of the
machine: the model's choice, log 15. -/
def Obligations.DeadControllerTimesOut : Prop :=
  ∀ (s : State) (k : Nat), s.params.pollBudget = some (k + 1) →
    (∀ w : BitVec 52, Dead s → Accepted s w →
      ∃ t, exec (decodeCmd w) s = .next t ∧ t.seq = [] ∧ t.regs.inited = s.regs.inited ∧
        visible t = visible { s with
          regs := { firstRegs (cmdOp w) { s.regs with
              op := cmdOp w, addr := cmdAddr w, wdata := cmdData w, len := lo8 (cmdLen w) } with
            status := 3, rspStatus := 3, rspData := 0 }
          tier := if (cmdOp w = 0x5#4 ∨ cmdOp w = 0x6#4) ∧ s.params.hasThrottle = true then s.params.tierHigh else s.tier
          frames := ⟨[], [], []⟩ :: s.frames
          trace := opTrace (cmdOp w) (cmdAddr w) (cmdData w) (cmdLen w)
            (firstTrace s.params (cmdOp w) ++ [.drive .cs false, .drive .cs true] ++ lastTrace s.params (cmdOp w))
            .deviceTimeout 0 s.trace }) ∧
    (∀ (f : Flag) (rest : List Micro) (fr : Frame), s.seq = .poll f :: rest → s.sched = [] →
      s.params.mode = .controller → s.params.ctrlAtomic = true → s.ctl.live = false → s.pins.dirCs = .output →
      s.pins.outCs = false → s.bracketWrite = true → s.dev.frame = some fr → fr.cnt = 0 →
      ∃ n t, steps n s = .next t ∧ t.seq = [] ∧ t.pins = { s.pins with outCs := true } ∧
        t.regs = { s.regs with pollcnt := 0, waitcnt := 0, status := 3, rspStatus := 3, rspData := 0 } ∧
        t.dev = (if s.params.oSettle then (Dev.act fr.bytes { s.dev with frame := none } s.draws).1.commit
          else (Dev.act fr.bytes { s.dev with frame := none } s.draws).1) ∧
        t.tier = (if s.tierLow then s.params.tierHigh else s.tier) ∧ t.buf = s.buf ∧
        t.trace = .rsp 3 0 :: ((if s.tierLow then [.clockTier s.params.tierHigh] else []) ++
          .wait :: .drive .cs true :: s.trace))

/-- A dead controller without a poll budget blocks for ever: every host operation that passes the checks stops inside
its first bracket with chip-select low, SEQ at the poll, and every further step leaves the machine as it is
(70_reset_and_hazards.md R265; 40_transport.md R144). The stuck state is a next state with SEQ at the poll: the model's
choice, logs 14 and 15. -/
def Obligations.DeadControllerBlocks : Prop :=
  ∀ (s : State) (w : BitVec 52), Dead s → s.params.pollBudget = none → Accepted s w →
    ∃ t, exec (decodeCmd w) s = .next t ∧ t.busy = true ∧ t.pins.outCs = false ∧
      (∃ rest, t.seq = .poll .txrdy :: rest) ∧ step t = .next t

/-- Bit-bang mode cannot block: whenever an instruction has a next state there, whatever the state and the other
agents do, it has run to its end and SEQ is IDLE (40_transport.md R145). The model's choices: that one exec runs a whole
operation, log 11; that the one hold of this mode, the settle wait under O-SETTLE, is lifted because the device commits in
the step of the hold, log 13 (fairness, 70_reset_and_hazards.md R280). -/
def Obligations.BitbangNeverBlocks : Prop :=
  ∀ (s t : State) (i : Instr), s.params.mode = .bitbang → exec i s = .next t → t.seq = []

/-! Invariants and whole-machine rules. -/

/-- The invariant holds at reset, for every choice of the parameters. That chip-select is high and the memories list
nothing at reset are the model's choices, logs 4, 7 and 8. -/
def Obligations.InvariantAtReset : Prop := Inv State.reset ∧ ∀ p : Params, Inv (State.resetWith p)

/-- Every step keeps the invariant: memories canonical and in bounds, a frame open exactly while chip-select is low, a
write cycle exactly while it has data, no frame open during one (10_state.md R43, R44; 20_memory.md R60, R70, R79,
R80). -/
def Obligations.InvariantKept : Prop := ∀ s t : State, Inv s → step s = .next t → Inv t

/-- No parameter changes while the block runs (00_scope.md R6). -/
def Obligations.ParametersFixed : Prop := ∀ s t : State, step s = .next t → t.params = s.params

/-- INITED is never cleared except by reset (10_state.md R33). That a reset comes from the inbox and is taken between
operations only is the model's choice, logs 29 and 16. -/
def Obligations.InitedClearedOnlyByReset : Prop :=
  ∀ s t : State, step s = .next t → s.regs.inited = true →
    t.regs.inited = true ∨ (s.seq = [] ∧ ∃ rest, s.inbox = .reset :: rest)

/-- Between operations: from a ready state under O-SETTLE every host command, legal or not, ends with a response and
no fault, in a ready state again, the response being the last event (10_state.md R52; 60_exceptions.md R219, R222; 70
R282). -/
def Obligations.HostCommandsAnswered : Prop :=
  ∀ (s : State) (w : BitVec 52), Ready s → s.params.oSettle = true →
    ∃ t, exec (decodeCmd w) s = .next t ∧ Ready t ∧
      t.trace.head? = some (.rsp t.regs.rspStatus t.regs.rspData)

/-- Every frame a host command puts on the wire is a well-formed wire command, its address below 4096 (20_memory.md
R61; 30_encoding.md R101, R106, R115). -/
def Obligations.FramesAreWireCommands : Prop :=
  ∀ (s t : State) (w : BitVec 52), Ready s → s.params.oSettle = true → exec (decodeCmd w) s = .next t →
    ∃ fs, t.frames = fs ++ s.frames ∧ ∀ f ∈ fs, ∃ i, decodeFrame f.out = .ok i ∧ i.wf = true

/-! Round trips and whole sequences. -/

/-- What WRITE_BYTE writes READ_BYTE of the same address returns, and READ_BYTE of another address returns what it did
before (20_memory.md R89). -/
def Obligations.ByteRoundTrip : Prop :=
  ∀ (s : State) (a b data len data' len' : Half), Ready s → s.params.oSettle = true → a.toNat < 4096 → b.toNat < 4096 →
    ∃ t u, exec (.writeByte a data len) s = .next t ∧ exec (.readByte b data' len') t = .next u ∧
      t.regs.rspStatus = 0 ∧ u.regs.rspStatus = 0 ∧
      u.regs.rspData = zext16 (if b = a then lo8 data else eeRead s b.toNat)

/-- What WRITE_WORD writes READ_WORD returns, and the two bytes are read big-endian (20_memory.md R64, R66). -/
def Obligations.WordRoundTrip : Prop :=
  ∀ (s : State) (a v len data' len' : Half), Ready s → s.params.oSettle = true → a.toNat + 1 < 4096 →
    ∃ t u h l, exec (.writeWord a v len) s = .next t ∧ exec (.readWord a data' len') t = .next u ∧
      exec (.readByte a data' len') t = .next h ∧ exec (.readByte (a + 1) data' len') t = .next l ∧
      u.regs.rspData = v ∧ h.regs.rspData = zext16 (hi8 v) ∧ l.regs.rspData = zext16 (lo8 v)

/-- What WRITE_ARRAY writes from BUF, READ_ARRAY of the same range brings back, whatever BUF holds in between: entry i
of the range is the byte that was written, any byte where BUF had none, and every entry past it is as it was
(42_array_operations.md R190, R193; 20_memory.md R67; 10_state.md R44). -/
def Obligations.ArrayRoundTrip : Prop :=
  ∀ (s : State) (a data len data' : Half) (m : Memory), Ready s → s.params.oSettle = true → s.params.hasArray = true →
    0 < len.toNat → len.toNat ≤ 255 → a.toNat + len.toNat ≤ 4096 →
    ∃ t u vs, exec (.writeArray a data len) s = .next t ∧ exec (.readArray a data' len) (t.setBuf m) = .next u ∧
      vs.length = len.toNat ∧ BufGives s.buf 0 vs ∧
      ∀ i, Memory.read u.buf i = if i < len.toNat then vs[i]? else Memory.read m i

/-- ERASE_ALL sets every address to 0x00, and calling it twice gives the same result as once: the second run puts the
same frames on the wire and leaves the store as it was (43_erase_and_init.md R201). -/
def Obligations.EraseIdempotent : Prop :=
  ∀ (s : State) (addr data len addr' data' len' : Half), Ready s → s.params.oSettle = true →
    ∃ t u fs gs, exec (.eraseAll addr data len) s = .next t ∧ exec (.eraseAll addr' data' len') t = .next u ∧
      (∀ a, a < 4096 → eeRead t a = 0x00#8 ∧ eeRead u a = 0x00#8) ∧
      t.frames = fs ++ s.frames ∧ u.frames = gs ++ t.frames ∧
      gs.map (fun f => f.out) = fs.map (fun f => f.out) ∧ fs.length = 8192

/-- One WriteEnable serves one write: of WREN, WRITE, Commit, WRITE only the first WRITE takes effect
(70_reset_and_hazards.md R261; 20_memory.md R77, R78). The frame is applied directly to the device: the model's
choice, log 17. -/
def Obligations.OneEnableOneWrite : Prop :=
  ∀ (s : State) (a b : Half) (v w : Byte) (ds es : List Byte), BusIdle s → s.dev.wip = false →
    a.toNat + (v :: ds).length ≤ 4096 → b.toNat + (w :: es).length ≤ 4096 →
    ∃ s1 s2 s3, exec .wren s = .next s1 ∧ exec (.write a (v :: ds)) s1 = .next s2 ∧
      exec (.write b (w :: es)) (commit s2) = .next s3 ∧ s3.dev.wip = false ∧ s3.dev.wel = false ∧
      ∀ x, eeRead s3 x =
        if a.toNat ≤ x ∧ x < a.toNat + (v :: ds).length then ((v :: ds)[x - a.toNat]?).getD 0 else eeRead s x

/-- The event counts of the byte and word operations and of INIT, the command and the response apart
(41_command_framer.md R172, R173, R176, R177; 43_erase_and_init.md R203). -/
def Obligations.EventCounts : Prop :=
  ∀ (s : State) (addr data len : Half), Ready s → s.params.oSettle = true → addr.toNat + 1 < 4096 →
    ∃ t0 t1 t2 t3 t4,
      exec (.init addr data len) s = .next t0 ∧
      t0.trace.length = s.trace.length + 2 + (if s.params.mode = .bitbang then 32 else 6) ∧
      exec (.readByte addr data len) s = .next t1 ∧
      t1.trace.length = s.trace.length + 2 + (if s.params.mode = .bitbang then 98 else 11) ∧
      exec (.writeByte addr data len) s = .next t2 ∧
      t2.trace.length = s.trace.length + 2 + (if s.params.mode = .bitbang then 125 else 15) ∧
      exec (.readWord addr data len) s = .next t3 ∧
      t3.trace.length = s.trace.length + 2 + (if s.params.mode = .bitbang then 196 else 22) ∧
      exec (.writeWord addr data len) s = .next t4 ∧
      t4.trace.length = s.trace.length + 2 + (if s.params.mode = .bitbang then 250 else 30)

/-- The event counts of the array operations and of ERASE_ALL, buffer accesses, the command and the response apart
(42_array_operations.md R190, R193; 43_erase_and_init.md R200). -/
def Obligations.LongEventCounts : Prop :=
  ∀ (s : State) (addr data len : Half), Ready s → s.params.oSettle = true → s.params.hasArray = true →
    len.toNat ≤ 255 → addr.toNat < 4096 → addr.toNat + len.toNat ≤ 4096 →
    ∃ t0 t1 t2,
      exec (.writeArray addr data len) s = .next t0 ∧
      t0.trace.length + (if s.params.hasThrottle then 0 else 2) = s.trace.length + 2 +
        (if s.params.mode = .bitbang then 103 + 24 * len.toNat else 15 + 2 * len.toNat) ∧
      exec (.readArray addr data len) s = .next t1 ∧
      t1.trace.length + (if s.params.hasThrottle then 0 else 2) = s.trace.length + 2 +
        (if s.params.mode = .bitbang then 76 + 24 * len.toNat else 10 + 3 * len.toNat) ∧
      exec (.eraseAll addr data len) s = .next t2 ∧
      t2.trace.length = s.trace.length + 2 + (if s.params.mode = .bitbang then 512000 else 61440)
end

