-- ==== Sys2Proof/Laws/Decode.lean ====
section
/-! SUPPORT. The fields of the encodings: packing and taking apart a host command word and a transport request. -/

namespace Sys2Proof

theorem cmdOp_packCmd (op : BitVec 4) (a d l : Half) : cmdOp (packCmd op a d l) = op := by
  unfold cmdOp packCmd; ext i hi; simp; grind

theorem cmdAddr_packCmd (op : BitVec 4) (a d l : Half) : cmdAddr (packCmd op a d l) = a := by
  unfold cmdAddr packCmd; ext i hi; simp; grind

theorem cmdData_packCmd (op : BitVec 4) (a d l : Half) : cmdData (packCmd op a d l) = d := by
  unfold cmdData packCmd; ext i hi; simp; grind

theorem cmdLen_packCmd (op : BitVec 4) (a d l : Half) : cmdLen (packCmd op a d l) = l := by
  unfold cmdLen packCmd; ext i hi; simp; grind

theorem microOp_packMicro (op : BitVec 2) (t : Half) : microOp (packMicro op t) = op := by
  unfold microOp packMicro; ext i hi; simp; grind

@[simp] theorem microData_packMicro (op : BitVec 2) (t : Half) : microData (packMicro op t) = t := by
  unfold microData packMicro; ext i hi; simp; grind

/-- A host command word is its four fields (30_encoding.md R111). -/
theorem packCmd_fields (w : BitVec 52) : packCmd (cmdOp w) (cmdAddr w) (cmdData w) (cmdLen w) = w := by
  unfold cmdOp cmdAddr cmdData cmdLen packCmd
  apply BitVec.eq_of_getLsbD_eq
  intro i hi
  simp
  grind

/-- A transport request is its two fields (30_encoding.md R114). -/
theorem packMicro_fields (w : BitVec 18) : packMicro (microOp w) (microData w) = w := by
  unfold microOp microData packMicro
  apply BitVec.eq_of_getLsbD_eq
  intro i hi
  simp
  grind

/-- The low three bits of a code of 8 or more, behind a 1, are the code (30_encoding.md R116). -/
theorem reserved_op : ∀ op : BitVec 4, 8 ≤ op.toNat → 1#1 ++ op.extractLsb' 0 3 = op := by decide

theorem reserved_code : ∀ k : BitVec 3, 8 ≤ (1#1 ++ k).toNat ∧ (1#1 ++ k).extractLsb' 0 3 = k := by decide

end Sys2Proof
end

