-- ==== Sys2Proof/Laws/Memory.lean ====
section
/-! SUPPORT. Memory: read after write, the canonical form, the bound on addresses. -/

namespace Sys2Proof.Machine

open Sys2Proof

@[simp] theorem Memory.read_nil (a : Nat) : Memory.read [] a = none := rfl

theorem Memory.read_cons (k : Nat) (v : Byte) (m : Memory) (a : Nat) :
    Memory.read ((k, v) :: m) a = if a = k then some v else Memory.read m a := rfl

@[simp] theorem Memory.read_write_same (m : Memory) (a : Nat) (v : Byte) :
    Memory.read (Memory.write m a v) a = some v := by
  induction m with
  | nil => simp [Memory.write, Memory.read]
  | cons c m ih =>
    obtain ⟨k, w⟩ := c
    simp only [Memory.write]
    split
    · simp [Memory.read]
    · split
      · simp [Memory.read]
      · simp [Memory.read, ih]; intro h; contradiction

theorem Memory.read_write_other (m : Memory) {a b : Nat} (v : Byte) (h : b ≠ a) :
    Memory.read (Memory.write m a v) b = Memory.read m b := by
  induction m with
  | nil => simp [Memory.write, Memory.read, h]
  | cons c m ih =>
    obtain ⟨k, w⟩ := c
    simp only [Memory.write]
    split
    · simp [Memory.read, h]
    · split
      · rename_i h2
        subst h2
        simp [Memory.read, h]
      · simp [Memory.read, ih]

/-- A cell of a written memory is the written one or an old one. -/
theorem Memory.mem_write {m : Memory} {a : Nat} {v : Byte} {c : Host.Cell} (h : c ∈ Memory.write m a v) :
    c = (a, v) ∨ c ∈ m := by
  induction m with
  | nil => simpa [Memory.write] using h
  | cons d m ih =>
    obtain ⟨k, w⟩ := d
    simp only [Memory.write] at h
    split at h
    · simp at h ⊢; tauto
    · split at h
      · simp at h ⊢; tauto
      · simp at h ⊢; rcases h with h | h
        · tauto
        · have := ih h; tauto

/-- A write keeps the canonical form. -/
theorem Memory.wf_write {m : Memory} (a : Nat) (v : Byte) (h : Memory.wf m) : Memory.wf (Memory.write m a v) := by
  induction m with
  | nil => simp [Memory.write]
  | cons d m ih =>
    obtain ⟨k, w⟩ := d
    have h1 := List.pairwise_cons.mp h
    simp only [Memory.write]
    split
    · rename_i hlt
      refine List.pairwise_cons.mpr ⟨?_, h⟩
      intro c hc
      rcases List.mem_cons.mp hc with rfl | hc
      · exact hlt
      · exact Nat.lt_trans hlt (h1.1 c hc)
    · split
      · rename_i h2
        subst h2
        exact List.pairwise_cons.mpr ⟨h1.1, h1.2⟩
      · rename_i hlt hne
        refine List.pairwise_cons.mpr ⟨?_, ih h1.2⟩
        intro c hc
        rcases Memory.mem_write hc with rfl | hc
        · simp; omega
        · exact h1.1 c hc

/-- A write at an address below a bound keeps the bound. -/
theorem Memory.below_write {m : Memory} {n a : Nat} (v : Byte) (ha : a < n) (h : Memory.below m n) :
    Memory.below (Memory.write m a v) n := by
  intro c hc
  rcases Memory.mem_write hc with rfl | hc
  · exact ha
  · exact h c hc

/-- Writing bytes in order keeps the canonical form. -/
theorem Memory.wf_writeList {m : Memory} (a : Nat) (vs : List Byte) (h : Memory.wf m) :
    Memory.wf (Memory.writeList m a vs) := by
  induction vs generalizing m a with
  | nil => exact h
  | cons v vs ih => exact ih _ (Memory.wf_write a v h)

/-- Writing bytes that end below a bound keeps the bound. -/
theorem Memory.below_writeList {m : Memory} {n a : Nat} (vs : List Byte) (ha : a + vs.length ≤ n)
    (h : Memory.below m n) : Memory.below (Memory.writeList m a vs) n := by
  induction vs generalizing m a with
  | nil => exact h
  | cons v vs ih =>
    simp only [List.length_cons] at ha
    exact ih (by omega) (Memory.below_write v (by omega) h)

/-- Reading a memory after bytes were written at ascending addresses. -/
theorem Memory.read_writeList (m : Memory) (a : Nat) (vs : List Byte) (b : Nat) :
    Memory.read (Memory.writeList m a vs) b =
      if a ≤ b ∧ b < a + vs.length then vs[b - a]? else Memory.read m b := by
  induction vs generalizing m a with
  | nil => simp [Memory.writeList]
  | cons v vs ih =>
    simp only [Memory.writeList, ih, List.length_cons]
    by_cases h1 : a + 1 ≤ b ∧ b < a + 1 + vs.length
    · have h2 : a ≤ b ∧ b < a + (vs.length + 1) := by omega
      have h3 : b - a = (b - (a + 1)) + 1 := by omega
      rw [if_pos h1, if_pos h2, h3, List.getElem?_cons_succ]
    · rw [if_neg h1]
      by_cases h4 : b = a
      · subst h4
        simp
      · have h2 : ¬ (a ≤ b ∧ b < a + (vs.length + 1)) := by omega
        rw [if_neg h2, Memory.read_write_other m v h4]

/-- The store after Commit, read one byte at a time. -/
theorem Dev.read_writeList (d : Dev) (a : Nat) (vs : List Byte) (b : Nat) (w p : Bool) (q : Option Pending)
    (f : Option Frame) (l : Line) :
    ({ ee := Memory.writeList d.ee a vs, wel := w, wip := p, pending := q, frame := f, line := l } : Dev).read b =
      if a ≤ b ∧ b < a + vs.length then (vs[b - a]?).getD 0 else d.read b := by
  simp only [Dev.read, Memory.read_writeList]
  split
  · rename_i h
    have : b - a < vs.length := by omega
    simp [List.getElem?_eq_getElem this]
  · rfl

end Sys2Proof.Machine
end

