-- ==== Sys2Proof/Laws/State.lean ====
section
/-! SUPPORT. The named updates of State, one lemma per part and update, each true by definition. -/

namespace Sys2Proof.Machine

@[simp] theorem State.setSeq_params (s : State) (q : List Micro) : (s.setSeq q).params = s.params := rfl
@[simp] theorem State.setSeq_seq (s : State) (q : List Micro) : (s.setSeq q).seq = q := rfl
@[simp] theorem State.setSeq_bracketWrite (s : State) (q : List Micro) : (s.setSeq q).bracketWrite = s.bracketWrite := rfl
@[simp] theorem State.setSeq_tierLow (s : State) (q : List Micro) : (s.setSeq q).tierLow = s.tierLow := rfl
@[simp] theorem State.setSeq_regs (s : State) (q : List Micro) : (s.setSeq q).regs = s.regs := rfl
@[simp] theorem State.setSeq_pins (s : State) (q : List Micro) : (s.setSeq q).pins = s.pins := rfl
@[simp] theorem State.setSeq_tier (s : State) (q : List Micro) : (s.setSeq q).tier = s.tier := rfl
@[simp] theorem State.setSeq_ctl (s : State) (q : List Micro) : (s.setSeq q).ctl = s.ctl := rfl
@[simp] theorem State.setSeq_dev (s : State) (q : List Micro) : (s.setSeq q).dev = s.dev := rfl
@[simp] theorem State.setSeq_buf (s : State) (q : List Micro) : (s.setSeq q).buf = s.buf := rfl
@[simp] theorem State.setSeq_draws (s : State) (q : List Micro) : (s.setSeq q).draws = s.draws := rfl
@[simp] theorem State.setSeq_inbox (s : State) (q : List Micro) : (s.setSeq q).inbox = s.inbox := rfl
@[simp] theorem State.setSeq_sched (s : State) (q : List Micro) : (s.setSeq q).sched = s.sched := rfl
@[simp] theorem State.setSeq_trace (s : State) (q : List Micro) : (s.setSeq q).trace = s.trace := rfl
@[simp] theorem State.setSeq_frames (s : State) (q : List Micro) : (s.setSeq q).frames = s.frames := rfl

@[simp] theorem State.setBracketWrite_params (s : State) (b : Bool) : (s.setBracketWrite b).params = s.params := rfl
@[simp] theorem State.setBracketWrite_seq (s : State) (b : Bool) : (s.setBracketWrite b).seq = s.seq := rfl
@[simp] theorem State.setBracketWrite_bracketWrite (s : State) (b : Bool) : (s.setBracketWrite b).bracketWrite = b := rfl
@[simp] theorem State.setBracketWrite_tierLow (s : State) (b : Bool) : (s.setBracketWrite b).tierLow = s.tierLow := rfl
@[simp] theorem State.setBracketWrite_regs (s : State) (b : Bool) : (s.setBracketWrite b).regs = s.regs := rfl
@[simp] theorem State.setBracketWrite_pins (s : State) (b : Bool) : (s.setBracketWrite b).pins = s.pins := rfl
@[simp] theorem State.setBracketWrite_tier (s : State) (b : Bool) : (s.setBracketWrite b).tier = s.tier := rfl
@[simp] theorem State.setBracketWrite_ctl (s : State) (b : Bool) : (s.setBracketWrite b).ctl = s.ctl := rfl
@[simp] theorem State.setBracketWrite_dev (s : State) (b : Bool) : (s.setBracketWrite b).dev = s.dev := rfl
@[simp] theorem State.setBracketWrite_buf (s : State) (b : Bool) : (s.setBracketWrite b).buf = s.buf := rfl
@[simp] theorem State.setBracketWrite_draws (s : State) (b : Bool) : (s.setBracketWrite b).draws = s.draws := rfl
@[simp] theorem State.setBracketWrite_inbox (s : State) (b : Bool) : (s.setBracketWrite b).inbox = s.inbox := rfl
@[simp] theorem State.setBracketWrite_sched (s : State) (b : Bool) : (s.setBracketWrite b).sched = s.sched := rfl
@[simp] theorem State.setBracketWrite_trace (s : State) (b : Bool) : (s.setBracketWrite b).trace = s.trace := rfl
@[simp] theorem State.setBracketWrite_frames (s : State) (b : Bool) : (s.setBracketWrite b).frames = s.frames := rfl

@[simp] theorem State.setTierLow_params (s : State) (b : Bool) : (s.setTierLow b).params = s.params := rfl
@[simp] theorem State.setTierLow_seq (s : State) (b : Bool) : (s.setTierLow b).seq = s.seq := rfl
@[simp] theorem State.setTierLow_bracketWrite (s : State) (b : Bool) : (s.setTierLow b).bracketWrite = s.bracketWrite := rfl
@[simp] theorem State.setTierLow_tierLow (s : State) (b : Bool) : (s.setTierLow b).tierLow = b := rfl
@[simp] theorem State.setTierLow_regs (s : State) (b : Bool) : (s.setTierLow b).regs = s.regs := rfl
@[simp] theorem State.setTierLow_pins (s : State) (b : Bool) : (s.setTierLow b).pins = s.pins := rfl
@[simp] theorem State.setTierLow_tier (s : State) (b : Bool) : (s.setTierLow b).tier = s.tier := rfl
@[simp] theorem State.setTierLow_ctl (s : State) (b : Bool) : (s.setTierLow b).ctl = s.ctl := rfl
@[simp] theorem State.setTierLow_dev (s : State) (b : Bool) : (s.setTierLow b).dev = s.dev := rfl
@[simp] theorem State.setTierLow_buf (s : State) (b : Bool) : (s.setTierLow b).buf = s.buf := rfl
@[simp] theorem State.setTierLow_draws (s : State) (b : Bool) : (s.setTierLow b).draws = s.draws := rfl
@[simp] theorem State.setTierLow_inbox (s : State) (b : Bool) : (s.setTierLow b).inbox = s.inbox := rfl
@[simp] theorem State.setTierLow_sched (s : State) (b : Bool) : (s.setTierLow b).sched = s.sched := rfl
@[simp] theorem State.setTierLow_trace (s : State) (b : Bool) : (s.setTierLow b).trace = s.trace := rfl
@[simp] theorem State.setTierLow_frames (s : State) (b : Bool) : (s.setTierLow b).frames = s.frames := rfl

@[simp] theorem State.setRegs_params (s : State) (r : Regs) : (s.setRegs r).params = s.params := rfl
@[simp] theorem State.setRegs_seq (s : State) (r : Regs) : (s.setRegs r).seq = s.seq := rfl
@[simp] theorem State.setRegs_bracketWrite (s : State) (r : Regs) : (s.setRegs r).bracketWrite = s.bracketWrite := rfl
@[simp] theorem State.setRegs_tierLow (s : State) (r : Regs) : (s.setRegs r).tierLow = s.tierLow := rfl
@[simp] theorem State.setRegs_regs (s : State) (r : Regs) : (s.setRegs r).regs = r := rfl
@[simp] theorem State.setRegs_pins (s : State) (r : Regs) : (s.setRegs r).pins = s.pins := rfl
@[simp] theorem State.setRegs_tier (s : State) (r : Regs) : (s.setRegs r).tier = s.tier := rfl
@[simp] theorem State.setRegs_ctl (s : State) (r : Regs) : (s.setRegs r).ctl = s.ctl := rfl
@[simp] theorem State.setRegs_dev (s : State) (r : Regs) : (s.setRegs r).dev = s.dev := rfl
@[simp] theorem State.setRegs_buf (s : State) (r : Regs) : (s.setRegs r).buf = s.buf := rfl
@[simp] theorem State.setRegs_draws (s : State) (r : Regs) : (s.setRegs r).draws = s.draws := rfl
@[simp] theorem State.setRegs_inbox (s : State) (r : Regs) : (s.setRegs r).inbox = s.inbox := rfl
@[simp] theorem State.setRegs_sched (s : State) (r : Regs) : (s.setRegs r).sched = s.sched := rfl
@[simp] theorem State.setRegs_trace (s : State) (r : Regs) : (s.setRegs r).trace = s.trace := rfl
@[simp] theorem State.setRegs_frames (s : State) (r : Regs) : (s.setRegs r).frames = s.frames := rfl

@[simp] theorem State.setPins_params (s : State) (p : Pins) : (s.setPins p).params = s.params := rfl
@[simp] theorem State.setPins_seq (s : State) (p : Pins) : (s.setPins p).seq = s.seq := rfl
@[simp] theorem State.setPins_bracketWrite (s : State) (p : Pins) : (s.setPins p).bracketWrite = s.bracketWrite := rfl
@[simp] theorem State.setPins_tierLow (s : State) (p : Pins) : (s.setPins p).tierLow = s.tierLow := rfl
@[simp] theorem State.setPins_regs (s : State) (p : Pins) : (s.setPins p).regs = s.regs := rfl
@[simp] theorem State.setPins_pins (s : State) (p : Pins) : (s.setPins p).pins = p := rfl
@[simp] theorem State.setPins_tier (s : State) (p : Pins) : (s.setPins p).tier = s.tier := rfl
@[simp] theorem State.setPins_ctl (s : State) (p : Pins) : (s.setPins p).ctl = s.ctl := rfl
@[simp] theorem State.setPins_dev (s : State) (p : Pins) : (s.setPins p).dev = s.dev := rfl
@[simp] theorem State.setPins_buf (s : State) (p : Pins) : (s.setPins p).buf = s.buf := rfl
@[simp] theorem State.setPins_draws (s : State) (p : Pins) : (s.setPins p).draws = s.draws := rfl
@[simp] theorem State.setPins_inbox (s : State) (p : Pins) : (s.setPins p).inbox = s.inbox := rfl
@[simp] theorem State.setPins_sched (s : State) (p : Pins) : (s.setPins p).sched = s.sched := rfl
@[simp] theorem State.setPins_trace (s : State) (p : Pins) : (s.setPins p).trace = s.trace := rfl
@[simp] theorem State.setPins_frames (s : State) (p : Pins) : (s.setPins p).frames = s.frames := rfl

@[simp] theorem State.setTier_params (s : State) (n : Nat) : (s.setTier n).params = s.params := rfl
@[simp] theorem State.setTier_seq (s : State) (n : Nat) : (s.setTier n).seq = s.seq := rfl
@[simp] theorem State.setTier_bracketWrite (s : State) (n : Nat) : (s.setTier n).bracketWrite = s.bracketWrite := rfl
@[simp] theorem State.setTier_tierLow (s : State) (n : Nat) : (s.setTier n).tierLow = s.tierLow := rfl
@[simp] theorem State.setTier_regs (s : State) (n : Nat) : (s.setTier n).regs = s.regs := rfl
@[simp] theorem State.setTier_pins (s : State) (n : Nat) : (s.setTier n).pins = s.pins := rfl
@[simp] theorem State.setTier_tier (s : State) (n : Nat) : (s.setTier n).tier = n := rfl
@[simp] theorem State.setTier_ctl (s : State) (n : Nat) : (s.setTier n).ctl = s.ctl := rfl
@[simp] theorem State.setTier_dev (s : State) (n : Nat) : (s.setTier n).dev = s.dev := rfl
@[simp] theorem State.setTier_buf (s : State) (n : Nat) : (s.setTier n).buf = s.buf := rfl
@[simp] theorem State.setTier_draws (s : State) (n : Nat) : (s.setTier n).draws = s.draws := rfl
@[simp] theorem State.setTier_inbox (s : State) (n : Nat) : (s.setTier n).inbox = s.inbox := rfl
@[simp] theorem State.setTier_sched (s : State) (n : Nat) : (s.setTier n).sched = s.sched := rfl
@[simp] theorem State.setTier_trace (s : State) (n : Nat) : (s.setTier n).trace = s.trace := rfl
@[simp] theorem State.setTier_frames (s : State) (n : Nat) : (s.setTier n).frames = s.frames := rfl

@[simp] theorem State.setCtl_params (s : State) (c : Ctl) : (s.setCtl c).params = s.params := rfl
@[simp] theorem State.setCtl_seq (s : State) (c : Ctl) : (s.setCtl c).seq = s.seq := rfl
@[simp] theorem State.setCtl_bracketWrite (s : State) (c : Ctl) : (s.setCtl c).bracketWrite = s.bracketWrite := rfl
@[simp] theorem State.setCtl_tierLow (s : State) (c : Ctl) : (s.setCtl c).tierLow = s.tierLow := rfl
@[simp] theorem State.setCtl_regs (s : State) (c : Ctl) : (s.setCtl c).regs = s.regs := rfl
@[simp] theorem State.setCtl_pins (s : State) (c : Ctl) : (s.setCtl c).pins = s.pins := rfl
@[simp] theorem State.setCtl_tier (s : State) (c : Ctl) : (s.setCtl c).tier = s.tier := rfl
@[simp] theorem State.setCtl_ctl (s : State) (c : Ctl) : (s.setCtl c).ctl = c := rfl
@[simp] theorem State.setCtl_dev (s : State) (c : Ctl) : (s.setCtl c).dev = s.dev := rfl
@[simp] theorem State.setCtl_buf (s : State) (c : Ctl) : (s.setCtl c).buf = s.buf := rfl
@[simp] theorem State.setCtl_draws (s : State) (c : Ctl) : (s.setCtl c).draws = s.draws := rfl
@[simp] theorem State.setCtl_inbox (s : State) (c : Ctl) : (s.setCtl c).inbox = s.inbox := rfl
@[simp] theorem State.setCtl_sched (s : State) (c : Ctl) : (s.setCtl c).sched = s.sched := rfl
@[simp] theorem State.setCtl_trace (s : State) (c : Ctl) : (s.setCtl c).trace = s.trace := rfl
@[simp] theorem State.setCtl_frames (s : State) (c : Ctl) : (s.setCtl c).frames = s.frames := rfl

@[simp] theorem State.setDev_params (s : State) (d : Dev) : (s.setDev d).params = s.params := rfl
@[simp] theorem State.setDev_seq (s : State) (d : Dev) : (s.setDev d).seq = s.seq := rfl
@[simp] theorem State.setDev_bracketWrite (s : State) (d : Dev) : (s.setDev d).bracketWrite = s.bracketWrite := rfl
@[simp] theorem State.setDev_tierLow (s : State) (d : Dev) : (s.setDev d).tierLow = s.tierLow := rfl
@[simp] theorem State.setDev_regs (s : State) (d : Dev) : (s.setDev d).regs = s.regs := rfl
@[simp] theorem State.setDev_pins (s : State) (d : Dev) : (s.setDev d).pins = s.pins := rfl
@[simp] theorem State.setDev_tier (s : State) (d : Dev) : (s.setDev d).tier = s.tier := rfl
@[simp] theorem State.setDev_ctl (s : State) (d : Dev) : (s.setDev d).ctl = s.ctl := rfl
@[simp] theorem State.setDev_dev (s : State) (d : Dev) : (s.setDev d).dev = d := rfl
@[simp] theorem State.setDev_buf (s : State) (d : Dev) : (s.setDev d).buf = s.buf := rfl
@[simp] theorem State.setDev_draws (s : State) (d : Dev) : (s.setDev d).draws = s.draws := rfl
@[simp] theorem State.setDev_inbox (s : State) (d : Dev) : (s.setDev d).inbox = s.inbox := rfl
@[simp] theorem State.setDev_sched (s : State) (d : Dev) : (s.setDev d).sched = s.sched := rfl
@[simp] theorem State.setDev_trace (s : State) (d : Dev) : (s.setDev d).trace = s.trace := rfl
@[simp] theorem State.setDev_frames (s : State) (d : Dev) : (s.setDev d).frames = s.frames := rfl

@[simp] theorem State.setBuf_params (s : State) (m : Memory) : (s.setBuf m).params = s.params := rfl
@[simp] theorem State.setBuf_seq (s : State) (m : Memory) : (s.setBuf m).seq = s.seq := rfl
@[simp] theorem State.setBuf_bracketWrite (s : State) (m : Memory) : (s.setBuf m).bracketWrite = s.bracketWrite := rfl
@[simp] theorem State.setBuf_tierLow (s : State) (m : Memory) : (s.setBuf m).tierLow = s.tierLow := rfl
@[simp] theorem State.setBuf_regs (s : State) (m : Memory) : (s.setBuf m).regs = s.regs := rfl
@[simp] theorem State.setBuf_pins (s : State) (m : Memory) : (s.setBuf m).pins = s.pins := rfl
@[simp] theorem State.setBuf_tier (s : State) (m : Memory) : (s.setBuf m).tier = s.tier := rfl
@[simp] theorem State.setBuf_ctl (s : State) (m : Memory) : (s.setBuf m).ctl = s.ctl := rfl
@[simp] theorem State.setBuf_dev (s : State) (m : Memory) : (s.setBuf m).dev = s.dev := rfl
@[simp] theorem State.setBuf_buf (s : State) (m : Memory) : (s.setBuf m).buf = m := rfl
@[simp] theorem State.setBuf_draws (s : State) (m : Memory) : (s.setBuf m).draws = s.draws := rfl
@[simp] theorem State.setBuf_inbox (s : State) (m : Memory) : (s.setBuf m).inbox = s.inbox := rfl
@[simp] theorem State.setBuf_sched (s : State) (m : Memory) : (s.setBuf m).sched = s.sched := rfl
@[simp] theorem State.setBuf_trace (s : State) (m : Memory) : (s.setBuf m).trace = s.trace := rfl
@[simp] theorem State.setBuf_frames (s : State) (m : Memory) : (s.setBuf m).frames = s.frames := rfl

@[simp] theorem State.setDraws_params (s : State) (n : Nat) : (s.setDraws n).params = s.params := rfl
@[simp] theorem State.setDraws_seq (s : State) (n : Nat) : (s.setDraws n).seq = s.seq := rfl
@[simp] theorem State.setDraws_bracketWrite (s : State) (n : Nat) : (s.setDraws n).bracketWrite = s.bracketWrite := rfl
@[simp] theorem State.setDraws_tierLow (s : State) (n : Nat) : (s.setDraws n).tierLow = s.tierLow := rfl
@[simp] theorem State.setDraws_regs (s : State) (n : Nat) : (s.setDraws n).regs = s.regs := rfl
@[simp] theorem State.setDraws_pins (s : State) (n : Nat) : (s.setDraws n).pins = s.pins := rfl
@[simp] theorem State.setDraws_tier (s : State) (n : Nat) : (s.setDraws n).tier = s.tier := rfl
@[simp] theorem State.setDraws_ctl (s : State) (n : Nat) : (s.setDraws n).ctl = s.ctl := rfl
@[simp] theorem State.setDraws_dev (s : State) (n : Nat) : (s.setDraws n).dev = s.dev := rfl
@[simp] theorem State.setDraws_buf (s : State) (n : Nat) : (s.setDraws n).buf = s.buf := rfl
@[simp] theorem State.setDraws_draws (s : State) (n : Nat) : (s.setDraws n).draws = n := rfl
@[simp] theorem State.setDraws_inbox (s : State) (n : Nat) : (s.setDraws n).inbox = s.inbox := rfl
@[simp] theorem State.setDraws_sched (s : State) (n : Nat) : (s.setDraws n).sched = s.sched := rfl
@[simp] theorem State.setDraws_trace (s : State) (n : Nat) : (s.setDraws n).trace = s.trace := rfl
@[simp] theorem State.setDraws_frames (s : State) (n : Nat) : (s.setDraws n).frames = s.frames := rfl

@[simp] theorem State.setInbox_params (s : State) (q : List Request) : (s.setInbox q).params = s.params := rfl
@[simp] theorem State.setInbox_seq (s : State) (q : List Request) : (s.setInbox q).seq = s.seq := rfl
@[simp] theorem State.setInbox_bracketWrite (s : State) (q : List Request) : (s.setInbox q).bracketWrite = s.bracketWrite := rfl
@[simp] theorem State.setInbox_tierLow (s : State) (q : List Request) : (s.setInbox q).tierLow = s.tierLow := rfl
@[simp] theorem State.setInbox_regs (s : State) (q : List Request) : (s.setInbox q).regs = s.regs := rfl
@[simp] theorem State.setInbox_pins (s : State) (q : List Request) : (s.setInbox q).pins = s.pins := rfl
@[simp] theorem State.setInbox_tier (s : State) (q : List Request) : (s.setInbox q).tier = s.tier := rfl
@[simp] theorem State.setInbox_ctl (s : State) (q : List Request) : (s.setInbox q).ctl = s.ctl := rfl
@[simp] theorem State.setInbox_dev (s : State) (q : List Request) : (s.setInbox q).dev = s.dev := rfl
@[simp] theorem State.setInbox_buf (s : State) (q : List Request) : (s.setInbox q).buf = s.buf := rfl
@[simp] theorem State.setInbox_draws (s : State) (q : List Request) : (s.setInbox q).draws = s.draws := rfl
@[simp] theorem State.setInbox_inbox (s : State) (q : List Request) : (s.setInbox q).inbox = q := rfl
@[simp] theorem State.setInbox_sched (s : State) (q : List Request) : (s.setInbox q).sched = s.sched := rfl
@[simp] theorem State.setInbox_trace (s : State) (q : List Request) : (s.setInbox q).trace = s.trace := rfl
@[simp] theorem State.setInbox_frames (s : State) (q : List Request) : (s.setInbox q).frames = s.frames := rfl

@[simp] theorem State.setSched_params (s : State) (q : List (List EnvAct)) : (s.setSched q).params = s.params := rfl
@[simp] theorem State.setSched_seq (s : State) (q : List (List EnvAct)) : (s.setSched q).seq = s.seq := rfl
@[simp] theorem State.setSched_bracketWrite (s : State) (q : List (List EnvAct)) : (s.setSched q).bracketWrite = s.bracketWrite := rfl
@[simp] theorem State.setSched_tierLow (s : State) (q : List (List EnvAct)) : (s.setSched q).tierLow = s.tierLow := rfl
@[simp] theorem State.setSched_regs (s : State) (q : List (List EnvAct)) : (s.setSched q).regs = s.regs := rfl
@[simp] theorem State.setSched_pins (s : State) (q : List (List EnvAct)) : (s.setSched q).pins = s.pins := rfl
@[simp] theorem State.setSched_tier (s : State) (q : List (List EnvAct)) : (s.setSched q).tier = s.tier := rfl
@[simp] theorem State.setSched_ctl (s : State) (q : List (List EnvAct)) : (s.setSched q).ctl = s.ctl := rfl
@[simp] theorem State.setSched_dev (s : State) (q : List (List EnvAct)) : (s.setSched q).dev = s.dev := rfl
@[simp] theorem State.setSched_buf (s : State) (q : List (List EnvAct)) : (s.setSched q).buf = s.buf := rfl
@[simp] theorem State.setSched_draws (s : State) (q : List (List EnvAct)) : (s.setSched q).draws = s.draws := rfl
@[simp] theorem State.setSched_inbox (s : State) (q : List (List EnvAct)) : (s.setSched q).inbox = s.inbox := rfl
@[simp] theorem State.setSched_sched (s : State) (q : List (List EnvAct)) : (s.setSched q).sched = q := rfl
@[simp] theorem State.setSched_trace (s : State) (q : List (List EnvAct)) : (s.setSched q).trace = s.trace := rfl
@[simp] theorem State.setSched_frames (s : State) (q : List (List EnvAct)) : (s.setSched q).frames = s.frames := rfl

@[simp] theorem State.log_params (s : State) (e : Event) : (s.log e).params = s.params := rfl
@[simp] theorem State.log_seq (s : State) (e : Event) : (s.log e).seq = s.seq := rfl
@[simp] theorem State.log_bracketWrite (s : State) (e : Event) : (s.log e).bracketWrite = s.bracketWrite := rfl
@[simp] theorem State.log_tierLow (s : State) (e : Event) : (s.log e).tierLow = s.tierLow := rfl
@[simp] theorem State.log_regs (s : State) (e : Event) : (s.log e).regs = s.regs := rfl
@[simp] theorem State.log_pins (s : State) (e : Event) : (s.log e).pins = s.pins := rfl
@[simp] theorem State.log_tier (s : State) (e : Event) : (s.log e).tier = s.tier := rfl
@[simp] theorem State.log_ctl (s : State) (e : Event) : (s.log e).ctl = s.ctl := rfl
@[simp] theorem State.log_dev (s : State) (e : Event) : (s.log e).dev = s.dev := rfl
@[simp] theorem State.log_buf (s : State) (e : Event) : (s.log e).buf = s.buf := rfl
@[simp] theorem State.log_draws (s : State) (e : Event) : (s.log e).draws = s.draws := rfl
@[simp] theorem State.log_inbox (s : State) (e : Event) : (s.log e).inbox = s.inbox := rfl
@[simp] theorem State.log_sched (s : State) (e : Event) : (s.log e).sched = s.sched := rfl
@[simp] theorem State.log_trace (s : State) (e : Event) : (s.log e).trace = e :: s.trace := rfl
@[simp] theorem State.log_frames (s : State) (e : Event) : (s.log e).frames = s.frames := rfl

@[simp] theorem State.logFrame_params (s : State) (f : FrameRec) : (s.logFrame f).params = s.params := rfl
@[simp] theorem State.logFrame_seq (s : State) (f : FrameRec) : (s.logFrame f).seq = s.seq := rfl
@[simp] theorem State.logFrame_bracketWrite (s : State) (f : FrameRec) : (s.logFrame f).bracketWrite = s.bracketWrite := rfl
@[simp] theorem State.logFrame_tierLow (s : State) (f : FrameRec) : (s.logFrame f).tierLow = s.tierLow := rfl
@[simp] theorem State.logFrame_regs (s : State) (f : FrameRec) : (s.logFrame f).regs = s.regs := rfl
@[simp] theorem State.logFrame_pins (s : State) (f : FrameRec) : (s.logFrame f).pins = s.pins := rfl
@[simp] theorem State.logFrame_tier (s : State) (f : FrameRec) : (s.logFrame f).tier = s.tier := rfl
@[simp] theorem State.logFrame_ctl (s : State) (f : FrameRec) : (s.logFrame f).ctl = s.ctl := rfl
@[simp] theorem State.logFrame_dev (s : State) (f : FrameRec) : (s.logFrame f).dev = s.dev := rfl
@[simp] theorem State.logFrame_buf (s : State) (f : FrameRec) : (s.logFrame f).buf = s.buf := rfl
@[simp] theorem State.logFrame_draws (s : State) (f : FrameRec) : (s.logFrame f).draws = s.draws := rfl
@[simp] theorem State.logFrame_inbox (s : State) (f : FrameRec) : (s.logFrame f).inbox = s.inbox := rfl
@[simp] theorem State.logFrame_sched (s : State) (f : FrameRec) : (s.logFrame f).sched = s.sched := rfl
@[simp] theorem State.logFrame_trace (s : State) (f : FrameRec) : (s.logFrame f).trace = s.trace := rfl
@[simp] theorem State.logFrame_frames (s : State) (f : FrameRec) : (s.logFrame f).frames = f :: s.frames := rfl

end Sys2Proof.Machine
end

