-- ==== Sys2Proof/Laws/Device.lean ====
section
/-! SUPPORT. The device: bits make bytes, one byte exchange, frames opened and closed, and Commit. -/

namespace Sys2Proof.Machine

open Sys2Proof

/-! Shifts. -/

theorem getLsbD_shiftIn (x : Byte) (b : Bool) (i : Nat) :
    (shiftIn x b).getLsbD i = if i = 0 then b else (decide (i < 8) && x.getLsbD (i - 1)) := by
  unfold shiftIn
  rcases Nat.eq_zero_or_pos i with h | h
  · subst h
    cases b <;> simp
  · have h0 : i ≠ 0 := by omega
    have h2 : ¬ i < 1 := by omega
    cases b <;> simp [h0, h2]

theorem getLsbD_shiftOut (x : Byte) (i : Nat) :
    (shiftOut x).getLsbD i = (decide (i < 8) && (decide (0 < i) && x.getLsbD (i - 1))) := by
  unfold shiftOut
  rcases Nat.eq_zero_or_pos i with h | h
  · subst h; simp
  · have : ¬ i < 1 := by omega
    simp [this, h]

theorem msb_eq_bit7 (x : Byte) : x.msb = x.getLsbD 7 := by simp [BitVec.msb_eq_getLsbD_last]

/-- Eight bits taken most significant first make the byte, whatever was there before. -/
theorem shiftIn_bits (acc r : Byte) :
    shiftIn (shiftIn (shiftIn (shiftIn (shiftIn (shiftIn (shiftIn (shiftIn acc (r.getLsbD 7)) (r.getLsbD 6))
      (r.getLsbD 5)) (r.getLsbD 4)) (r.getLsbD 3)) (r.getLsbD 2)) (r.getLsbD 1)) (r.getLsbD 0) = r := by
  apply BitVec.eq_of_getLsbD_eq
  intro i hi
  have : i = 0 ∨ i = 1 ∨ i = 2 ∨ i = 3 ∨ i = 4 ∨ i = 5 ∨ i = 6 ∨ i = 7 := by omega
  rcases this with h | h | h | h | h | h | h | h <;> subst h <;> simp only [getLsbD_shiftIn] <;> simp

/-- The bits a byte shows at its top while it is shifted left (40_transport.md R131: iteration k sends bit 7-k). -/
theorem shiftOut_msb (v : Byte) :
    v.msb = v.getLsbD 7 ∧ (shiftOut v).msb = v.getLsbD 6 ∧ (shiftOut (shiftOut v)).msb = v.getLsbD 5 ∧
    (shiftOut (shiftOut (shiftOut v))).msb = v.getLsbD 4 ∧
    (shiftOut (shiftOut (shiftOut (shiftOut v)))).msb = v.getLsbD 3 ∧
    (shiftOut (shiftOut (shiftOut (shiftOut (shiftOut v))))).msb = v.getLsbD 2 ∧
    (shiftOut (shiftOut (shiftOut (shiftOut (shiftOut (shiftOut v)))))).msb = v.getLsbD 1 ∧
    (shiftOut (shiftOut (shiftOut (shiftOut (shiftOut (shiftOut (shiftOut v))))))).msb = v.getLsbD 0 := by
  simp only [msb_eq_bit7, getLsbD_shiftOut]
  simp

/-- After eight left shifts nothing is left (40_transport.md R161). -/
theorem shiftOut_eight (v : Byte) :
    shiftOut (shiftOut (shiftOut (shiftOut (shiftOut (shiftOut (shiftOut (shiftOut v))))))) = 0 := by
  apply BitVec.eq_of_getLsbD_eq
  intro i hi
  have : i = 0 ∨ i = 1 ∨ i = 2 ∨ i = 3 ∨ i = 4 ∨ i = 5 ∨ i = 6 ∨ i = 7 := by omega
  rcases this with h | h | h | h | h | h | h | h <;> subst h <;> simp only [getLsbD_shiftOut] <;> simp

/-! The bus. -/

theorem Dev.inRange_sound {d : Dev} (b : List Byte) (hl : d.line = Line.sound) : d.inRange b = frameInRange b := by
  simp [Dev.inRange, hl, Line.sound]

/-- A frame that has reached no address outside the store is in range on any bus. -/
theorem Dev.inRange_of {d : Dev} {b : List Byte} (h : frameInRange b = true) : d.inRange b = true := by
  simp [Dev.inRange, h]

theorem sample_sound {d : Dev} (n : Nat) (hl : d.line = Line.sound) : d.sample n = d.driven n := by
  simp [Dev.sample, hl, Line.sound, Wire.carry]

/-- What a stuck data-in line shows, whatever is at its other end (70_reset_and_hazards.md R275). -/
theorem sample_stuck {d : Dev} {w : Bool} (n : Nat) (hl : d.line.dataIn = .stuck w) :
    d.sample n = (w, (d.driven n).2) := by
  simp [Dev.sample, hl, Wire.carry]

/-! Pulses and samples in an open frame. -/

theorem pulse_first (m : Bool) (d : Dev) (n n' : Nat) (b rs : List Byte) {rv : List Byte} (acc r0 r : Byte)
    (ho : d.line.dataOut = .sound)
    (hf : d.frame = some ⟨b, rs, acc, 0, r0, rv⟩) (hr : replyFor d b n = .ok (r, n')) :
    d.pulse m n = .ok ({ d with frame := some ⟨b, rs, shiftIn acc m, 1, r, rv⟩ }, n') := by
  simp [Dev.pulse, hf, hr, takeBit, ho, Wire.carry]

theorem pulse_mid (m : Bool) (d : Dev) (n k : Nat) (b rs : List Byte) {rv : List Byte} (acc r : Byte)
    (ho : d.line.dataOut = .sound)
    (hf : d.frame = some ⟨b, rs, acc, k, r, rv⟩) (h0 : 0 < k) (h7 : k < 7) :
    d.pulse m n = .ok ({ d with frame := some ⟨b, rs, shiftIn acc m, k + 1, r, rv⟩ }, n) := by
  have : k ≠ 0 := by omega
  simp [Dev.pulse, hf, this, takeBit, h7, ho, Wire.carry]

theorem pulse_last (m : Bool) (d : Dev) (n : Nat) (b rs : List Byte) {rv : List Byte} (acc r : Byte)
    (ho : d.line.dataOut = .sound)
    (hf : d.frame = some ⟨b, rs, acc, 7, r, rv⟩) (hg : d.inRange (b ++ [shiftIn acc m]) = true) :
    d.pulse m n = .ok ({ d with frame := some ⟨b ++ [shiftIn acc m], rs ++ [r], 0, 0, r, rv⟩ }, n) := by
  simp [Dev.pulse, hf, takeBit, hg, ho, Wire.carry]

theorem sample_mid (d : Dev) (n k : Nat) (b rs : List Byte) {rv : List Byte} (acc r : Byte) (hl : d.line = Line.sound)
    (hf : d.frame = some ⟨b, rs, acc, k + 1, r, rv⟩) : d.sample n = (r.getLsbD (7 - k), n) := by
  simp [sample_sound _ hl, Dev.driven, hf, hl, Line.sound, lastPulse]

theorem sample_last (d : Dev) (n : Nat) (b rs : List Byte) {rv : List Byte} (acc r x : Byte) (hl : d.line = Line.sound)
    (hf : d.frame = some ⟨b ++ [x], rs, acc, 0, r, rv⟩) : d.sample n = (r.getLsbD 0, n) := by
  simp [sample_sound _ hl, Dev.driven, hf, hl, Line.sound, lastPulse]

/-- A pulse with no frame open changes nothing (40_transport.md R130). -/
theorem pulse_no_frame (m : Bool) (d : Dev) (n : Nat) (hf : d.frame = none) : d.pulse m n = .ok (d, n) := by
  simp [Dev.pulse, hf]

/-- One bit of an exchange. -/
theorem exchangeBits_succ {k n n' : Nat} {v r r' : Byte} {d d' : Dev}
    (h : Dev.exchangeBits (k + 1) v r d n = .ok (r', d', n')) :
    ∃ d1 n1, d.pulse v.msb n = .ok (d1, n1) ∧
      Dev.exchangeBits k (shiftOut v) (shiftIn r (d1.sample n1).1) d1 (d1.sample n1).2 = .ok (r', d', n') := by
  rw [Dev.exchangeBits] at h
  split at h
  · cases h
  · rename_i d1 n1 hp
    exact ⟨d1, n1, hp, h⟩

/-- What an exchange of bits gives: the bits sampled, shifted into what the accumulator had. -/
theorem exchangeBits_bits (k : Nat) : ∀ {n n' : Nat} {v r r' : Byte} {d d' : Dev},
    Dev.exchangeBits k v r d n = .ok (r', d', n') →
    ∃ bs : List Bool, bs.length = k ∧ ∀ x : Byte, Dev.exchangeBits k v x d n = .ok (bs.foldl shiftIn x, d', n') := by
  induction k with
  | zero =>
    intro n n' v r r' d d' h
    cases h
    exact ⟨[], rfl, fun _ => rfl⟩
  | succ k ih =>
    intro n n' v r r' d d' h
    obtain ⟨d1, n1, hp, h1⟩ := exchangeBits_succ h
    obtain ⟨bs, hl, hb⟩ := ih h1
    refine ⟨(d1.sample n1).1 :: bs, by simp [hl], fun x => ?_⟩
    rw [Dev.exchangeBits, hp]
    exact hb _

/-- A whole exchange does not depend on what the accumulator had. -/
theorem exchange_acc {n n' : Nat} {v r : Byte} {d d' : Dev} (h : d.exchange v n = .ok (r, d', n')) (x : Byte) :
    Dev.exchangeBits 8 v x d n = .ok (r, d', n') := by
  obtain ⟨bs, hl, hb⟩ := exchangeBits_bits 8 h
  rw [Dev.exchange, hb 0] at h
  injection h with h
  injection h with h _
  rw [hb x, ← h]
  match bs, hl with
  | [b7, b6, b5, b4, b3, b2, b1, b0], _ =>
    congr 2
    apply BitVec.eq_of_getLsbD_eq
    intro i hi
    have : i = 0 ∨ i = 1 ∨ i = 2 ∨ i = 3 ∨ i = 4 ∨ i = 5 ∨ i = 6 ∨ i = 7 := by omega
    rcases this with h | h | h | h | h | h | h | h <;> subst h <;>
      simp only [List.foldl, getLsbD_shiftIn] <;> simp

/-- One byte exchange of an open frame: the device takes v and gives its reply (20_memory.md R70; 40_transport.md R151). -/
theorem exchange_spec (v : Byte) (d : Dev) (n n' : Nat) (b rs : List Byte) {rv : List Byte} (acc r0 r : Byte)
    (hl : d.line = Line.sound)
    (hf : d.frame = some ⟨b, rs, acc, 0, r0, rv⟩) (hr : replyFor d b n = .ok (r, n'))
    (hg : frameInRange (b ++ [v]) = true) :
    d.exchange v n = .ok (r, { d with frame := some ⟨b ++ [v], rs ++ [r], 0, 0, r, rv⟩ }, n') := by
  obtain ⟨h7, h6, h5, h4, h3, h2, h1, h0⟩ := shiftOut_msb v
  have hacc := shiftIn_bits acc v
  have hres := shiftIn_bits 0 r
  have ho : d.line.dataOut = .sound := by rw [hl]; rfl
  unfold Dev.exchange
  simp only [Dev.exchangeBits, h7, h6, h5, h4, h3, h2, h1, h0]
  rw [pulse_first _ d n n' b rs acc r0 r ho hf hr]
  simp only []
  rw [sample_mid (k := 0) (hl := by exact hl) (hf := rfl), pulse_mid (ho := by exact ho) (hf := rfl) (h0 := by omega) (h7 := by omega)]
  simp only []
  rw [sample_mid (k := 1) (hl := by exact hl) (hf := rfl), pulse_mid (ho := by exact ho) (hf := rfl) (h0 := by omega) (h7 := by omega)]
  simp only []
  rw [sample_mid (k := 2) (hl := by exact hl) (hf := rfl), pulse_mid (ho := by exact ho) (hf := rfl) (h0 := by omega) (h7 := by omega)]
  simp only []
  rw [sample_mid (k := 3) (hl := by exact hl) (hf := rfl), pulse_mid (ho := by exact ho) (hf := rfl) (h0 := by omega) (h7 := by omega)]
  simp only []
  rw [sample_mid (k := 4) (hl := by exact hl) (hf := rfl), pulse_mid (ho := by exact ho) (hf := rfl) (h0 := by omega) (h7 := by omega)]
  simp only []
  rw [sample_mid (k := 5) (hl := by exact hl) (hf := rfl), pulse_mid (ho := by exact ho) (hf := rfl) (h0 := by omega) (h7 := by omega)]
  simp only []
  rw [sample_mid (k := 6) (hl := by exact hl) (hf := rfl),
    pulse_last (ho := by exact ho) (hf := rfl) (hg := by rw [hacc]; exact Dev.inRange_of hg)]
  simp only []
  rw [sample_last (hl := by exact hl) (hf := rfl), hacc]
  simpa using hres

/-- Eight copies of one level. -/
theorem shiftIn_same (m : Bool) :
    shiftIn (shiftIn (shiftIn (shiftIn (shiftIn (shiftIn (shiftIn (shiftIn 0 m) m) m) m) m) m) m) m =
      if m then 0xFF#8 else 0x00#8 := by
  cases m <;> decide

/-- One byte exchange on a stuck data-in line: the device takes v, what is read is the level that is stuck
(70_reset_and_hazards.md R275). -/
theorem exchange_stuck (v : Byte) (d : Dev) (w : Bool) (n n' : Nat) (b rs : List Byte) {rv : List Byte} (acc r0 r : Byte)
    (ho : d.line.dataOut = .sound) (hi : d.line.dataIn = .stuck w)
    (hf : d.frame = some ⟨b, rs, acc, 0, r0, rv⟩) (hr : replyFor d b n = .ok (r, n'))
    (hg : d.inRange (b ++ [v]) = true) :
    ∃ m, d.exchange v n =
      .ok (if w then 0xFF#8 else 0x00#8, { d with frame := some ⟨b ++ [v], rs ++ [r], 0, 0, r, rv⟩ }, m) := by
  obtain ⟨h7, h6, h5, h4, h3, h2, h1, h0⟩ := shiftOut_msb v
  have hacc := shiftIn_bits acc v
  rw [← shiftIn_same w]
  unfold Dev.exchange
  simp only [Dev.exchangeBits, h7, h6, h5, h4, h3, h2, h1, h0]
  rw [pulse_first _ d n n' b rs acc r0 r ho hf hr]
  simp only []
  rw [sample_stuck (hl := by exact hi), pulse_mid (ho := by exact ho) (hf := rfl) (h0 := by omega) (h7 := by omega)]
  simp only []
  rw [sample_stuck (hl := by exact hi), pulse_mid (ho := by exact ho) (hf := rfl) (h0 := by omega) (h7 := by omega)]
  simp only []
  rw [sample_stuck (hl := by exact hi), pulse_mid (ho := by exact ho) (hf := rfl) (h0 := by omega) (h7 := by omega)]
  simp only []
  rw [sample_stuck (hl := by exact hi), pulse_mid (ho := by exact ho) (hf := rfl) (h0 := by omega) (h7 := by omega)]
  simp only []
  rw [sample_stuck (hl := by exact hi), pulse_mid (ho := by exact ho) (hf := rfl) (h0 := by omega) (h7 := by omega)]
  simp only []
  rw [sample_stuck (hl := by exact hi), pulse_mid (ho := by exact ho) (hf := rfl) (h0 := by omega) (h7 := by omega)]
  simp only []
  rw [sample_stuck (hl := by exact hi), pulse_last (ho := by exact ho) (hf := rfl) (hg := by rw [hacc]; exact hg)]
  simp only []
  rw [sample_stuck (hl := by exact hi), hacc]
  exact ⟨_, rfl⟩

/-! Chip-select. -/

theorem openFrame_spec (s : State) (hw : s.dev.wip = false) :
    openFrame s = .ok (s.setDev { s.dev with frame := some Frame.empty }) := by
  simp [openFrame, Dev.openFrame, hw]

/-- A bracket cannot open during a write cycle (20_memory.md R80). -/
theorem openFrame_busy (s : State) (hp : s.dev.line.present = true) (hw : s.dev.wip = true) :
    openFrame s = .error .deviceBusyAccess := by
  simp [openFrame, Dev.openFrame, hw, hp]

/-! The reply of a READ's data phase, and the range of a frame. -/

theorem replyFor_read (d : Dev) (ah al : Byte) (xs : List Byte) (n : Nat) (hp : d.line.present = true)
    (h : frameAddr ah al + xs.length < Config.capacity) :
    replyFor d (Config.opcRead :: ah :: al :: xs) n = .ok (d.read (frameAddr ah al + xs.length), n) := by
  simp [replyFor, h, hp]

theorem replyFor_short (d : Dev) (b : List Byte) (n : Nat) (h : b.length < 3) :
    replyFor d b n = .ok (Config.freeByte n, n + 1) := by
  match b, h with
  | [], _ => rfl
  | [_], _ => rfl
  | [_, _], _ => rfl

theorem replyFor_write (d : Dev) (ah al : Byte) (xs : List Byte) (n : Nat) :
    replyFor d (Config.opcWrite :: ah :: al :: xs) n = .ok (Config.freeByte n, n + 1) := by
  simp [replyFor, Config.opcWrite, Config.opcRead]

theorem frameInRange_short (b : List Byte) (h : b.length < 3) : frameInRange b = true := by
  match b, h with
  | [], _ => rfl
  | [_], _ => rfl
  | [_, _], _ => rfl

theorem frameInRange_read (ah al : Byte) (xs : List Byte) (h : frameAddr ah al < Config.capacity) :
    frameInRange (Config.opcRead :: ah :: al :: xs) = true := by
  simpa [frameInRange] using h

theorem frameInRange_write (ah al : Byte) (ds : List Byte) (h : frameAddr ah al < Config.capacity)
    (h2 : frameAddr ah al + ds.length ≤ Config.capacity) :
    frameInRange (Config.opcWrite :: ah :: al :: ds) = true := by
  simp [frameInRange, Config.opcWrite, Config.opcRead]
  exact ⟨h, h2⟩

/-! Addresses through a frame's two bytes. -/

theorem getLsbD_joinHL (h l : Byte) (i : Nat) :
    (joinHL h l).getLsbD i = if i < 8 then l.getLsbD i else h.getLsbD (i - 8) := by
  have e := BitVec.getLsbD_append (x := h) (y := l) (i := i)
  unfold joinHL
  refine e.trans ?_
  split <;> simp_all

theorem getLsbD_hi8 (w : Half) (i : Nat) : (hi8 w).getLsbD i = (decide (i < 8) && w.getLsbD (8 + i)) := by
  simp [hi8]

theorem getLsbD_lo8 (w : Half) (i : Nat) : (lo8 w).getLsbD i = (decide (i < 8) && w.getLsbD i) := by
  simp [lo8]

@[simp] theorem joinHL_hi8_lo8 (w : Half) : joinHL (hi8 w) (lo8 w) = w := by
  apply BitVec.eq_of_getLsbD_eq
  intro i hi
  rw [getLsbD_joinHL, getLsbD_hi8, getLsbD_lo8]
  split
  · rename_i h; simp [h]
  · rename_i h
    have h3 : 8 + (i - 8) = i := by omega
    have h4 : i - 8 < 8 := by omega
    simp [h3, h4]

@[simp] theorem hi8_joinHL (h l : Byte) : hi8 (joinHL h l) = h := by
  apply BitVec.eq_of_getLsbD_eq
  intro i hi
  rw [getLsbD_hi8, getLsbD_joinHL]
  simp [hi]

@[simp] theorem lo8_joinHL (h l : Byte) : lo8 (joinHL h l) = l := by
  apply BitVec.eq_of_getLsbD_eq
  intro i hi
  rw [getLsbD_lo8, getLsbD_joinHL]
  simp [hi]

@[simp] theorem frameAddr_hi8_lo8 (w : Half) : frameAddr (hi8 w) (lo8 w) = w.toNat := by
  simp [frameAddr]

@[simp] theorem lo8_zext16 (b : Byte) : lo8 (zext16 b) = b := by
  apply BitVec.eq_of_getLsbD_eq
  intro i hi
  rw [getLsbD_lo8]
  simp [zext16, hi]
  omega

end Sys2Proof.Machine
end

