-- ==== Sys2Proof/Laws/Sequencer.lean ====
section
/-! SUPPORT. The sequencer item by item: register transfers, events, polls, and what the other agents do when the
schedule is empty. -/

namespace Sys2Proof.Machine

open Sys2Proof

@[simp] theorem runSeq_nil (s : State) : runSeq [] s = .went s := rfl

/-- A register transfer is done and SEQ moves on. -/
theorem runSeq_reg (u : Upd) (ms : List Micro) (s : State) :
    runSeq (.reg u :: ms) s = runSeq ms ((applyUpd u s).setSeq ms) := rfl

/-- With an empty schedule no other agent moves. -/
theorem envPoint_quiet {s : State} (h : s.sched = []) : envPoint s = .ok s := by
  unfold envPoint
  rw [h]

/-! Attempts. -/

/-- An item that is done at its first attempt. -/
theorem item_went {m : Micro} {s t : State} (h : attempt m s = .went t) : item m s = .went t := by
  simp only [item, holdTries, attempts, h]

theorem item_timedOut {m : Micro} {f : Flag} {s t : State} (h : attempt m s = .timedOut t f) :
    item m s = .timedOut t f := by
  simp only [item, holdTries, attempts, h]

theorem item_stopped {m : Micro} {s : State} {e : Fault} (h : attempt m s = .stopped e) : item m s = .stopped e := by
  simp only [item, holdTries, attempts, h]

/-- An item that holds and leaves the state as it is holds for ever. -/
theorem attempts_held {m : Micro} {s : State} (h : attempt m s = .held s) (n : Nat) : attempts n m s = .held s := by
  induction n with
  | zero => rfl
  | succ n ih => simp only [attempts, h, ih]

theorem waitHeld_other {a : Act} (s : State) (h : a ≠ .wait) : waitHeld a s = false := by simp [waitHeld, h]

/-- With an empty schedule an event other than the settle wait is just the framer's. -/
theorem attempt_ev {a : Act} {s : State} (hs : s.sched = []) (ha : a ≠ .wait) :
    attempt (.ev a) s = .ofExcept (perform a s) := by
  simp [attempt, envPoint_quiet hs, waitHeld_other s ha]

/-- An event that is performed: SEQ moves on. -/
theorem runSeq_ev {a : Act} {s t : State} (ms : List Micro) (hs : s.sched = []) (h : perform a s = .ok t)
    (ha : a ≠ .wait := by simp) : runSeq (.ev a :: ms) s = runSeq ms (t.setSeq ms) := by
  have e : item (.ev a) s = .went t := item_went (by rw [attempt_ev hs ha, h]; rfl)
  simp only [runSeq, e]

/-- An event that faults. -/
theorem runSeq_ev_fault {a : Act} {s : State} {e : Fault} (ms : List Micro) (hs : s.sched = [])
    (h : perform a s = .error e) (ha : a ≠ .wait := by simp) : runSeq (.ev a :: ms) s = .stopped e := by
  have e : item (.ev a) s = .stopped e := item_stopped (by rw [attempt_ev hs ha, h]; rfl)
  simp only [runSeq, e]

theorem commit_wip (d : Dev) : d.commit.wip = false := by
  unfold Dev.commit
  split
  · split <;> rfl
  · rename_i h; simpa using h

theorem commit_idle {s : State} (h : s.dev.wip = false) : commit s = s := by
  simp [commit, Dev.commit, h, State.setDev]

/-- Under O-SETTLE the settle wait waits for the device's Commit (70_reset_and_hazards.md R262). -/
theorem item_wait {s : State} (hs : s.sched = []) (ho : s.params.oSettle = true) :
    item (.ev .wait) s = .went (settleWait (commit s)) := by
  have hc : attempt (.ev .wait) (commit s) = .went (settleWait (commit s)) := by
    have hw : waitHeld .wait (commit s) = false := by simp [waitHeld, commit, commit_wip]
    have hq : (commit s).sched = [] := hs
    simp only [attempt, envPoint_quiet hq, hw, Bool.false_eq_true, if_false, perform, Move.ofExcept]
  rcases hw : s.dev.wip
  · rw [commit_idle hw] at hc ⊢
    exact item_went hc
  · have h1 : attempt (.ev .wait) s = .held (commit s) := by
      simp [attempt, envPoint_quiet hs, waitHeld, ho, hw]
    simp only [item, holdTries, attempts, h1, hc]

/-- Without O-SETTLE it is always enabled. -/
theorem item_wait_loose {s : State} (hs : s.sched = []) (ho : s.params.oSettle = false) :
    item (.ev .wait) s = .went (settleWait s) := by
  refine item_went ?_
  simp [attempt, envPoint_quiet hs, waitHeld, ho, perform, Move.ofExcept]

/-- A poll that succeeds: SEQ moves on. -/
theorem runSeq_poll {f : Flag} {s t : State} (ms : List Micro) (h : attempt (.poll f) s = .went t) :
    runSeq (.poll f :: ms) s = runSeq ms (t.setSeq ms) := by
  simp only [runSeq, item_went h]

/-- POLLCNT after a poll that succeeds at its first attempt (40_transport.md R144). -/
def pollLeft (s : State) : Nat :=
  match s.params.pollBudget with
  | none => s.regs.pollcnt
  | some n => n

/-- A poll of a flag that is 1, nobody else moving, succeeds at its first attempt (40_transport.md R144, R150). -/
theorem poll_ready {f : Flag} {s : State} (hs : s.sched = []) (hf : flagValue f s = true)
    (hb : s.params.pollBudget ≠ some 0) :
    attempt (.poll f) s = .went ((s.setRegs { s.regs with pollcnt := pollLeft s }).log (.poll f)) := by
  unfold attempt pollLeft
  rcases hp : s.params.pollBudget with _ | k
  · simp only [envPoint_quiet hs, hf, if_true]
    rfl
  · rcases k with _ | k
    · exact absurd hp hb
    · have h1 : (s.setRegs { s.regs with pollcnt := k + 1 }).sched = [] := hs
      have h2 : flagValue f (s.setRegs { s.regs with pollcnt := k + 1 }) = true := by
        rw [← hf]; cases f <;> rfl
      simp only [pollTries, envPoint_quiet h1, h2, if_true]

/-! A started operation, run whole. -/

theorem busy_idle {s : State} (h : s.seq = []) : s.busy = false := by simp [State.busy, h]

theorem bufRead_setSeq (s : State) (q : List Micro) (i : Nat) :
    bufRead (s.setSeq q) i = ((bufRead s i).1, (bufRead s i).2.setSeq q) := by
  unfold bufRead
  simp only [State.setSeq_buf]
  split <;> rfl

/-- A register transfer neither reads nor writes SEQ. -/
theorem applyUpd_setSeq (u : Upd) (s : State) (q : List Micro) : applyUpd u (s.setSeq q) = (applyUpd u s).setSeq q := by
  cases u with
  | request op src => cases src <;> simp only [applyUpd, srcValue, State.setSeq_regs, bufRead_setSeq] <;> rfl
  | loadShift sel => cases sel <;> rfl
  | _ => rfl

/-- Running on from the first event comes to what running the sequence does. -/
theorem runOp_toNextEvent (ms : List Micro) : ∀ s, runOp (toNextEvent ms s).seq (toNextEvent ms s) = runOp ms s := by
  induction ms with
  | nil => intro s; rfl
  | cons m ms ih =>
    intro s
    cases m with
    | reg u =>
      rw [toNextEvent, ih]
      unfold runOp
      rw [runSeq_reg, applyUpd_setSeq]
      rfl
    | ev a => rfl
    | poll f => rfl

/-- A host operation in one equation: latch, check, and either the error result or the whole sequence (10_state.md R30). -/
def runHost (op : BitVec 4) (addr data len : Half) (sequence : State → List Micro) (s : State) :
    Host.Outcome State Fault Refusal :=
  if s.busy then .refused .busy
  else
    match startCheck op addr len s with
    | some st => .next (errorResult st (latch op addr data len s))
    | none => runOp (sequence (accept len (latch op addr data len s))) (accept len (latch op addr data len s))

theorem whole_startHost (op : BitVec 4) (addr data len : Half) (f : State → List Micro) (s : State) :
    whole (startHost op addr data len f s) = runHost op addr data len f s := by
  unfold startHost runHost
  rcases hb : s.busy
  · simp only [Bool.false_eq_true, if_false]
    rcases startCheck op addr len s with _ | st
    · exact runOp_toNextEvent _ _
    · have hq : s.seq = [] := by simpa [State.busy] using hb
      have e : (errorResult st (latch op addr data len s)).setSeq [] = errorResult st (latch op addr data len s) := by
        rw [← hq]; rfl
      have hq' : (errorResult st (latch op addr data len s)).seq = [] := hq
      simp only [whole, hq', runOp, runSeq_nil, Move.outcome, e]
  · rfl

/-- A transport request in one equation (log 20). -/
def runTransport (ms : List Micro) (s : State) : Host.Outcome State Fault Refusal :=
  if s.busy then .refused .busy else runOp ms s

theorem whole_startTransport (ms : List Micro) (s : State) : whole (startTransport ms s) = runTransport ms s := by
  unfold startTransport runTransport
  rcases s.busy
  · exact runOp_toNextEvent ms s
  · rfl

theorem exec_init (a d l : Half) (s : State) :
    exec (.init a d l) s = runHost 0x0#4 a d l (fun t => initSeq t.params) s := whole_startHost _ _ _ _ _ _
theorem exec_readByte (a d l : Half) (s : State) :
    exec (.readByte a d l) s = runHost 0x1#4 a d l (fun t => readByteSeq t.params) s := whole_startHost _ _ _ _ _ _
theorem exec_writeByte (a d l : Half) (s : State) :
    exec (.writeByte a d l) s = runHost 0x2#4 a d l (fun t => writeByteSeq t.params) s := whole_startHost _ _ _ _ _ _
theorem exec_readWord (a d l : Half) (s : State) :
    exec (.readWord a d l) s = runHost 0x3#4 a d l (fun t => readWordSeq t.params) s := whole_startHost _ _ _ _ _ _
theorem exec_writeWord (a d l : Half) (s : State) :
    exec (.writeWord a d l) s = runHost 0x4#4 a d l (fun t => writeWordSeq t.params) s := whole_startHost _ _ _ _ _ _
theorem exec_readArray (a d l : Half) (s : State) :
    exec (.readArray a d l) s = runHost 0x5#4 a d l (fun t => readArraySeq t.params t.regs.len.toNat) s :=
  whole_startHost _ _ _ _ _ _
theorem exec_writeArray (a d l : Half) (s : State) :
    exec (.writeArray a d l) s = runHost 0x6#4 a d l (fun t => writeArraySeq t.params t.regs.len.toNat) s :=
  whole_startHost _ _ _ _ _ _
theorem exec_eraseAll (a d l : Half) (s : State) :
    exec (.eraseAll a d l) s = runHost 0x7#4 a d l (fun t => eraseAllSeq t.params) s := whole_startHost _ _ _ _ _ _
theorem exec_reservedHost (k : BitVec 3) (a d l : Half) (s : State) :
    exec (.reservedHost k a d l) s = runHost (1#1 ++ k) a d l (fun _ => []) s := whole_startHost _ _ _ _ _ _
theorem exec_sendByte (t : Half) (s : State) :
    exec (.sendByte t) s = runTransport (callSendByte s.params (.const t)) s := whole_startTransport _ _
theorem exec_sendWord (t : Half) (s : State) :
    exec (.sendWord t) s = runTransport (callSendWord s.params (.const t)) s := whole_startTransport _ _
theorem exec_receiveByte (t : Half) (s : State) :
    exec (.receiveByte t) s = runTransport (.reg (.request 2#2 (.const t)) :: recvByteSeq s.params) s :=
  whole_startTransport _ _

/-! Loops, and the pins. -/

theorem repeatSeq_succ_append (n : Nat) (ms rest : List Micro) :
    repeatSeq (n + 1) ms ++ rest = ms ++ (repeatSeq n ms ++ rest) := by
  simp [repeatSeq, List.append_assoc]

/-- A pulse of the machine's device. -/
theorem pulse_ok {m : Bool} {s : State} {d : Dev} {n : Nat} (h : s.dev.pulse m s.draws = .ok (d, n)) :
    pulse m s = .ok ((s.setDev d).setDraws n) := by
  unfold pulse
  rw [h]

/-- What a Drive does on an output pin, chip-select apart. -/
theorem drivePin_sck_high {s : State} {d : Dev} {n : Nat} (hd : s.pins.dirSck = .output) (hk : s.pins.outSck = false)
    (hp : s.dev.pulse s.pins.outMosi s.draws = .ok (d, n)) :
    drivePin .sck true s =
      .ok ((((s.log (.drive .sck true)).setPins { s.pins with outSck := true }).setDev d).setDraws n) := by
  simp [drivePin, pinDir, hd, lineLevel, hk, pulse, hp]

theorem drivePin_sck_low {s : State} (hd : s.pins.dirSck = .output) :
    drivePin .sck false s = .ok ((s.log (.drive .sck false)).setPins { s.pins with outSck := false }) := by
  simp [drivePin, pinDir, hd, lineLevel]

theorem drivePin_mosi {s : State} (v : Bool) (hd : s.pins.dirMosi = .output) :
    drivePin .mosi v s = .ok ((s.log (.drive .mosi v)).setPins { s.pins with outMosi := v }) := by
  simp [drivePin, pinDir, hd, lineLevel]

/-- A Drive on a pin that is no output is the fault PinNotOutput (10_state.md R37). -/
theorem drivePin_input {s : State} {p : OutPin} (v : Bool) (hd : pinDir p s = .input) :
    drivePin p v s = .error .pinNotOutput := by
  simp [drivePin, hd]

theorem perform_sample {s : State} {b : Bool} {n : Nat} (h : s.dev.sample s.draws = (b, n)) :
    perform .sample s = .ok (((s.setDraws n).setRegs { s.regs with
      rxacc := shiftIn s.regs.rxacc b, bitcnt := s.regs.bitcnt + 1 }).log (.sample b)) := by
  simp [perform, sampleMiso, h]

/-- One bit sent (40_transport.md R131). -/
theorem runSeq_sendBit {s : State} {d : Dev} {n : Nat} (ms : List Micro) (hs : s.sched = [])
    (hk : s.pins.dirSck = .output) (hm : s.pins.dirMosi = .output) (hl : s.pins.outSck = false)
    (hp : s.dev.pulse s.regs.shift.msb s.draws = .ok (d, n)) :
    runSeq (sendBitSeq ++ ms) s = runSeq ms { s with
      seq := ms
      regs := { s.regs with shift := shiftOut s.regs.shift, bitcnt := s.regs.bitcnt + 1 }
      pins := { s.pins with outMosi := s.regs.shift.msb, outSck := false }
      dev := d, draws := n
      trace := .drive .sck false :: .drive .sck true :: .drive .mosi s.regs.shift.msb :: s.trace } := by
  simp only [sendBitSeq, List.cons_append, List.nil_append]
  rw [runSeq_ev (a := .driveMosi) (t := (s.log (.drive .mosi s.regs.shift.msb)).setPins { s.pins with outMosi := s.regs.shift.msb })
    _ hs (by simp [perform, drivePin_mosi, hm])]
  rw [runSeq_ev (a := .drive .sck true) _ (by simpa using hs)
    (drivePin_sck_high (d := d) (n := n) (by simpa using hk) (by simpa using hl) (by simpa using hp))]
  rw [runSeq_ev (a := .drive .sck false) _ (by simpa using hs) (drivePin_sck_low (by simpa using hk))]
  rw [runSeq_reg]
  simp only [hl]
  rfl

/-- One bit received, sampled after the pulse (40_transport.md R136). -/
theorem runSeq_recvBit_afterPulse {s : State} {d : Dev} {n n' : Nat} {b : Bool} (ms : List Micro)
    (hsp : s.params.samplePoint = .afterPulse) (hs : s.sched = []) (hk : s.pins.dirSck = .output)
    (hl : s.pins.outSck = false) (hp : s.dev.pulse s.pins.outMosi s.draws = .ok (d, n)) (hb : d.sample n = (b, n')) :
    runSeq (recvBitSeq s.params ++ ms) s = runSeq ms { s with
      seq := ms
      regs := { s.regs with rxacc := shiftIn s.regs.rxacc b, bitcnt := s.regs.bitcnt + 1 }
      pins := { s.pins with outSck := false }
      dev := d, draws := n'
      trace := .sample b :: .drive .sck false :: .drive .sck true :: s.trace } := by
  simp only [recvBitSeq, hsp, List.cons_append, List.nil_append]
  rw [runSeq_ev (a := .drive .sck true) _ hs (drivePin_sck_high (d := d) (n := n) hk hl hp)]
  rw [runSeq_ev (a := .drive .sck false) _ (by simpa using hs) (drivePin_sck_low (by simpa using hk))]
  rw [runSeq_ev (a := .sample) _ (by simpa using hs) (perform_sample (b := b) (n := n') (by simpa using hb))]
  simp only [State.setPins, State.setDev, State.setDraws, State.log, State.setSeq, State.setRegs]

/-- One bit received, sampled while the clock is high (40_transport.md R136; 92 D11). -/
theorem runSeq_recvBit_whileHigh {s : State} {d : Dev} {n n' : Nat} {b : Bool} (ms : List Micro)
    (hsp : s.params.samplePoint = .whileHigh) (hs : s.sched = []) (hk : s.pins.dirSck = .output)
    (hl : s.pins.outSck = false) (hp : s.dev.pulse s.pins.outMosi s.draws = .ok (d, n)) (hb : d.sample n = (b, n')) :
    runSeq (recvBitSeq s.params ++ ms) s = runSeq ms { s with
      seq := ms
      regs := { s.regs with rxacc := shiftIn s.regs.rxacc b, bitcnt := s.regs.bitcnt + 1 }
      pins := { s.pins with outSck := false }
      dev := d, draws := n'
      trace := .drive .sck false :: .sample b :: .drive .sck true :: s.trace } := by
  simp only [recvBitSeq, hsp, List.cons_append, List.nil_append]
  rw [runSeq_ev (a := .drive .sck true) _ hs (drivePin_sck_high (d := d) (n := n) hk hl hp)]
  rw [runSeq_ev (a := .sample) _ (by simpa using hs) (perform_sample (b := b) (n := n') (by simpa using hb))]
  rw [runSeq_ev (a := .drive .sck false) _ (by simpa using hs) (drivePin_sck_low (by simpa using hk))]
  simp only [State.setPins, State.setDev, State.setDraws, State.log, State.setSeq, State.setRegs]

end Sys2Proof.Machine
end

