-- ==== Sys2Proof/Laws/Transport.lean ====
section
/-! SUPPORT. The transport in both modes: one byte sent, one byte received, chip-select, the settle wait. Every lemma says
what is left of the state by `visible`. -/

namespace Sys2Proof.Machine

open Sys2Proof

/-! What `visible` shows. -/

theorem visible_linked {s t : State} (h : visible t = visible s) : Linked s → Linked t := by
  have h1 : t.sched = s.sched := congrArg (fun x => x.sched) h
  have h2 : t.params = s.params := congrArg (fun x => x.params) h
  have h3 : t.pins.dirSck = s.pins.dirSck := congrArg (fun x => x.pins.dirSck) h
  have h4 : t.pins.dirMosi = s.pins.dirMosi := congrArg (fun x => x.pins.dirMosi) h
  have h5 : t.pins.outSck = s.pins.outSck := congrArg (fun x => x.pins.outSck) h
  have h6 : t.ctl.live = s.ctl.live := congrArg (fun x => x.ctl.live) h
  have h7 : t.ctl.txrdy = s.ctl.txrdy := congrArg (fun x => x.ctl.txrdy) h
  have h8 : t.dev.line = s.dev.line := congrArg (fun x => x.dev.line) h
  simp only [Linked, h1, h2, h3, h4, h5, h6, h7, h8, imp_self]

theorem visible_params {s t : State} (h : visible t = visible s) : t.params = s.params := congrArg (fun x => x.params) h
theorem visible_dev {s t : State} (h : visible t = visible s) : t.dev = s.dev := congrArg (fun x => x.dev) h
theorem visible_dirCs {s t : State} (h : visible t = visible s) : t.pins.dirCs = s.pins.dirCs :=
  congrArg (fun x => x.pins.dirCs) h
theorem visible_outCs {s t : State} (h : visible t = visible s) : t.pins.outCs = s.pins.outCs :=
  congrArg (fun x => x.pins.outCs) h
theorem visible_buf {s t : State} (h : visible t = visible s) : t.buf = s.buf := congrArg (fun x => x.buf) h
theorem visible_addr {s t : State} (h : visible t = visible s) : t.regs.addr = s.regs.addr :=
  congrArg (fun x => x.regs.addr) h
theorem visible_wdata {s t : State} (h : visible t = visible s) : t.regs.wdata = s.regs.wdata :=
  congrArg (fun x => x.regs.wdata) h
theorem visible_idx {s t : State} (h : visible t = visible s) : t.regs.idx = s.regs.idx :=
  congrArg (fun x => x.regs.idx) h
theorem visible_rdata {s t : State} (h : visible t = visible s) : t.regs.rdata = s.regs.rdata :=
  congrArg (fun x => x.regs.rdata) h

@[simp] theorem visible_visible (s : State) : visible (visible s) = visible s := by
  unfold visible
  simp only []
  congr 1 <;> (congr 1 <;> split <;> rfl)

/-! Runs of a part of a sequence. -/

/-- The items `ms` take `s` to `t`, whatever follows them; SEQ moves past them. -/
def Runs (ms : List Micro) (s t : State) : Prop :=
  ∀ rest q, ∃ q', runSeq (ms ++ rest) (s.setSeq q) = runSeq rest (t.setSeq q') ∧ (q = ms ++ rest → q' = rest)

theorem Runs.nil (s : State) : Runs [] s s := fun _ q => ⟨q, rfl, id⟩

theorem Runs.append {a b : List Micro} {s t u : State} (h1 : Runs a s t) (h2 : Runs b t u) : Runs (a ++ b) s u := by
  intro rest q
  obtain ⟨q1, e1, g1⟩ := h1 (b ++ rest) q
  obtain ⟨q2, e2, g2⟩ := h2 rest q1
  exact ⟨q2, by rw [List.append_assoc, e1, e2], fun hq => g2 (g1 (by rw [hq, List.append_assoc]))⟩

theorem Runs.cons {m : Micro} {b : List Micro} {s t u : State} (h1 : Runs [m] s t) (h2 : Runs b t u) :
    Runs (m :: b) s u := Runs.append h1 h2

/-- What a whole sequence that runs comes to. -/
theorem Runs.whole {ms : List Micro} {s t : State} (h : Runs ms s t) : runOp ms s = .next (t.setSeq []) := by
  obtain ⟨q', e, g⟩ := h [] ms
  rw [List.append_nil] at e g
  unfold runOp
  rw [e, g rfl]
  rfl

theorem Runs.reg (u : Upd) (s : State) (h : ∀ q, applyUpd u (s.setSeq q) = (applyUpd u s).setSeq q := by intros; rfl) :
    Runs [.reg u] s (applyUpd u s) := by
  intro rest q
  refine ⟨rest, ?_, fun _ => rfl⟩
  rw [List.singleton_append, runSeq_reg, h]
  rfl

theorem Runs.ev {a : Act} {s t : State} (hs : s.sched = [])
    (h : ∀ q, perform a (s.setSeq q) = .ok (t.setSeq q)) (ha : a ≠ .wait := by simp) : Runs [.ev a] s t := by
  intro rest q
  refine ⟨rest, ?_, fun _ => rfl⟩
  rw [List.singleton_append, runSeq_ev rest (by simpa using hs) (h q) ha]
  rfl

/-- What a sequence comes to that runs up to an event which faults. -/
theorem Runs.faults {ms rest : List Micro} {a : Act} {s t : State} {e : Fault} (h : Runs ms s t) (hs : t.sched = [])
    (hp : ∀ q, perform a (t.setSeq q) = .error e) (ha : a ≠ .wait := by simp) :
    runOp (ms ++ .ev a :: rest) s = .fault e := by
  obtain ⟨q', e1, -⟩ := h (.ev a :: rest) (ms ++ .ev a :: rest)
  unfold runOp
  rw [e1, runSeq_ev_fault rest (by simpa using hs) (hp q') ha]
  rfl

theorem Runs.cast {ms : List Micro} {s t u : State} (h : Runs ms s t) (e : t = u) : Runs ms s u := e ▸ h

/-! One byte in bit-bang mode. -/

theorem Runs.sendBit {s : State} {d : Dev} {n : Nat} (hs : s.sched = [])
    (hk : s.pins.dirSck = .output) (hm : s.pins.dirMosi = .output) (hl : s.pins.outSck = false)
    (hp : s.dev.pulse s.regs.shift.msb s.draws = .ok (d, n)) :
    Runs sendBitSeq s { s with
      regs := { s.regs with shift := shiftOut s.regs.shift, bitcnt := s.regs.bitcnt + 1 }
      pins := { s.pins with outMosi := s.regs.shift.msb, outSck := false }
      dev := d, draws := n
      trace := .drive .sck false :: .drive .sck true :: .drive .mosi s.regs.shift.msb :: s.trace } := by
  intro rest q
  exact ⟨rest, runSeq_sendBit rest hs hk hm hl hp, fun _ => rfl⟩

theorem getLsbD_shiftOut_zero (v : Byte) : (shiftOut v).getLsbD 0 = false := by rw [getLsbD_shiftOut]; simp

/-- A byte sent in bit-bang mode (40_transport.md R131). -/
theorem send_bitbang {s : State} {sel : ByteSel} {v r r0 : Byte} {n : Nat} {b rs rv : List Byte}
    (hm : s.params.mode = .bitbang) (hL : Linked s) (hv : reqByte sel s = v)
    (hf : s.dev.frame = some ⟨b, rs, 0, 0, r0, rv⟩) (hr : replyFor s.dev b s.draws = .ok (r, n))
    (hg : frameInRange (b ++ [v]) = true) :
    Runs (sendByteSeq s.params sel) s { s with
      regs := { s.regs with shift := 0, bitcnt := 8 }
      pins := { s.pins with outMosi := v.getLsbD 0, outSck := false }
      dev := { s.dev with frame := some ⟨b ++ [v], rs ++ [r], 0, 0, r, rv⟩ }
      draws := n
      trace := (sendTrace s.params v).reverse ++ s.trace } := by
  obtain ⟨hs, hb, -, hln⟩ := hL
  have ho : s.dev.line.dataOut = .sound := by rw [hln]; rfl
  obtain ⟨hk, hmo, hl⟩ := hb hm
  obtain ⟨h7, h6, h5, h4, h3, h2, h1, h0⟩ := shiftOut_msb v
  have hacc := shiftIn_bits 0 v
  have e : sendByteSeq s.params sel = .reg (.loadShift sel) :: (sendBitSeq ++ (sendBitSeq ++ (sendBitSeq ++ (sendBitSeq ++
      (sendBitSeq ++ (sendBitSeq ++ (sendBitSeq ++ (sendBitSeq ++ [])))))))) := by
    simp only [sendByteSeq, hm, repeatSeq]
  rw [e]
  refine Runs.cons (Runs.reg _ _ (by cases sel <;> (intros; rfl))) ?_
  have hr' : replyFor (applyUpd (.loadShift sel) s).dev b (applyUpd (.loadShift sel) s).draws = .ok (r, n) := hr
  have hs0 : (applyUpd (.loadShift sel) s).regs.shift = v := hv
  refine Runs.append (Runs.sendBit hs hk hmo hl (pulse_first _ _ _ _ b rs 0 r0 r ho hf hr')) ?_
  refine Runs.append (Runs.sendBit hs hk hmo rfl (pulse_mid _ _ _ 1 b rs _ r ho rfl (by omega) (by omega))) ?_
  refine Runs.append (Runs.sendBit hs hk hmo rfl (pulse_mid _ _ _ 2 b rs _ r ho rfl (by omega) (by omega))) ?_
  refine Runs.append (Runs.sendBit hs hk hmo rfl (pulse_mid _ _ _ 3 b rs _ r ho rfl (by omega) (by omega))) ?_
  refine Runs.append (Runs.sendBit hs hk hmo rfl (pulse_mid _ _ _ 4 b rs _ r ho rfl (by omega) (by omega))) ?_
  refine Runs.append (Runs.sendBit hs hk hmo rfl (pulse_mid _ _ _ 5 b rs _ r ho rfl (by omega) (by omega))) ?_
  refine Runs.append (Runs.sendBit hs hk hmo rfl (pulse_mid _ _ _ 6 b rs _ r ho rfl (by omega) (by omega))) ?_
  refine Runs.append (Runs.sendBit hs hk hmo rfl (pulse_last _ _ _ b rs _ r ho rfl ?_)) ?_
  · simp only [hs0, h7, h6, h5, h4, h3, h2, h1, h0, hacc]
    exact Dev.inRange_of hg
  · refine Runs.cast (Runs.nil _) ?_
    simp only [hs0, h7, h6, h5, h4, h3, h2, h1, h0, hacc, shiftOut_eight, sendTrace, hm, byBit]
    simp only [applyUpd, State.setRegs, List.reverse_cons, List.reverse_nil,
      List.nil_append, List.cons_append]
    rfl

theorem Runs.recvBit {p : Params} {s : State} {d : Dev} {n n' : Nat} {b : Bool} {tr : List Event} (hpar : s.params = p) (hs : s.sched = [])
    (hk : s.pins.dirSck = .output) (hl : s.pins.outSck = false) (hp : s.dev.pulse s.pins.outMosi s.draws = .ok (d, n))
    (hb : d.sample n = (b, n'))
    (ht : tr = match p.samplePoint with
      | .afterPulse => [.sample b, .drive .sck false, .drive .sck true]
      | .whileHigh => [.drive .sck false, .sample b, .drive .sck true]) :
    Runs (recvBitSeq p) s { s with
      regs := { s.regs with rxacc := shiftIn s.regs.rxacc b, bitcnt := s.regs.bitcnt + 1 }
      pins := { s.pins with outSck := false }
      dev := d, draws := n'
      trace := tr ++ s.trace } := by
  intro rest q
  refine ⟨rest, ?_, fun _ => rfl⟩
  subst ht
  subst hpar
  rcases hsp : s.params.samplePoint
  · exact runSeq_recvBit_afterPulse (s := s.setSeq q) rest hsp hs hk hl hp hb
  · exact runSeq_recvBit_whileHigh (s := s.setSeq q) rest hsp hs hk hl hp hb

/-- The events of one bit received (40_transport.md R136). -/
def bitTrace (p : Params) (b : Bool) : List Event :=
  match p.samplePoint with
  | .afterPulse => [.drive .sck true, .drive .sck false, .sample b]
  | .whileHigh => [.drive .sck true, .sample b, .drive .sck false]

theorem recvTrace_bitbang {p : Params} (r : Byte) (hm : p.mode = .bitbang) : recvTrace p r = byBit r (bitTrace p) := by
  unfold recvTrace bitTrace
  rw [hm]
  cases p.samplePoint <;> rfl

/-- Bits received while data-out holds its level, which is an exchange of as many copies of it. -/
theorem recvBits_spec (p : Params) (k : Nat) : ∀ {s : State} {v r : Byte} {d : Dev} {n : Nat}, s.params = p → k ≤ 8 →
    s.sched = [] → s.pins.dirSck = .output → s.pins.outSck = false →
    (∀ i, i < k → v.getLsbD (7 - i) = s.pins.outMosi) →
    Dev.exchangeBits k v s.regs.rxacc s.dev s.draws = .ok (r, d, n) →
    ∃ bs : List Bool, bs.length = k ∧ r = bs.foldl shiftIn s.regs.rxacc ∧
      Runs (repeatSeq k (recvBitSeq p)) s { s with
        regs := { s.regs with rxacc := r, bitcnt := s.regs.bitcnt + BitVec.ofNat 4 k }
        pins := { s.pins with outSck := false }
        dev := d, draws := n
        trace := (bs.flatMap (bitTrace p)).reverse ++ s.trace } := by
  induction k with
  | zero =>
    intro s v r d n _ _ _ _ hl _ hx
    cases hx
    refine ⟨[], rfl, rfl, Runs.cast (Runs.nil s) ?_⟩
    have hp : ({ s.pins with outSck := false } : Pins) = s.pins := by rw [← hl]
    have hb : s.regs.bitcnt + BitVec.ofNat 4 0 = s.regs.bitcnt := BitVec.add_zero _
    rw [hp, hb]
    rfl
  | succ k ih =>
    intro s v r d n hpar hk hs hd hl hv hx
    obtain ⟨d1, n1, hp, hx1⟩ := exchangeBits_succ hx
    have h0 := hv 0 (by omega)
    rw [msb_eq_bit7, h0] at hp
    have R := Runs.recvBit (p := p) (tr := (bitTrace p (d1.sample n1).1).reverse) hpar hs hd hl hp rfl
      (by unfold bitTrace; cases p.samplePoint <;> rfl)
    obtain ⟨bs, hb, hr, R2⟩ := ih (s := { s with
      regs := { s.regs with rxacc := shiftIn s.regs.rxacc (d1.sample n1).1, bitcnt := s.regs.bitcnt + 1 }
      pins := { s.pins with outSck := false }
      dev := d1, draws := (d1.sample n1).2
      trace := (bitTrace p (d1.sample n1).1).reverse ++ s.trace }) hpar (by omega) hs hd rfl
      (by intro i hi
          rw [getLsbD_shiftOut, show 7 - i - 1 = 7 - (i + 1) by omega, hv (i + 1) (by omega)]
          simp only [show 7 - i < 8 by omega, show 0 < 7 - i by omega, decide_true, Bool.true_and]) hx1
    refine ⟨(d1.sample n1).1 :: bs, by simp [hb], hr, Runs.cast (Runs.append R R2) ?_⟩
    have hc : s.regs.bitcnt + 1 + BitVec.ofNat 4 k = s.regs.bitcnt + BitVec.ofNat 4 (k + 1) := by
      rw [BitVec.add_assoc]
      congr 1
      apply BitVec.eq_of_toNat_eq
      simp
      omega
    simp only [hc, List.flatMap_cons, List.reverse_append, List.append_assoc]

/-- A byte received in bit-bang mode is an exchange of eight copies of the data-out level: what it returns, whatever the
bus and the frame are like (40_transport.md R136; 20_memory.md R83). -/
theorem recv_exchange {s : State} {r : Byte} {d : Dev} {n : Nat} (hm : s.params.mode = .bitbang) (hW : Wired s)
    (hx : s.dev.exchange (if s.pins.outMosi then 0xFF#8 else 0x00#8) s.draws = .ok (r, d, n)) :
    Runs (recvByteSeq s.params) s { s with
      regs := { s.regs with rxacc := r, bitcnt := 8, tret := r }
      pins := { s.pins with outSck := false }
      dev := d.note r
      draws := n
      trace := (recvTrace s.params r).reverse ++ s.trace } := by
  obtain ⟨hs, hb, -⟩ := hW
  obtain ⟨hk, -, hl⟩ := hb hm
  have e : recvByteSeq s.params = .reg .clearRx :: (repeatSeq 8 (recvBitSeq s.params) ++ [.reg .returnRx]) := by
    simp only [recvByteSeq, hm]
  have hv : ∀ i, i < 8 → (if s.pins.outMosi then 0xFF#8 else 0x00#8).getLsbD (7 - i) = s.pins.outMosi := by
    intro i hi
    have : i = 0 ∨ i = 1 ∨ i = 2 ∨ i = 3 ∨ i = 4 ∨ i = 5 ∨ i = 6 ∨ i = 7 := by omega
    rcases this with h | h | h | h | h | h | h | h <;> subst h <;> cases s.pins.outMosi <;> rfl
  obtain ⟨bs, hlen, hr, R⟩ := recvBits_spec s.params 8 (s := applyUpd .clearRx s) rfl (Nat.le_refl 8) hs hk hl hv hx
  rw [e]
  refine Runs.cons (Runs.reg _ _) (Runs.append R (Runs.cast (Runs.reg _ _) ?_))
  have ht : recvTrace s.params r = bs.flatMap (bitTrace s.params) := by
    match bs, hlen with
    | [b7, b6, b5, b4, b3, b2, b1, b0], _ =>
      have g : r = shiftIn (shiftIn (shiftIn (shiftIn (shiftIn (shiftIn (shiftIn (shiftIn 0 b7) b6) b5) b4) b3) b2) b1) b0 :=
        hr
      have g7 : r.getLsbD 7 = b7 := by rw [g]; simp only [getLsbD_shiftIn]; simp
      have g6 : r.getLsbD 6 = b6 := by rw [g]; simp only [getLsbD_shiftIn]; simp
      have g5 : r.getLsbD 5 = b5 := by rw [g]; simp only [getLsbD_shiftIn]; simp
      have g4 : r.getLsbD 4 = b4 := by rw [g]; simp only [getLsbD_shiftIn]; simp
      have g3 : r.getLsbD 3 = b3 := by rw [g]; simp only [getLsbD_shiftIn]; simp
      have g2 : r.getLsbD 2 = b2 := by rw [g]; simp only [getLsbD_shiftIn]; simp
      have g1 : r.getLsbD 1 = b1 := by rw [g]; simp only [getLsbD_shiftIn]; simp
      have g0 : r.getLsbD 0 = b0 := by rw [g]; simp only [getLsbD_shiftIn]; simp
      rw [recvTrace_bitbang r hm]
      simp only [byBit, g7, g6, g5, g4, g3, g2, g1, g0, List.flatMap_cons, List.flatMap_nil, List.append_assoc,
        List.append_nil]
  rw [ht]
  rfl

/-- A transport that works on a sound bus is wired. -/
theorem Linked.wired {s : State} (h : Linked s) : Wired s := ⟨h.1, h.2.1, h.2.2.1, rfl⟩

/-! One byte in controller mode, reference controller. -/

theorem Runs.poll {f : Flag} {s : State} (hs : s.sched = []) (hf : flagValue f s = true)
    (hb : s.params.pollBudget ≠ some 0) :
    Runs [.poll f] s ((s.setRegs { s.regs with pollcnt := pollLeft s }).log (.poll f)) := by
  intro rest q
  refine ⟨rest, ?_, fun _ => rfl⟩
  have hf' : flagValue f (s.setSeq q) = true := by rw [← hf]; cases f <;> rfl
  rw [List.singleton_append, runSeq_poll rest (poll_ready (s := s.setSeq q) hs hf' hb)]
  rfl

/-- A write of TXBUF that the reference controller takes: the exchange is done inside the step (40_transport.md R150). -/
theorem ctlWrite_atomic {s : State} {v r : Byte} {d : Dev} {n : Nat} (ha : s.params.ctrlAtomic = true)
    (hl : s.ctl.live = true) (hx : s.dev.exchange v s.draws = .ok (r, d, n)) :
    ctlWrite v s = .ok { s with
      ctl := { s.ctl with txbuf := v, rxbuf := r, rxrdy := true, txrdy := true }, dev := d, draws := n } := by
  have h : (s.setCtl { s.ctl with txbuf := v }).dev.exchange v (s.setCtl { s.ctl with txbuf := v }).draws = _ := hx
  unfold ctlWrite
  rw [if_pos ha, if_pos hl]
  unfold exchange
  rw [h]
  rfl

/-- A byte sent in controller mode (40_transport.md R140, R150). -/
theorem send_controller {s : State} {sel : ByteSel} {v r : Byte} {d : Dev} {n : Nat}
    (hm : s.params.mode = .controller) (hL : Linked s) (hv : reqByte sel s = v)
    (hx : s.dev.exchange v s.draws = .ok (r, d, n)) :
    Runs (sendByteSeq s.params sel) s { s with
      regs := { s.regs with pollcnt := pollLeft s }
      ctl := { s.ctl with txbuf := v, rxbuf := r, rxrdy := true, txrdy := true }
      dev := d
      draws := n
      trace := (sendTrace s.params v).reverse ++ s.trace } := by
  obtain ⟨hs, -, hc, -⟩ := hL
  obtain ⟨ha, hl, ht, hb⟩ := hc hm
  have e : sendByteSeq s.params sel = .poll .txrdy :: ([.ev (.regWrite sel)] ++ []) := by simp only [sendByteSeq, hm]; rfl
  rw [e]
  have hfl : flagValue .txrdy s = true := by simp [flagValue, ha, hl, ht]
  refine Runs.cons (Runs.poll hs hfl hb) (Runs.append (Runs.ev hs (t := { s with
      regs := { s.regs with pollcnt := pollLeft s }
      ctl := { s.ctl with txbuf := v, rxbuf := r, rxrdy := true, txrdy := true }
      dev := d
      draws := n
      trace := .regWrite v :: .poll .txrdy :: s.trace }) ?_) (Runs.cast (Runs.nil _) ?_))
  · intro q
    have hv' : reqByte sel (((s.setRegs { s.regs with pollcnt := pollLeft s }).log (.poll .txrdy)).setSeq q) = v := by
      rw [← hv]; cases sel <;> rfl
    simp only [perform, hv']
    exact ctlWrite_atomic ha hl hx
  · simp only [sendTrace, hm]
    rfl

/-- A byte received in controller mode (40_transport.md R141, R150). -/
theorem recv_controller {s : State} {r : Byte} {d : Dev} {n : Nat} (hm : s.params.mode = .controller) (hL : Wired s)
    (hx : s.dev.exchange Config.dummy s.draws = .ok (r, d, n)) :
    Runs (recvByteSeq s.params) s { s with
      regs := { s.regs with pollcnt := pollLeft s, tret := r }
      ctl := { s.ctl with txbuf := Config.dummy, rxbuf := r, rxrdy := false, txrdy := true }
      dev := d.note r
      draws := n
      trace := (recvTrace s.params r).reverse ++ s.trace } := by
  have hs : s.sched = [] := hL.1
  obtain ⟨ha, hl, ht, hb⟩ : s.params.ctrlAtomic = true ∧ s.ctl.live = true ∧ s.ctl.txrdy = true ∧
    s.params.pollBudget ≠ some 0 := hL.2.2.1 hm
  have e : recvByteSeq s.params = .ev .regWriteDummy :: .poll .rxrdy :: ([.ev .regRead] ++ []) := by
    simp only [recvByteSeq, hm]; rfl
  rw [e]
  refine Runs.cons (Runs.ev hs (t := { s with
      ctl := { s.ctl with txbuf := Config.dummy, rxbuf := r, rxrdy := true, txrdy := true }
      dev := d
      draws := n
      trace := .regWrite Config.dummy :: s.trace }) ?_) ?_
  · intro q
    simp only [perform]
    exact ctlWrite_atomic ha hl hx
  refine Runs.cons (Runs.poll hs (by simp [flagValue, ha, hl]) hb) ?_
  refine Runs.append (Runs.ev hs (t := { s with
      regs := { s.regs with pollcnt := pollLeft s, tret := r }
      ctl := { s.ctl with txbuf := Config.dummy, rxbuf := r, rxrdy := false, txrdy := true }
      dev := d.note r
      draws := n
      trace := .regRead r :: .poll .rxrdy :: .regWrite Config.dummy :: s.trace }) ?_) (Runs.cast (Runs.nil _) ?_)
  · intro q
    simp only [perform, ctlRead]
    split
    · rename_i h; simp [ha] at h
    · rename_i h; simp [ha] at h; obtain ⟨rfl, rfl⟩ := h; rfl
  · simp only [recvTrace, hm]
    rfl

/-! One byte in either mode. -/

/-- The open frame and the trace go on. -/
def onFrame (f : Frame) (tr : List Event) (s : State) : State :=
  { s with dev := { s.dev with frame := some f }, trace := tr.reverse ++ s.trace }

theorem onFrame_visible {s t : State} (f : Frame) (tr : List Event) (h : visible t = visible s) :
    visible (onFrame f tr t) = visible (onFrame f tr s) := congrArg (onFrame f tr) h

theorem onFrame_onFrame (f f' : Frame) (tr tr' : List Event) (s : State) :
    onFrame f' tr' (onFrame f tr s) = onFrame f' (tr ++ tr') s := by
  simp [onFrame]

theorem onFrame_linked {f : Frame} {tr : List Event} {s : State} (h : Linked s) : Linked (onFrame f tr s) := h

@[simp] theorem replyFor_frame (s : State) (f : Frame) (tr : List Event) (b : List Byte) (n : Nat) :
    replyFor (onFrame f tr s).dev b n = replyFor s.dev b n := rfl

/-- What the device takes during a receive (20_memory.md R83; 40_transport.md R141). -/
def seen (s : State) : Byte :=
  match s.params.mode with
  | .bitbang => if s.pins.outMosi then 0xFF#8 else 0x00#8
  | .controller => Config.dummy

/-- What it takes after the byte v was sent. -/
def seenAfter (p : Params) (v : Byte) : Byte :=
  match p.mode with
  | .bitbang => if v.getLsbD 0 then 0xFF#8 else 0x00#8
  | .controller => Config.dummy

/-- A byte sent into an open frame: the device has it and has given its reply, 24 or 2 events are on the trace
(40_transport.md R131, R140). -/
theorem send_spec {s : State} {sel : ByteSel} {v r r0 : Byte} {n : Nat} {b rs rv : List Byte} (hL : Linked s)
    (hv : reqByte sel s = v) (hf : s.dev.frame = some ⟨b, rs, 0, 0, r0, rv⟩) (hr : replyFor s.dev b s.draws = .ok (r, n))
    (hg : frameInRange (b ++ [v]) = true) :
    ∃ t, Runs (sendByteSeq s.params sel) s t ∧
      visible t = visible (onFrame ⟨b ++ [v], rs ++ [r], 0, 0, r, rv⟩ (sendTrace s.params v) s) ∧
      t.regs.treq = s.regs.treq ∧ t.draws = n ∧ seen t = seenAfter s.params v := by
  rcases hm : s.params.mode
  · refine ⟨_, send_bitbang hm hL hv hf hr hg, ?_, rfl, rfl, ?_⟩
    · simp [visible, hm, (hL.2.1 hm).2.2, onFrame]
    · simp [seen, seenAfter, hm]
  · refine ⟨_, send_controller hm hL hv (exchange_spec v s.dev s.draws n b rs 0 r0 r hL.2.2.2 hf hr hg), ?_, rfl, rfl, ?_⟩
    · simp [visible, hm, (hL.2.2.1 hm).2.2.1, onFrame]
    · simp [seen, seenAfter, hm]

/-- A byte received from an open frame: the reply byte is returned, 24 or 3 events are on the trace (40_transport.md
R136, R141). -/
theorem recv_spec {s : State} {r r0 x : Byte} {n : Nat} {b rs rv : List Byte} (hL : Linked s) (hx : seen s = x)
    (hf : s.dev.frame = some ⟨b, rs, 0, 0, r0, rv⟩) (hr : replyFor s.dev b s.draws = .ok (r, n))
    (hg : frameInRange (b ++ [x]) = true) :
    ∃ t, Runs (recvByteSeq s.params) s t ∧
      visible t = visible (onFrame ⟨b ++ [x], rs ++ [r], 0, 0, r, rv ++ [r]⟩ (recvTrace s.params r) s) ∧
      t.regs.tret = r ∧ t.draws = n ∧ seen t = x := by
  subst hx
  unfold seen at *
  rcases hm : s.params.mode
  · simp only [hm] at hg
    refine ⟨_, recv_exchange hm hL.wired (exchange_spec _ s.dev s.draws n b rs 0 r0 r hL.2.2.2 hf hr hg), ?_, rfl, rfl, ?_⟩
    · simp [visible, hm, (hL.2.1 hm).2.2, onFrame, Dev.note]
    · simp [hm]
  · simp only [hm] at hg
    refine ⟨_, recv_controller hm hL.wired (exchange_spec _ s.dev s.draws n b rs 0 r0 r hL.2.2.2 hf hr hg), ?_, rfl, rfl, ?_⟩
    · simp [visible, hm, (hL.2.2.1 hm).2.2.1, onFrame, Dev.note]
    · simp [hm]

/-! Calls of the transport. -/

theorem Runs.request (op : BitVec 2) (src : Src) (s : State) :
    Runs [.reg (.request op src)] s (applyUpd (.request op src) s) := by
  refine Runs.reg _ _ ?_
  intro q
  cases src <;> simp only [applyUpd, srcValue, State.setSeq_regs, bufRead_setSeq] <;> rfl

/-- What a request leaves. -/
theorem request_spec {op : BitVec 2} {src : Src} {s : State} {w : Half} {n0 : Nat}
    (hw : srcValue src s = (w, s.setDraws n0)) :
    visible (applyUpd (.request op src) s) = visible s ∧ (applyUpd (.request op src) s).draws = n0 ∧
      (applyUpd (.request op src) s).regs.treq = packMicro op w := by
  simp only [applyUpd, hw]
  exact ⟨rfl, rfl, rfl⟩

/-- The Command Framer sends a byte (30_encoding.md R114). -/
theorem callSend_spec {s : State} {src : Src} {w : Half} {n0 : Nat} {r r0 : Byte} {n : Nat} {b rs rv : List Byte}
    (hL : Linked s) (hw : srcValue src s = (w, s.setDraws n0)) (hf : s.dev.frame = some ⟨b, rs, 0, 0, r0, rv⟩)
    (hr : replyFor s.dev b n0 = .ok (r, n)) (hg : frameInRange (b ++ [lo8 w]) = true) :
    ∃ t, Runs (callSendByte s.params src) s t ∧
      visible t = visible (onFrame ⟨b ++ [lo8 w], rs ++ [r], 0, 0, r, rv⟩ (sendTrace s.params (lo8 w)) s) ∧
      t.draws = n ∧ seen t = seenAfter s.params (lo8 w) := by
  obtain ⟨hv, e3, hq⟩ := request_spec (op := 0#2) hw
  have hp := visible_params hv
  have e2 := visible_dev hv
  obtain ⟨t, hrun, hvis, -, hd, hmo⟩ := send_spec (sel := .lo) (v := lo8 w) (visible_linked hv hL)
    (by simp [reqByte, hq]) (by rw [e2]; exact hf) (by rw [e2, e3]; exact hr) hg
  rw [hp] at hrun hmo hvis
  exact ⟨t, Runs.cons (Runs.request _ _ _) hrun, hvis.trans (onFrame_visible _ _ hv), hd, hmo⟩

/-- The Command Framer sends a word, high byte first (40_transport.md R135). -/
theorem callSendWord_spec {s : State} {src : Src} {w : Half} {r0 r1 r2 : Byte} {n1 n2 : Nat} {b rs rv : List Byte}
    (hL : Linked s) (hw : srcValue src s = (w, s)) (hf : s.dev.frame = some ⟨b, rs, 0, 0, r0, rv⟩)
    (hr : replyFor s.dev b s.draws = .ok (r1, n1)) (hg : frameInRange (b ++ [hi8 w]) = true)
    (hr2 : replyFor s.dev (b ++ [hi8 w]) n1 = .ok (r2, n2)) (hg2 : frameInRange (b ++ [hi8 w] ++ [lo8 w]) = true) :
    ∃ t, Runs (callSendWord s.params src) s t ∧
      visible t = visible (onFrame ⟨b ++ [hi8 w] ++ [lo8 w], rs ++ [r1] ++ [r2], 0, 0, r2, rv⟩
        (sendTrace s.params (hi8 w) ++ sendTrace s.params (lo8 w)) s) ∧
      t.draws = n2 ∧ seen t = seenAfter s.params (lo8 w) ∧ t.regs.treq = packMicro 1#2 w := by
  obtain ⟨hv, e3, hq⟩ := request_spec (op := 1#2) (n0 := s.draws) hw
  have hp := visible_params hv
  have e2 := visible_dev hv
  have hL1 := visible_linked hv hL
  obtain ⟨t, hrun, hvis, htr, hd, -⟩ := send_spec (sel := .hi) (v := hi8 w) hL1
    (by simp [reqByte, hq]) (by rw [e2]; exact hf) (by rw [e2, e3]; exact hr) hg
  have hp2 : t.params = s.params := (visible_params hvis).trans hp
  have e4 := visible_dev hvis
  obtain ⟨u, hrun2, hvis2, htr2, hd2, hmo2⟩ := send_spec (sel := .lo) (v := lo8 w) (visible_linked hvis hL1)
    (by simp [reqByte, htr, hq]) (by rw [e4]; rfl)
    (by rw [e4, hd, replyFor_frame, e2]; exact hr2) hg2
  rw [hp] at hrun hvis
  rw [hp2] at hrun2 hmo2 hvis2
  refine ⟨u, Runs.cons (Runs.request _ _ _) (Runs.append hrun hrun2), ?_, hd2, hmo2, htr2.trans (htr.trans hq)⟩
  rw [hvis2, onFrame_visible _ _ (hvis.trans (onFrame_visible _ _ hv)), onFrame_onFrame]

/-- The Command Framer receives a byte (30_encoding.md R114). -/
theorem callRecv_spec {s : State} {r r0 x : Byte} {n : Nat} {b rs rv : List Byte} (hL : Linked s) (hx : seen s = x)
    (hf : s.dev.frame = some ⟨b, rs, 0, 0, r0, rv⟩) (hr : replyFor s.dev b s.draws = .ok (r, n))
    (hg : frameInRange (b ++ [x]) = true) :
    ∃ t, Runs (callRecvByte s.params) s t ∧
      visible t = visible (onFrame ⟨b ++ [x], rs ++ [r], 0, 0, r, rv ++ [r]⟩ (recvTrace s.params r) s) ∧
      t.regs.tret = r ∧ t.draws = n ∧ seen t = x := by
  obtain ⟨hv, e3, -⟩ := request_spec (op := 2#2) (src := .const 0) (s := s) (n0 := s.draws) rfl
  have hp := visible_params hv
  have e2 := visible_dev hv
  obtain ⟨t, hrun, hvis, htr, hd, hmo⟩ := recv_spec (x := x) (r0 := r0) (b := b) (rs := rs) (r := r) (n := n)
    (visible_linked hv hL) (by rw [← hx]; rfl) (by rw [e2]; exact hf) (by rw [e2, e3]; exact hr) hg
  rw [hp] at hrun hvis
  exact ⟨t, Runs.cons (Runs.request _ _ _) hrun, hvis.trans (onFrame_visible _ _ hv), htr, hd, hmo⟩

end Sys2Proof.Machine
end

