-- ==== Sys2Proof/Laws/Brackets.lean ====
section
/-! SUPPORT. Whole brackets: chip-select down, the bytes, chip-select up; the enable pulse, a READ frame, a WRITE frame
with its settle wait. -/

namespace Sys2Proof.Machine

open Sys2Proof

/-- Chip-select down. -/
def csDown (s : State) : State := { s with pins := { s.pins with outCs := false } }

/-- A bracket is closed: chip-select up, the device as given, the frame on record. -/
def shut (d : Dev) (rec : FrameRec) (tr : List Event) (s : State) : State :=
  { s with
    pins := { s.pins with outCs := true }
    dev := d
    frames := rec :: s.frames
    trace := tr.reverse ++ s.trace }

theorem shut_onFrame (d : Dev) (rec : FrameRec) (tr tr0 : List Event) (f : Frame) (s : State) :
    shut d rec tr (onFrame f tr0 s) = shut d rec (tr0 ++ tr) s := by
  simp [shut, onFrame]

theorem shut_csDown (d : Dev) (rec : FrameRec) (tr : List Event) (s : State) :
    shut d rec tr (csDown s) = shut d rec tr s := rfl

theorem shut_visible {s t : State} (d : Dev) (rec : FrameRec) (tr : List Event) (h : visible t = visible s) :
    visible (shut d rec tr t) = visible (shut d rec tr s) := congrArg (shut d rec tr) h

theorem isAsync_linked {s : State} (hL : Linked s) : isAsync s = false := by
  unfold isAsync
  rcases hm : s.params.mode
  · rfl
  · simp [(hL.2.2.1 hm).1]

theorem present_linked {s : State} (hL : Linked s) : s.dev.line.present = true := by rw [hL.2.2.2]; rfl

/-- What a device that is there does at the close of a frame. -/
theorem act_present {d : Dev} (b : List Byte) (n : Nat) (hp : d.line.present = true) : Dev.act b d n = d.obey b n := by
  simp [Dev.act, hp]

/-- The enable frame sets the latch (20_memory.md R71). -/
theorem act_wren {d : Dev} (n : Nat) (hp : d.line.present = true) :
    Dev.act [Config.opcWren] d n = ({ d with wel := true }, n) := by
  rw [act_present _ _ hp]
  rfl

/-- Chip-select driven low from high: the device opens a frame (20_memory.md R70). -/
theorem drivePin_cs_low {s : State} (hd : s.pins.dirCs = .output) (ho : s.pins.outCs = true) (hw : s.dev.wip = false) :
    drivePin .cs false s = .ok (onFrame Frame.empty [.drive .cs false] (csDown s)) := by
  have h1 : ¬ pinDir .cs s = .input := by simp [pinDir, hd]
  have h2 : ¬ (s.log (.drive .cs false)).pins.outCs = false := by simp [ho]
  unfold drivePin
  rw [if_neg h1, if_neg (by simp)]
  simp only [lineLevel, csLevel]
  rw [if_neg h2, if_neg (by simp), openFrame_spec _ (by simpa using hw)]
  rfl

/-- Chip-select driven high from low: the device closes the frame and acts on it (20_memory.md R70). -/
theorem drivePin_cs_high {s : State} {b rs rv : List Byte} {acc r0 : Byte} {d : Dev} {n : Nat} (hx : isAsync s = false)
    (hd : s.pins.dirCs = .output) (ho : s.pins.outCs = false) (hf : s.dev.frame = some ⟨b, rs, acc, 0, r0, rv⟩)
    (ha : Dev.act b { s.dev with frame := none } s.draws = (d, n)) :
    drivePin .cs true s = .ok { shut d ⟨b, rs, rv⟩ [.drive .cs true] s with draws := n } := by
  have h1 : ¬ pinDir .cs s = .input := by simp [pinDir, hd]
  have h2 : ¬ (s.log (.drive .cs true)).pins.outCs = true := by simp [ho]
  unfold drivePin
  rw [if_neg h1, if_neg (by simp [hx])]
  simp only [lineLevel, csLevel]
  rw [if_neg h2, if_pos trivial]
  simp only [closeFrame, State.setPins_dev, State.setPins_draws, State.log_dev, State.log_draws, hf, if_true, ha]
  rfl

/-- Chip-select driven low during a write cycle: the fault DeviceBusyAccess (20_memory.md R80). -/
theorem drivePin_cs_busy {s : State} (hd : s.pins.dirCs = .output) (ho : s.pins.outCs = true)
    (hp : s.dev.line.present = true) (hw : s.dev.wip = true) : drivePin .cs false s = .error .deviceBusyAccess := by
  have h1 : ¬ pinDir .cs s = .input := by simp [pinDir, hd]
  have h2 : ¬ (s.log (.drive .cs false)).pins.outCs = false := by simp [ho]
  unfold drivePin
  rw [if_neg h1, if_neg (by simp)]
  simp only [lineLevel, csLevel]
  rw [if_neg h2, if_neg (by simp), openFrame_busy _ (by simpa using hp) (by simpa using hw)]

/-- Chip-select driven high off a byte boundary: the fault PartialByte (20_memory.md R70). -/
theorem drivePin_cs_partial {s : State} {f : Frame} (hx : isAsync s = false) (hd : s.pins.dirCs = .output)
    (ho : s.pins.outCs = false) (hf : s.dev.frame = some f) (hc : f.cnt ≠ 0) :
    drivePin .cs true s = .error .partialByte := by
  have h1 : ¬ pinDir .cs s = .input := by simp [pinDir, hd]
  have h2 : ¬ (s.log (.drive .cs true)).pins.outCs = true := by simp [ho]
  unfold drivePin
  rw [if_neg h1, if_neg (by simp [hx])]
  simp only [lineLevel, csLevel]
  rw [if_neg h2, if_pos trivial]
  simp only [closeFrame, State.setPins_dev, State.log_dev, hf, if_neg hc]

/-- Chip-select driven high while the asynchronous controller is not idle: the fault CsEarly (40_transport.md R154 c). -/
theorem drivePin_cs_early {s : State} (hx : isAsync s = true) (hi : ctlIdle s = false) (hd : s.pins.dirCs = .output) :
    drivePin .cs true s = .error .csEarly := by
  have h1 : ¬ pinDir .cs s = .input := by simp [pinDir, hd]
  unfold drivePin
  rw [if_neg h1, if_pos ⟨rfl, rfl, hx, hi⟩]

/-- Chip-select driven high while it is high: an event, nothing else (20_memory.md R70). -/
theorem drivePin_cs_held {s : State} (hx : isAsync s = false) (hd : s.pins.dirCs = .output) (ho : s.pins.outCs = true) :
    drivePin .cs true s = .ok (s.log (.drive .cs true)) := by
  have h1 : ¬ pinDir .cs s = .input := by simp [pinDir, hd]
  have h2 : (s.log (.drive .cs true)).pins.outCs = true := by simp [ho]
  unfold drivePin
  rw [if_neg h1, if_neg (by simp [hx])]
  simp only [lineLevel, csLevel]
  rw [if_pos h2]

/-- cs_assert opens a bracket (40_transport.md R138; 20_memory.md R70). -/
theorem csAssert_spec {s : State} (hs : s.sched = []) (hd : s.pins.dirCs = .output) (ho : s.pins.outCs = true)
    (hw : s.dev.wip = false) :
    ∃ t, Runs csAssert s t ∧ visible t = visible (onFrame Frame.empty [.drive .cs false] (csDown s)) ∧
      t.draws = s.draws ∧ seen t = seen s := by
  refine ⟨{ onFrame Frame.empty [.drive .cs false] (csDown s) with bracketWrite := false }, ?_, rfl, rfl, rfl⟩
  refine Runs.cons (Runs.reg (.bracketWrite false) s) (Runs.ev hs ?_)
  intro q
  exact drivePin_cs_low (s := (s.setBracketWrite false).setSeq q) hd ho hw

/-- cs_deassert closes a bracket: the device acts on the frame (40_transport.md R139; 20_memory.md R70). -/
theorem csDeassert_spec {s : State} {b rs rv : List Byte} {acc r0 : Byte} {d : Dev} {n : Nat} (hL : Linked s)
    (hd : s.pins.dirCs = .output) (ho : s.pins.outCs = false) (hf : s.dev.frame = some ⟨b, rs, acc, 0, r0, rv⟩)
    (ha : Dev.act b { s.dev with frame := none } s.draws = (d, n)) :
    ∃ t, Runs csDeassert s t ∧ visible t = visible (shut d ⟨b, rs, rv⟩ [.drive .cs true] s) ∧ t.draws = n ∧
      seen t = seen s := by
  refine ⟨{ shut d ⟨b, rs, rv⟩ [.drive .cs true] s with draws := n }, ?_, rfl, rfl, rfl⟩
  refine Runs.ev hL.1 ?_
  intro q
  exact drivePin_cs_high (s := s.setSeq q) (isAsync_linked (s := s) hL) hd ho hf ha

/-! The bracket of the enable pulse, and the heads of the two others. -/

theorem onFrame_dirCs (f : Frame) (tr : List Event) (s : State) : (onFrame f tr s).pins.dirCs = s.pins.dirCs := rfl
theorem onFrame_outCs (f : Frame) (tr : List Event) (s : State) : (onFrame f tr s).pins.outCs = s.pins.outCs := rfl

/-- The enable pulse sets the latch (41_command_framer.md R171; 20_memory.md R71). -/
theorem wrenPulse_spec {s : State} (hL : Linked s) (hd : s.pins.dirCs = .output) (ho : s.pins.outCs = true)
    (hw : s.dev.wip = false) :
    ∃ t r, Runs (wrenPulse s.params) s t ∧
      visible t = visible (shut { s.dev with wel := true, frame := none } ⟨[Config.opcWren], [r], []⟩ (wrenTrace s.params) s) ∧
      seen t = seenAfter s.params Config.opcWren := by
  obtain ⟨t1, run1, vis1, dr1, -⟩ := csAssert_spec hL.1 hd ho hw
  have hL1 : Linked t1 := visible_linked vis1 hL
  have hp1 := visible_params vis1
  have hdev1 := visible_dev vis1
  obtain ⟨t2, run2, vis2, dr2, se2⟩ := callSend_spec (s := t1) (src := .const 0x0006) (w := 0x0006) (n0 := t1.draws)
    (r := Config.freeByte t1.draws) (n := t1.draws + 1) (b := []) (rs := []) (r0 := 0) hL1 rfl
    (by rw [hdev1]; rfl) rfl rfl
  have hL2 : Linked t2 := visible_linked vis2 hL1
  have hp2 := visible_params vis2
  have hdev2 := visible_dev vis2
  obtain ⟨t3, run3, vis3, -, se3⟩ := csDeassert_spec (s := t2) (b := [Config.opcWren]) (rs := [Config.freeByte t1.draws])
    (acc := 0) (r0 := Config.freeByte t1.draws) (d := { s.dev with wel := true, frame := none }) (n := t2.draws) hL2
    (by rw [visible_dirCs vis2, onFrame_dirCs, visible_dirCs vis1]; exact hd)
    (by rw [visible_outCs vis2, onFrame_outCs, visible_outCs vis1]; rfl)
    (by rw [hdev2]; rfl)
    (by rw [hdev2]; simp only [onFrame, hdev1]; exact act_wren _ (present_linked hL))
  rw [hp1] at se2
  refine ⟨t3, Config.freeByte t1.draws, ?_, ?_, se3.trans se2⟩
  · rw [hp1] at run2
    exact Runs.append (Runs.append run1 run2) run3
  · rw [vis3, shut_visible _ _ _ vis2, shut_onFrame, shut_visible _ _ _ vis1, shut_onFrame, shut_csDown, hp1]
    congr 2

/-- What opens a READ or a WRITE bracket: chip-select, the opcode, the address (41_command_framer.md R172, R173). -/
theorem head_spec {s : State} {o : Half} (hL : Linked s) (hd : s.pins.dirCs = .output) (ho : s.pins.outCs = true)
    (hw : s.dev.wip = false) (hg : frameInRange [lo8 o, hi8 s.regs.addr, lo8 s.regs.addr] = true)
    (q : List Micro) (hq : q = [] ∨ q = [.reg (.bracketWrite true)]) :
    ∃ t r0 r1 r2, Runs (csAssert ++ q ++ callSendByte s.params (.const o) ++ callSendWord s.params .addr) s t ∧
      visible t = visible (onFrame ⟨[lo8 o, hi8 s.regs.addr, lo8 s.regs.addr], [r0, r1, r2], 0, 0, r2, []⟩
        ([.drive .cs false] ++ sendAllTrace s.params [lo8 o, hi8 s.regs.addr, lo8 s.regs.addr]) (csDown s)) ∧
      seen t = seenAfter s.params (lo8 s.regs.addr) := by
  obtain ⟨t0, run0, vis0, -, -⟩ := csAssert_spec hL.1 hd ho hw
  obtain ⟨t1, run1, vis1⟩ : ∃ t1, Runs (csAssert ++ q) s t1 ∧
      visible t1 = visible (onFrame Frame.empty [.drive .cs false] (csDown s)) := by
    rcases hq with rfl | rfl
    · exact ⟨t0, by simpa using run0, vis0⟩
    · exact ⟨_, Runs.append run0 (Runs.reg _ _), vis0⟩
  have hL1 : Linked t1 := visible_linked vis1 hL
  have hp1 : t1.params = s.params := (visible_params vis1).trans rfl
  have ha1 : t1.regs.addr = s.regs.addr := (visible_addr vis1).trans rfl
  have hdev1 := visible_dev vis1
  obtain ⟨t2, run2, vis2, dr2, -⟩ := callSend_spec (s := t1) (src := .const o) (w := o) (n0 := t1.draws)
    (r := Config.freeByte t1.draws) (n := t1.draws + 1) (b := []) (rs := []) (r0 := 0) hL1 rfl
    (by rw [hdev1]; rfl) rfl (frameInRange_short _ (by simp))
  have hL2 : Linked t2 := visible_linked vis2 hL1
  have hp2 : t2.params = s.params := ((visible_params vis2).trans rfl).trans hp1
  have ha2 : t2.regs.addr = s.regs.addr := ((visible_addr vis2).trans rfl).trans ha1
  have hdev2 := visible_dev vis2
  obtain ⟨t3, run3, vis3, dr3, hse, -⟩ := callSendWord_spec (s := t2) (src := .addr) (w := s.regs.addr)
    (r1 := Config.freeByte t2.draws) (n1 := t2.draws + 1) (r2 := Config.freeByte (t2.draws + 1)) (n2 := t2.draws + 2)
    (b := [lo8 o]) (rs := [Config.freeByte t1.draws]) (r0 := Config.freeByte t1.draws)
    hL2 (by simp [srcValue, ha2]) (by rw [hdev2]; rfl) (replyFor_short _ _ _ (by simp))
    (frameInRange_short _ (by simp)) (replyFor_short _ _ _ (by simp)) (by simpa using hg)
  rw [hp1] at run2
  rw [hp2] at run3 hse
  refine ⟨t3, Config.freeByte t1.draws, Config.freeByte t2.draws, Config.freeByte (t2.draws + 1), Runs.append (Runs.append run1 run2) run3, ?_, hse⟩
  rw [vis3, onFrame_visible _ _ vis2, onFrame_onFrame, onFrame_visible _ _ vis1, onFrame_onFrame, hp1, hp2]
  simp [sendAllTrace]

/-- The head of a READ frame (41_command_framer.md R172, P0 to P2). -/
theorem readHead_spec {s : State} (hL : Linked s) (hd : s.pins.dirCs = .output) (ho : s.pins.outCs = true)
    (hw : s.dev.wip = false) (hA : s.regs.addr.toNat < Config.capacity) :
    ∃ t r0 r1 r2, Runs (readHead s.params) s t ∧
      visible t = visible (onFrame ⟨[Config.opcRead, hi8 s.regs.addr, lo8 s.regs.addr], [r0, r1, r2], 0, 0, r2, []⟩
        ([.drive .cs false] ++ sendAllTrace s.params [Config.opcRead, hi8 s.regs.addr, lo8 s.regs.addr]) (csDown s)) ∧
      seen t = seenAfter s.params (lo8 s.regs.addr) := by
  have h := head_spec (o := 0x0003) hL hd ho hw
    (frameInRange_read _ _ [] (by simpa using hA)) [] (Or.inl rfl)
  obtain ⟨t, r0, r1, r2, run, vis, se⟩ := h
  rw [List.append_nil] at run
  exact ⟨t, r0, r1, r2, run, vis, se⟩

/-- The head of a write: the enable pulse, then the head of a WRITE frame (41_command_framer.md R173, P0 to P5). -/
theorem writeHead_spec {s : State} (hL : Linked s) (hd : s.pins.dirCs = .output) (ho : s.pins.outCs = true)
    (hw : s.dev.wip = false) (hA : s.regs.addr.toNat < Config.capacity) :
    ∃ t r r0 r1 r2, Runs (writeHead s.params) s t ∧
      visible t = visible (onFrame ⟨[Config.opcWrite, hi8 s.regs.addr, lo8 s.regs.addr], [r0, r1, r2], 0, 0, r2, []⟩
        ([.drive .cs false] ++ sendAllTrace s.params [Config.opcWrite, hi8 s.regs.addr, lo8 s.regs.addr])
        (csDown (shut { s.dev with wel := true, frame := none } ⟨[Config.opcWren], [r], []⟩ (wrenTrace s.params) s))) := by
  obtain ⟨t1, r, run1, vis1, -⟩ := wrenPulse_spec hL hd ho hw
  have hp1 : t1.params = s.params := (visible_params vis1).trans rfl
  have ha1 : t1.regs.addr = s.regs.addr := (visible_addr vis1).trans rfl
  have hdev1 := visible_dev vis1
  have h := head_spec (s := t1) (o := 0x0002) (visible_linked vis1 hL) ((visible_dirCs vis1).trans hd)
    ((visible_outCs vis1).trans rfl) (by rw [hdev1]; exact hw)
    (frameInRange_write _ _ [] (by simpa [ha1] using hA) (by simp [ha1]; exact Nat.le_of_lt hA))
    [.reg (.bracketWrite true)] (Or.inr rfl)
  obtain ⟨t2, r0, r1, r2, run2, vis2, -⟩ := h
  rw [hp1, ha1] at vis2
  rw [hp1] at run2
  refine ⟨t2, r, r0, r1, r2, ?_, vis2.trans (onFrame_visible _ _ (congrArg csDown vis1))⟩
  have := Runs.append run1 run2
  simpa [writeHead] using this

/-! The device at the close of a frame. -/

/-- Nothing changes at the close of a READ frame (20_memory.md R73). -/
theorem act_read (bs : List Byte) (d : Dev) (n : Nat) : Dev.act (Config.opcRead :: bs) d n = (d, n) := by
  unfold Dev.act
  split
  · match bs with
    | [] => rfl
    | [_] => rfl
    | [_, _] => rfl
    | _ :: _ :: _ :: _ => simp [Dev.obey, Config.opcRead, Config.opcWrite]
  · rfl

/-- A WRITE frame with data, the latch set, starts a write cycle (20_memory.md R72, R79). -/
theorem act_write (ah al : Byte) (ds : List Byte) (d : Dev) (n : Nat) (hp : d.line.present = true) (hds : ds ≠ [])
    (hw : d.wel = true) :
    Dev.act (Config.opcWrite :: ah :: al :: ds) d n =
      ({ d with wip := true, pending := some { addr := frameAddr ah al, data := ds } }, n) := by
  match ds, hds with
  | v :: vs, _ => simp [act_present _ _ hp, Dev.obey, hw]

/-- A WRITE frame with no data leaves the latch open (20_memory.md R81). -/
theorem act_write_empty (ah al : Byte) (d : Dev) (n : Nat) (hp : d.line.present = true) :
    Dev.act [Config.opcWrite, ah, al] d n = ({ d with wel := Config.freeBit n }, n + 1) := by
  rw [act_present _ _ hp]
  rfl

theorem countDown_eq (n : Nat) : countDown n = 0 := by
  induction n with
  | zero => rfl
  | succ n ih => exact ih

/-- The settle wait, O-SETTLE assumed: the device commits, WAITCNT ends at 0 (70_reset_and_hazards.md R262). -/
def settled (s : State) : State :=
  { s with dev := s.dev.commit, regs := { s.regs with waitcnt := 0 }, trace := .wait :: s.trace }

theorem settled_visible {s t : State} (h : visible t = visible s) : visible (settled t) = visible (settled s) :=
  congrArg settled h

theorem wait_spec {s : State} (hs : s.sched = []) (ho : s.params.oSettle = true) : Runs [.ev .wait] s (settled s) := by
  intro rest q
  refine ⟨rest, ?_, fun _ => rfl⟩
  rw [List.singleton_append]
  simp only [runSeq, item_wait (s := s.setSeq q) hs ho, settleWait, countDown_eq]
  rfl

/-! Whole frames. -/

/-- The byte received is in RDATA (41_command_framer.md R172, R176). -/
def gotByte (dst : Upd) (b : Byte) (s : State) : State :=
  { s with regs := { s.regs with
      rdata := if dst = .takeHi then joinHL b (lo8 s.regs.rdata) else joinHL (hi8 s.regs.rdata) b } }

theorem shut_gotByte (d : Dev) (rec : FrameRec) (tr : List Event) (dst : Upd) (b : Byte) (s : State) :
    shut d rec tr (gotByte dst b s) = gotByte dst b (shut d rec tr s) := rfl

theorem gotByte_visible {s t : State} (dst : Upd) (b : Byte) (h : visible t = visible s) :
    visible (gotByte dst b t) = visible (gotByte dst b s) := congrArg (gotByte dst b) h

theorem take_gotByte {s : State} {dst : Upd} {b : Byte} (hdst : dst = .takeLo ∨ dst = .takeHi) (h : s.regs.tret = b) :
    applyUpd dst s = gotByte dst b s := by
  subst h
  rcases hdst with rfl | rfl <;> rfl

/-- A READ frame of one byte (41_command_framer.md R172, P0 to P4). -/
theorem readFrame_spec {s : State} (dst : Upd) (hdst : dst = .takeLo ∨ dst = .takeHi) (hL : Linked s)
    (hd : s.pins.dirCs = .output) (ho : s.pins.outCs = true) (hw : s.dev.wip = false)
    (hA : s.regs.addr.toNat < Config.capacity) :
    ∃ t r0 r1 r2, Runs (readFrameSeq s.params dst) s t ∧
      visible t = visible (gotByte dst (eeRead s s.regs.addr.toNat) (shut { s.dev with frame := none }
        ⟨[Config.opcRead, hi8 s.regs.addr, lo8 s.regs.addr, seenAfter s.params (lo8 s.regs.addr)],
          [r0, r1, r2, eeRead s s.regs.addr.toNat], [eeRead s s.regs.addr.toNat]⟩
        (readTrace s.params s.regs.addr [eeRead s s.regs.addr.toNat]) s)) := by
  obtain ⟨t1, r0, r1, r2, run1, vis1, se1⟩ := readHead_spec hL hd ho hw hA
  have hL1 : Linked t1 := visible_linked vis1 hL
  have hp1 : t1.params = s.params := (visible_params vis1).trans rfl
  have hdev1 := visible_dev vis1
  obtain ⟨t2, run2, vis2, htr2, hdr2, -⟩ := callRecv_spec (s := t1)
    (b := [Config.opcRead, hi8 s.regs.addr, lo8 s.regs.addr]) (rs := [r0, r1, r2]) (r0 := r2)
    (r := eeRead s s.regs.addr.toNat) (n := t1.draws) hL1 se1 (by rw [hdev1]; rfl)
    (by have := replyFor_read s.dev (hi8 s.regs.addr) (lo8 s.regs.addr) [] t1.draws (present_linked hL)
          (by simpa using hA)
        rw [List.length_nil, Nat.add_zero, frameAddr_hi8_lo8] at this
        rw [hdev1]
        exact this)
    (frameInRange_read _ _ _ (by simpa using hA))
  have hL2 : Linked t2 := visible_linked vis2 hL1
  have hdev2 := visible_dev vis2
  have vis3 := gotByte_visible dst (eeRead s s.regs.addr.toNat) vis2
  rw [← take_gotByte hdst htr2] at vis3
  have hL3 : Linked (applyUpd dst t2) := visible_linked vis3 hL1
  have hdev3 : (applyUpd dst t2).dev = t2.dev := by rcases hdst with rfl | rfl <;> rfl
  obtain ⟨t3, run3, vis4, -, -⟩ := csDeassert_spec (s := applyUpd dst t2) (acc := 0)
    (r0 := eeRead s s.regs.addr.toNat)
    (b := [Config.opcRead, hi8 s.regs.addr, lo8 s.regs.addr, seenAfter s.params (lo8 s.regs.addr)])
    (rs := [r0, r1, r2, eeRead s s.regs.addr.toNat]) (d := { s.dev with frame := none })
    (n := (applyUpd dst t2).draws) hL3
    (by rw [visible_dirCs vis3]; exact (visible_dirCs vis1).trans hd)
    (by rw [visible_outCs vis3]; exact visible_outCs vis1)
    (by rw [hdev3, hdev2]; rfl)
    (by rw [act_read, hdev3, hdev2]; simp only [onFrame, hdev1]; rfl)
  refine ⟨t3, r0, r1, r2, ?_, ?_⟩
  · rw [hp1] at run2
    refine Runs.append (Runs.append run1 run2) (Runs.cons (Runs.reg _ _ ?_) run3)
    rcases hdst with rfl | rfl <;> (intro q; rfl)
  · rw [vis4, shut_visible _ _ _ (vis3.trans (gotByte_visible dst _ (onFrame_visible _ _ vis1)))]
    rw [shut_gotByte, shut_onFrame, shut_onFrame, shut_csDown, hp1]
    simp only [readTrace, recvAllTrace, List.append_nil, List.nil_append, List.append_assoc]

/-- A WRITE of the bytes `ds` at `a` has been committed: the store holds them, the latch and WIP are clear, two frames
are on record (20_memory.md R72, R77, R79). -/
def written (a : Half) (ds : List Byte) (rec1 rec2 : FrameRec) (s : State) : State :=
  { s with
    pins := { s.pins with outCs := true }
    regs := { s.regs with waitcnt := 0 }
    dev := { s.dev with
      ee := Memory.writeList s.dev.ee a.toNat ds, wel := false, wip := false, pending := none, frame := none }
    frames := rec2 :: rec1 :: s.frames
    trace := (writeTrace s.params a ds).reverse ++ s.trace }

theorem written_visible {s t : State} (a : Half) (ds : List Byte) (rec1 rec2 : FrameRec) (h : visible t = visible s) :
    visible (written a ds rec1 rec2 t) = visible (written a ds rec1 rec2 s) := congrArg (written a ds rec1 rec2) h

/-- The close of a WRITE bracket with data starts the write cycle (41_command_framer.md R173, P7). -/
theorem writeClose_spec {s t : State} {ds rs : List Byte} {r r0 : Byte} (hL : Linked s)
    (hd : s.pins.dirCs = .output) (hds : ds ≠ [])
    (hvis : visible t = visible (onFrame ⟨Config.opcWrite :: hi8 s.regs.addr :: lo8 s.regs.addr :: ds, rs, 0, 0, r0, []⟩
      ([.drive .cs false] ++ sendAllTrace s.params (Config.opcWrite :: hi8 s.regs.addr :: lo8 s.regs.addr :: ds))
        (csDown (shut { s.dev with wel := true, frame := none } ⟨[Config.opcWren], [r], []⟩ (wrenTrace s.params) s)))) :
    ∃ u, Runs csDeassert t u ∧
      visible u = visible (shut { s.dev with
            wel := true, frame := none, wip := true, pending := some { addr := s.regs.addr.toNat, data := ds } }
        ⟨Config.opcWrite :: hi8 s.regs.addr :: lo8 s.regs.addr :: ds, rs, []⟩
        ([.drive .cs false] ++ sendAllTrace s.params (Config.opcWrite :: hi8 s.regs.addr :: lo8 s.regs.addr :: ds) ++
          [.drive .cs true])
        (shut { s.dev with wel := true, frame := none } ⟨[Config.opcWren], [r], []⟩ (wrenTrace s.params) s)) := by
  have hLt : Linked t := visible_linked hvis hL
  have hdev := visible_dev hvis
  obtain ⟨u, run, vis, -, -⟩ := csDeassert_spec (s := t) (acc := 0) (r0 := r0) (rs := rs)
    (b := Config.opcWrite :: hi8 s.regs.addr :: lo8 s.regs.addr :: ds)
    (d := { s.dev with
      wel := true, frame := none, wip := true, pending := some { addr := s.regs.addr.toNat, data := ds } })
    (n := t.draws) hLt ((visible_dirCs hvis).trans hd) ((visible_outCs hvis).trans rfl) (by rw [hdev]; rfl)
    (by rw [act_write _ _ _ _ _ (by rw [hdev]; exact present_linked hL) hds (by rw [hdev]; rfl), hdev, frameAddr_hi8_lo8]; rfl)
  refine ⟨u, run, ?_⟩
  rw [vis, shut_visible _ _ _ hvis, shut_onFrame, shut_csDown]

/-- The close of a WRITE bracket with data and its settle wait (41_command_framer.md R173, P7, P8). -/
theorem writeTail_spec {s t : State} {ds rs : List Byte} {r r0 : Byte} (hL : Linked s)
    (hd : s.pins.dirCs = .output) (hds : ds ≠ []) (hO : s.params.oSettle = true)
    (hvis : visible t = visible (onFrame ⟨Config.opcWrite :: hi8 s.regs.addr :: lo8 s.regs.addr :: ds, rs, 0, 0, r0, []⟩
      ([.drive .cs false] ++ sendAllTrace s.params (Config.opcWrite :: hi8 s.regs.addr :: lo8 s.regs.addr :: ds))
        (csDown (shut { s.dev with wel := true, frame := none } ⟨[Config.opcWren], [r], []⟩ (wrenTrace s.params) s)))) :
    ∃ u, Runs (csDeassert ++ [.ev .wait]) t u ∧
      visible u = visible (written s.regs.addr ds ⟨[Config.opcWren], [r], []⟩
        ⟨Config.opcWrite :: hi8 s.regs.addr :: lo8 s.regs.addr :: ds, rs, []⟩ s) := by
  obtain ⟨u, run, vis⟩ := writeClose_spec hL hd hds hvis
  have hLu : Linked u := visible_linked vis hL
  have hpu : u.params = s.params := (visible_params vis).trans rfl
  refine ⟨settled u, Runs.append run (wait_spec hLu.1 (by rw [hpu]; exact hO)), ?_⟩
  rw [settled_visible vis]
  have e : writeTrace s.params s.regs.addr ds = wrenTrace s.params ++ (([.drive .cs false] ++
      sendAllTrace s.params (Config.opcWrite :: hi8 s.regs.addr :: lo8 s.regs.addr :: ds) ++ [.drive .cs true]) ++
      [.wait]) := by simp [writeTrace]
  unfold written
  rw [e]
  simp only [settled, shut, List.reverse_append, List.append_assoc]
  rfl

/-- A WRITE bracket of one byte up to its close, with its enable pulse (41_command_framer.md R173, P0 to P6). -/
theorem writeBody_spec {s : State} {src : Src} {w : Half} (hsrc : ∀ t : State, t.regs.wdata = s.regs.wdata →
      srcValue src t = (w, t.setDraws t.draws)) (hL : Linked s)
    (hd : s.pins.dirCs = .output) (ho : s.pins.outCs = true) (hw : s.dev.wip = false)
    (hA : s.regs.addr.toNat < Config.capacity) :
    ∃ t r r0 r1 r2 r3, Runs (writeHead s.params ++ callSendByte s.params src) s t ∧
      visible t = visible (onFrame
        ⟨[Config.opcWrite, hi8 s.regs.addr, lo8 s.regs.addr, lo8 w], [r0, r1, r2, r3], 0, 0, r3, []⟩
        ([.drive .cs false] ++ sendAllTrace s.params [Config.opcWrite, hi8 s.regs.addr, lo8 s.regs.addr, lo8 w])
        (csDown (shut { s.dev with wel := true, frame := none } ⟨[Config.opcWren], [r], []⟩ (wrenTrace s.params) s))) := by
  obtain ⟨t1, r, r0, r1, r2, run1, vis1⟩ := writeHead_spec hL hd ho hw hA
  have hL1 : Linked t1 := visible_linked vis1 hL
  have hp1 : t1.params = s.params := (visible_params vis1).trans rfl
  have hdev1 := visible_dev vis1
  obtain ⟨t2, run2, vis2, -, -⟩ := callSend_spec (s := t1) (src := src) (w := w) (n0 := t1.draws)
    (r := Config.freeByte t1.draws) (n := t1.draws + 1)
    (b := [Config.opcWrite, hi8 s.regs.addr, lo8 s.regs.addr]) (rs := [r0, r1, r2]) (r0 := r2) hL1
    (hsrc t1 ((visible_wdata vis1).trans rfl)) (by rw [hdev1]; rfl) (replyFor_write _ _ _ _ _)
    (frameInRange_write _ _ [lo8 w] (by simpa using hA) (by rw [frameAddr_hi8_lo8]; exact hA))
  have vis3 := vis2.trans (onFrame_visible _ _ vis1)
  rw [onFrame_onFrame, hp1] at vis3
  rw [hp1] at run2
  refine ⟨t2, r, r0, r1, r2, Config.freeByte t1.draws, Runs.append run1 run2, ?_⟩
  rw [vis3]
  simp only [sendAllTrace, List.append_assoc, List.append_nil]
  rfl

/-- A WRITE frame of one byte with its enable pulse and settle wait (41_command_framer.md R173, P0 to P8). -/
theorem writeFrame_spec {s : State} {src : Src} {w : Half} (hsrc : ∀ t : State, t.regs.wdata = s.regs.wdata →
      srcValue src t = (w, t.setDraws t.draws)) (hL : Linked s)
    (hd : s.pins.dirCs = .output) (ho : s.pins.outCs = true) (hw : s.dev.wip = false) (hO : s.params.oSettle = true)
    (hA : s.regs.addr.toNat < Config.capacity) :
    ∃ t r r0 r1 r2 r3, Runs (writeFrameSeq s.params src) s t ∧
      visible t = visible (written s.regs.addr [lo8 w] ⟨[Config.opcWren], [r], []⟩
        ⟨[Config.opcWrite, hi8 s.regs.addr, lo8 s.regs.addr, lo8 w], [r0, r1, r2, r3], []⟩ s) := by
  obtain ⟨t1, r, r0, r1, r2, r3, run1, vis1⟩ := writeBody_spec hsrc hL hd ho hw hA
  obtain ⟨t2, run2, vis2⟩ := writeTail_spec hL hd (by simp) hO vis1
  refine ⟨t2, r, r0, r1, r2, r3, ?_, vis2⟩
  have := Runs.append run1 run2
  rw [← List.append_assoc] at this
  exact this

/-- The settle wait with O-SETTLE not assumed: always enabled, nothing commits (70_reset_and_hazards.md R262). -/
def unsettled (s : State) : State := { s with regs := { s.regs with waitcnt := 0 }, trace := .wait :: s.trace }

theorem unsettled_visible {s t : State} (h : visible t = visible s) : visible (unsettled t) = visible (unsettled s) :=
  congrArg unsettled h

/-- A settle wait with no write cycle running, or with O-SETTLE not assumed. -/
theorem wait_open {s : State} (hs : s.sched = []) (h : s.params.oSettle = false ∨ s.dev.wip = false) :
    Runs [.ev .wait] s (unsettled s) := by
  intro rest q
  refine ⟨rest, ?_, fun _ => rfl⟩
  have e : item (.ev .wait) (s.setSeq q) = .went (settleWait (s.setSeq q)) := by
    rcases ho : s.params.oSettle
    · exact item_wait_loose hs ho
    · have hw : s.dev.wip = false := by simpa [ho] using h
      have := item_wait (s := s.setSeq q) hs ho
      rwa [commit_idle (s := s.setSeq q) hw] at this
  rw [List.singleton_append]
  simp only [runSeq, e, settleWait, countDown_eq]
  rfl

end Sys2Proof.Machine
end

