-- ==== Sys2Proof/Laws/Controller.lean ====
section
/-! SUPPORT. The asynchronous controller's steps (40_transport.md R153). -/

namespace Sys2Proof.Machine

open Sys2Proof

/-- Load: the shift register takes TXBUF. -/
theorem ctlStep_load {s : State} (hx : isAsync s = true) (hl : s.ctl.live = true) (hb : s.ctl.srBusy = false)
    (hf : s.ctl.txfull = true) :
    ctlStep s = .ok { s with
      ctl := { s.ctl with srOut := s.ctl.txbuf, txfull := false, srBusy := true, srCnt := 0 } } := by
  unfold ctlStep
  rw [hx, hl, if_pos (by rfl), if_neg (by simp [hb]), if_pos hf]
  rfl

/-- Shift: one bit each way, on one pulse. -/
theorem ctlStep_shift {s : State} {d : Dev} {n n' : Nat} {b : Bool} (hx : isAsync s = true) (hl : s.ctl.live = true)
    (hb : s.ctl.srBusy = true) (hc : s.ctl.srCnt < 8#4) (hp : s.dev.pulse s.ctl.srOut.msb s.draws = .ok (d, n))
    (hs : d.sample n = (b, n')) :
    ctlStep s = .ok { s with
      dev := d, draws := n'
      ctl := { s.ctl with
        srOut := shiftOut s.ctl.srOut, srIn := shiftIn s.ctl.srIn b, srCnt := s.ctl.srCnt + 1 } } := by
  unfold ctlStep
  rw [hx, hl, if_pos (by rfl), if_pos hb, if_pos hc, pulse_ok hp]
  simp only [sampleMiso, State.setDraws_dev, State.setDev_dev, State.setDraws_draws, hs]
  rfl

/-- Done: RXBUF takes the byte received. -/
theorem ctlStep_done {s : State} (hx : isAsync s = true) (hl : s.ctl.live = true) (hb : s.ctl.srBusy = true)
    (hc : s.ctl.srCnt = 8#4) :
    ctlStep s = .ok { s with ctl := { s.ctl with rxbuf := s.ctl.srIn, rxrdy := true, srBusy := false } } := by
  unfold ctlStep
  rw [hx, hl, if_pos (by rfl), if_pos hb, if_neg (by rw [hc]; decide), if_pos hc]
  rfl

theorem envActs_ctl {s t : State} {as : List EnvAct} (h : ctlStep s = .ok t) :
    envActs (.controller :: as) s = envActs as t := by
  simp only [envActs, envAct, h]

/-- The asynchronous controller shows its RXRDY as it is (40_transport.md R152). -/
theorem flag_rxrdy_async {s : State} {b : Bool} (hx : isAsync s = true) (hr : s.ctl.rxrdy = b) :
    flagValue .rxrdy s = b := by
  have ha : s.params.ctrlAtomic = false := by
    unfold isAsync at hx
    simp only [Bool.and_eq_true, Bool.not_eq_true', decide_eq_true_eq] at hx
    exact hx.2
  simp [flagValue, ha, hr]

/-- A poll without a budget that does not see its flag lets the controller take its step (log 14). -/
theorem attempts_ctl {f : Flag} {s t : State} (n : Nat) (hs : s.sched = []) (hb : s.params.pollBudget = none)
    (hf : flagValue f s = false) (h : ctlStep s = .ok t) :
    attempts (n + 1) (.poll f) s = attempts n (.poll f) t := by
  have e : attempt (.poll f) s = .held t := by
    unfold attempt
    simp only [hb, envPoint_quiet hs, hf, h, Bool.false_eq_true, if_false, Move.hold]
  simp only [attempts, e]

/-- A state after k Shifts. -/
def shifted (k : Nat) (r : Byte) (d : Dev) (n : Nat) (s : State) : State :=
  { s with
    dev := d, draws := n
    ctl := { s.ctl with
      srOut := shiftOut^[k] s.ctl.srOut, srIn := r, srCnt := s.ctl.srCnt + BitVec.ofNat 4 k } }

/-- The next of k + 1 Shifts, and what is left for the others. -/
theorem ctlStep_shifts {s : State} {k n : Nat} {r : Byte} {d : Dev} (hx : isAsync s = true) (hl : s.ctl.live = true)
    (hb : s.ctl.srBusy = true) (hc : s.ctl.srCnt.toNat + (k + 1) ≤ 8)
    (h : Dev.exchangeBits (k + 1) s.ctl.srOut s.ctl.srIn s.dev s.draws = .ok (r, d, n)) :
    ∃ t, ctlStep s = .ok t ∧ isAsync t = true ∧ t.ctl.live = true ∧ t.ctl.srBusy = true ∧
      t.ctl.srCnt.toNat + k ≤ 8 ∧ Dev.exchangeBits k t.ctl.srOut t.ctl.srIn t.dev t.draws = .ok (r, d, n) ∧
      t.ctl.rxrdy = s.ctl.rxrdy ∧ t.sched = s.sched ∧ t.params = s.params ∧
      shifted k r d n t = shifted (k + 1) r d n s := by
  obtain ⟨d1, n1, hp, h1⟩ := exchangeBits_succ h
  have h8 : s.ctl.srCnt < 8#4 := by
    rw [BitVec.lt_def]
    show s.ctl.srCnt.toNat < 8
    omega
  refine ⟨_, ctlStep_shift hx hl hb h8 hp rfl, hx, hl, hb, ?_, h1, rfl, rfl, rfl, ?_⟩
  · show (s.ctl.srCnt + 1).toNat + k ≤ 8
    rw [BitVec.toNat_add]
    have : s.ctl.srCnt.toNat < 16 := s.ctl.srCnt.isLt
    simp
    omega
  · have e : s.ctl.srCnt + 1 + BitVec.ofNat 4 k = s.ctl.srCnt + BitVec.ofNat 4 (k + 1) := by
      rw [BitVec.add_assoc]
      congr 1
      apply BitVec.eq_of_toNat_eq
      simp
      omega
    simp only [shifted, e, Function.iterate_succ, Function.comp]

/-- k Shifts are an exchange of k bits (40_transport.md R151, R153): made by the controller on its own. -/
theorem envActs_shifts (k : Nat) (as : List EnvAct) : ∀ {s : State} {n : Nat} {r : Byte} {d : Dev},
    isAsync s = true → s.ctl.live = true → s.ctl.srBusy = true → s.ctl.srCnt.toNat + k ≤ 8 →
    Dev.exchangeBits k s.ctl.srOut s.ctl.srIn s.dev s.draws = .ok (r, d, n) →
    envActs (List.replicate k .controller ++ as) s = envActs as (shifted k r d n s) := by
  induction k with
  | zero =>
    intro s n r d _ _ _ _ h
    cases h
    show envActs as s = envActs as { s with ctl := { s.ctl with srCnt := s.ctl.srCnt + 0#4 } }
    rw [BitVec.add_zero]
  | succ k ih =>
    intro s n r d hx hl hb hc h
    obtain ⟨t, e, h1, h2, h3, h4, h5, -, -, -, h9⟩ := ctlStep_shifts hx hl hb hc h
    rw [List.replicate_succ, List.cons_append, envActs_ctl e, ih h1 h2 h3 h4 h5, h9]

/-- The same while a poll for RXRDY waits for it. -/
theorem attempts_shifts (k j : Nat) : ∀ {s : State} {n : Nat} {r : Byte} {d : Dev}, isAsync s = true →
    s.ctl.live = true → s.ctl.srBusy = true → s.ctl.srCnt.toNat + k ≤ 8 →
    Dev.exchangeBits k s.ctl.srOut s.ctl.srIn s.dev s.draws = .ok (r, d, n) →
    s.sched = [] → s.params.pollBudget = none → s.ctl.rxrdy = false →
    attempts (k + j) (.poll .rxrdy) s = attempts j (.poll .rxrdy) (shifted k r d n s) := by
  induction k with
  | zero =>
    intro s n r d _ _ _ _ h _ _ _
    cases h
    rw [Nat.zero_add]
    show attempts j _ s = attempts j _ { s with ctl := { s.ctl with srCnt := s.ctl.srCnt + 0#4 } }
    rw [BitVec.add_zero]
  | succ k ih =>
    intro s n r d hx hl hb hc h hs hp hr
    obtain ⟨t, e, h1, h2, h3, h4, h5, h6, h7, h8, h9⟩ := ctlStep_shifts hx hl hb hc h
    rw [show k + 1 + j = k + j + 1 by omega, attempts_ctl _ hs hp (flag_rxrdy_async hx hr) e,
      ih h1 h2 h3 h4 h5 (h7.trans hs) (by rw [h8]; exact hp) (h6.trans hr), h9]

/-- After eight shifts nothing is left of the byte. -/
theorem shiftOut_iterate (v : Byte) : shiftOut^[8] v = 0 := shiftOut_eight v

end Sys2Proof.Machine
end

