-- ==== Sys2Proof/Laws/Preserve.lean ====
section
/-! SUPPORT. What every step keeps, said once: a relation between states that every primitive operation respects is
respected by the whole machine (`Kept`), and the relations it is used for. -/

namespace Sys2Proof.Machine

open Sys2Proof

/-- A relation from the state before to the state after that every move of an agent other than the framer respects. -/
structure KeptEnv (K : State → State → Prop) : Prop where
  refl : ∀ s, K s s
  trans : ∀ {s t u}, K s t → K t u → K s u
  ctl : ∀ s c, K s (s.setCtl c)
  draws : ∀ s n, K s (s.setDraws n)
  sched : ∀ s q, K s (s.setSched q)
  pulse : ∀ {m s t}, pulse m s = .ok t → K s t
  commit : ∀ s, K s (commit s)
  line : ∀ l s, K s (s.setDev (s.dev.setLine l))

/-- A relation that every primitive operation of an event or a register transfer respects too. -/
structure Kept (K : State → State → Prop) : Prop extends KeptEnv K where
  bracketWrite : ∀ s b, K s (s.setBracketWrite b)
  tierLow : ∀ s b, K s (s.setTierLow b)
  regs : ∀ s r, (s.regs.inited = true → r.inited = true) →
    (r.status = s.regs.status ∧ r.op = s.regs.op ∧ r.len = s.regs.len) → K s (s.setRegs r)
  dir : ∀ p d s, K s (setDir p d s)
  sck : ∀ s v, K s (s.setPins { s.pins with outSck := v })
  mosi : ∀ s v, K s (s.setPins { s.pins with outMosi := v })
  tier : ∀ s n, K s (s.setTier n)
  log : ∀ s e, K s (s.log e)
  buf : ∀ s i v, K s (bufWrite s i v)
  exchange : ∀ {v s r t}, exchange v s = .ok (r, t) → K s t
  cs : ∀ {v s t}, csLevel v s = .ok t → K s t
  note : ∀ r s, K s (noteReceived r s)

/-- A relation that a move of SEQ respects too, so that a whole sequence does. -/
structure KeptRun (K : State → State → Prop) : Prop extends Kept K where
  seq : ∀ s q, K s (s.setSeq q)

/-- A relation that every primitive respects, the latches of an operation's start and the status of a timeout too. -/
structure KeptAll (K : State → State → Prop) : Prop extends KeptRun K where
  anyRegs : ∀ s r, (s.regs.inited = true → r.inited = true) → K s (s.setRegs r)

section

variable {K : State → State → Prop}

theorem Kept.bufRead (h : Kept K) (s : State) (i : Nat) : K s (bufRead s i).2 := by
  unfold Machine.bufRead
  split
  · exact h.refl s
  · exact h.draws s _

theorem Kept.srcValue (h : Kept K) (src : Src) (s : State) : K s (srcValue src s).2 := by
  cases src <;> first | exact h.refl s | exact h.bufRead s _

theorem Kept.applyUpd (h : Kept K) (u : Upd) (s : State) : K s (applyUpd u s) := by
  cases u <;> simp only [Machine.applyUpd]
  case request op src => exact h.trans (h.srcValue src s) (h.regs _ _ (by exact id) (by exact ⟨rfl, rfl, rfl⟩))
  case storeBuf => exact h.buf s _ _
  case bracketWrite b => exact h.bracketWrite s b
  case returnRx => exact h.trans (h.regs s _ (by exact id) (by exact ⟨rfl, rfl, rfl⟩)) (h.note _ _)
  case setInited => exact h.regs s _ (fun _ => rfl) ⟨rfl, rfl, rfl⟩
  all_goals exact h.regs s _ (by exact id) (by exact ⟨rfl, rfl, rfl⟩)

theorem KeptEnv.ctlStep (h : KeptEnv K) {s t : State} (e : ctlStep s = .ok t) : K s t := by
  unfold Machine.ctlStep at e
  split at e
  · split at e
    · split at e
      · split at e
        · cases e
        · rename_i s' hp
          cases e
          exact h.trans (h.pulse hp) (h.trans (h.draws _ _) (h.ctl _ _))
      · split at e <;> cases e
        · exact h.ctl _ _
        · exact h.refl _
    · split at e <;> cases e
      · exact h.ctl _ _
      · exact h.refl _
  · cases e
    exact h.refl _

theorem Kept.ctlWrite (h : Kept K) {v : Byte} {s t : State} (e : ctlWrite v s = .ok t) : K s t := by
  unfold Machine.ctlWrite at e
  split at e
  · split at e
    · split at e
      · cases e
      · rename_i r s' hx
        cases e
        exact h.trans (h.ctl _ _) (h.trans (h.exchange hx) (h.ctl _ _))
    · cases e
      exact h.refl _
  · split at e
    · cases e
    · cases e
      exact h.ctl _ _

theorem Kept.ctlRead (h : Kept K) {s t : State} {v : Byte} (e : ctlRead s = .ok (v, t)) : K s t := by
  unfold Machine.ctlRead at e
  split at e
  · cases e
  · cases e
    exact h.ctl _ _

theorem KeptEnv.envAct (h : KeptEnv K) {a : EnvAct} {s t : State} (e : envAct a s = .ok t) : K s t := by
  cases a with
  | controller => exact h.ctlStep e
  | commit => cases e; exact h.commit s
  | live b => cases e; exact h.ctl s _
  | line l => cases e; exact h.line l s

theorem KeptEnv.envActs (h : KeptEnv K) {as : List EnvAct} : ∀ {s t : State}, envActs as s = .ok t → K s t := by
  induction as with
  | nil => intro s t e; cases e; exact h.refl s
  | cons a as ih =>
    intro s t e
    simp only [Machine.envActs] at e
    split at e
    · cases e
    · rename_i s' ha
      exact h.trans (h.envAct ha) (ih e)

theorem KeptEnv.envPoint (h : KeptEnv K) {s t : State} (e : envPoint s = .ok t) : K s t := by
  unfold Machine.envPoint at e
  split at e
  · cases e; exact h.refl s
  · exact h.trans (h.sched s _) (h.envActs e)

theorem Kept.drivePin (h : Kept K) {p : OutPin} {v : Bool} {s t : State} (e : drivePin p v s = .ok t) : K s t := by
  unfold Machine.drivePin at e
  split at e
  · cases e
  · split at e
    · cases e
    · refine h.trans (h.log s (.drive p v)) ?_
      cases p with
      | cs => exact h.cs e
      | sck =>
        simp only [lineLevel] at e
        split at e
        · exact h.trans (h.sck _ _) (h.pulse e)
        · cases e; exact h.sck _ _
      | mosi => cases e; exact h.mosi _ _

theorem Kept.settleWait (h : Kept K) (s : State) : K s (settleWait s) := by
  simp only [Machine.settleWait]
  refine h.trans (h.regs s { s.regs with waitcnt := s.params.settleCount } (by exact id) (by exact ⟨rfl, rfl, rfl⟩)) ?_
  exact h.trans (h.regs _ _ (by exact id) (by exact ⟨rfl, rfl, rfl⟩)) (h.log _ _)

theorem Kept.sendRsp (h : Kept K) (d : Half) (s : State) : K s (sendRsp d s) :=
  h.trans (h.regs s _ (by exact id) (by exact ⟨rfl, rfl, rfl⟩)) (h.log _ _)

theorem Kept.perform (h : Kept K) {a : Act} {s t : State} (e : perform a s = .ok t) : K s t := by
  cases a with
  | dir p d => cases e; exact h.trans (h.dir p d s) (h.log _ _)
  | drive p v => exact h.drivePin e
  | driveMosi => exact h.drivePin e
  | sample => cases e; exact h.trans (h.draws s _) (h.trans (h.regs _ _ (by exact id) (by exact ⟨rfl, rfl, rfl⟩)) (h.log _ _))
  | regWrite sel => exact h.trans (h.log s _) (h.ctlWrite e)
  | regWriteDummy => exact h.trans (h.log s _) (h.ctlWrite e)
  | regRead =>
    simp only [Machine.perform] at e
    split at e
    · cases e
    · rename_i v s' hr
      cases e
      exact h.trans (h.ctlRead hr) (h.trans (h.regs _ _ (by exact id) (by exact ⟨rfl, rfl, rfl⟩))
        (h.trans (h.note _ _) (h.log _ _)))
  | wait => cases e; exact h.settleWait s
  | tierLow => cases e; exact h.trans (h.tier s _) (h.trans (h.tierLow _ _) (h.log _ _))
  | tierHigh => cases e; exact h.trans (h.tier s _) (h.trans (h.tierLow _ _) (h.log _ _))
  | rsp src => cases e; exact h.sendRsp _ s

/-- A move keeps the relation: whichever state it comes to is related to the one before. -/
def Move.Keeps (K : State → State → Prop) (s : State) : Move → Prop
  | .went t => K s t
  | .held t => K s t
  | .timedOut t _ => K s t
  | .stopped _ => True

theorem Move.Keeps.after (h : KeptEnv K) {s t : State} {m : Move} (hst : K s t) (hm : m.Keeps K t) : m.Keeps K s := by
  cases m <;> first | exact h.trans hst hm | trivial

theorem Kept.pollTries (h : Kept K) (f : Flag) (n : Nat) : ∀ s, (pollTries f n s).Keeps K s := by
  induction n with
  | zero => exact h.refl
  | succ n ih =>
    intro s
    rw [Machine.pollTries]
    split
    · trivial
    · rename_i s' hp
      split
      · exact h.trans (h.envPoint hp) (h.log _ _)
      · exact (ih _).after h.toKeptEnv (h.trans (h.envPoint hp) (h.regs s' _ (by exact id) (by exact ⟨rfl, rfl, rfl⟩)))

theorem Move.keeps_ofExcept {s : State} {r : Except Fault State} (h : ∀ t, r = .ok t → K s t) :
    (Move.ofExcept r).Keeps K s := by
  rcases r with e | t
  · trivial
  · exact h t rfl

theorem Move.keeps_hold {s : State} {r : Except Fault State} (h : ∀ t, r = .ok t → K s t) :
    (Move.hold r).Keeps K s := by
  rcases r with e | t
  · trivial
  · exact h t rfl

theorem Kept.attempt (h : Kept K) (m : Micro) (s : State) : (attempt m s).Keeps K s := by
  cases m with
  | reg u => exact h.applyUpd u s
  | ev a =>
    simp only [Machine.attempt]
    split
    · trivial
    · rename_i s' he
      split
      · exact h.trans (h.envPoint he) (h.commit s')
      · exact Move.keeps_ofExcept (fun t ht => h.trans (h.envPoint he) (h.perform ht))
  | poll f =>
    simp only [Machine.attempt]
    split
    · exact (h.pollTries f _ _).after h.toKeptEnv (h.regs s _ (by exact id) (by exact ⟨rfl, rfl, rfl⟩))
    · split
      · trivial
      · rename_i s' he
        split
        · exact h.trans (h.envPoint he) (h.log _ _)
        · exact Move.keeps_hold (fun t ht => h.trans (h.envPoint he) (h.ctlStep ht))

theorem Kept.attempts (h : Kept K) (m : Micro) (n : Nat) : ∀ s, (attempts n m s).Keeps K s := by
  induction n with
  | zero => exact h.refl
  | succ n ih =>
    intro s
    have ha := h.attempt m s
    rw [Machine.attempts]
    split
    · rename_i s' e
      rw [e] at ha
      exact (ih s').after h.toKeptEnv ha
    all_goals
      rename_i e
      rw [e] at ha
      exact ha

theorem Kept.item (h : Kept K) (m : Micro) (s : State) : (item m s).Keeps K s := h.attempts m _ s

theorem KeptRun.toNextEvent (h : KeptRun K) (ms : List Micro) : ∀ s, K s (toNextEvent ms s) := by
  induction ms with
  | nil => exact fun s => h.seq s _
  | cons m ms ih =>
    intro s
    cases m with
    | reg u => exact h.trans (h.applyUpd u s) (ih _)
    | ev a => exact h.seq s _
    | poll f => exact h.seq s _

theorem KeptRun.runSeq (h : KeptRun K) (ms : List Micro) : ∀ s, (runSeq ms s).Keeps K s := by
  induction ms with
  | nil => exact h.refl
  | cons m ms ih =>
    intro s
    have hi := h.item m s
    rw [Machine.runSeq]
    split
    · rename_i s' e
      rw [e] at hi
      exact (ih _).after h.toKeptEnv (h.trans hi (h.seq _ _))
    · rename_i s' e
      rw [e] at hi
      exact hi
    · rename_i s' f e
      rw [e] at hi
      exact hi
    · trivial

/-- A move that ends in a next state keeps the relation. -/
theorem Move.Keeps.outcome {s t : State} {m : Move} (h : m.Keeps K s) (e : m.outcome = .next t) : K s t := by
  cases m <;> cases e <;> exact h

theorem Kept.exitDrive (h : Kept K) {s t : State} (e : exitDrive s = .ok t) : K s t := by
  unfold Machine.exitDrive at e
  split at e
  · exact h.perform e
  · cases e
    exact h.refl s

theorem KeptAll.exitStart (h : KeptAll K) {s t : State} (e : exitStart s = .ok t) : K s t := by
  unfold Machine.exitStart at e
  split at e
  · cases e
  · rename_i s' he
    cases e
    exact h.trans (h.anyRegs s _ (by exact id)) (h.trans (h.toKeptRun.toKept.exitDrive he) (h.seq _ _))

theorem KeptAll.timeoutExit (h : KeptAll K) {s t : State} (e : timeoutExit s = .next t) : K s t := by
  unfold Machine.timeoutExit at e
  split at e
  · cases e
  · rename_i s' he
    exact h.trans (h.exitStart he) ((h.toKeptRun.runSeq _ _).outcome e)

theorem KeptAll.runOp (h : KeptAll K) {ms : List Micro} {s t : State} (e : runOp ms s = .next t) : K s t := by
  have hs := h.toKeptRun.runSeq ms (s.setSeq ms)
  refine h.trans (h.seq s ms) ?_
  unfold Machine.runOp at e
  split at e
  · rename_i s' f he
    rw [he] at hs
    exact h.trans hs (h.timeoutExit e)
  · exact hs.outcome e

/-- A step of a running operation respects the relation. -/
theorem KeptAll.advance (h : KeptAll K) {s t : State} (e : advance s = .next t) : K s t := by
  unfold Machine.advance at e
  split at e
  · cases e
    exact h.refl s
  · rename_i m ms _
    have ha := h.toKeptRun.toKept.attempt m s
    split at e
    · rename_i s' he
      rw [he] at ha
      cases e
      exact h.trans ha (h.toKeptRun.toNextEvent ms s')
    · rename_i s' he
      rw [he] at ha
      cases e
      exact ha
    · rename_i s' f he
      rw [he] at ha
      unfold Machine.outcome at e
      split at e
      · cases e
      · rename_i u hu
        cases e
        exact h.trans ha (h.exitStart hu)
    · cases e

theorem KeptAll.whole (h : KeptAll K) {r : Host.Outcome State Fault Refusal} {s t : State}
    (hr : ∀ u, r = .next u → K s u) (e : whole r = .next t) : K s t := by
  unfold Machine.whole at e
  split at e
  · rename_i u
    exact h.trans (hr u rfl) (h.runOp e)
  · cases e
  · cases e

theorem KeptAll.latch (h : KeptAll K) (op : BitVec 4) (addr data len : Half) (s : State) : K s (latch op addr data len s) :=
  h.trans (h.anyRegs s _ (by exact id)) (h.log _ _)

theorem KeptAll.accept (h : KeptAll K) (len : Half) (s : State) : K s (accept len s) :=
  h.trans (h.anyRegs s _ (by exact id)) (h.trans (h.bracketWrite _ _) (h.tierLow _ _))

theorem KeptAll.startHost (h : KeptAll K) {op : BitVec 4} {addr data len : Half} {f : State → List Micro} {s t : State}
    (e : startHost op addr data len f s = .next t) : K s t := by
  unfold Machine.startHost at e
  split at e
  · cases e
  · split at e
    · cases e
      exact h.trans (h.latch op addr data len s) (h.trans (h.anyRegs _ _ (by exact id)) (h.toKeptRun.toKept.sendRsp _ _))
    · cases e
      exact h.trans (h.trans (h.latch op addr data len s) (h.accept len _)) (h.toKeptRun.toNextEvent _ _)

theorem KeptAll.startTransport (h : KeptAll K) {ms : List Micro} {s t : State} (e : startTransport ms s = .next t) :
    K s t := by
  unfold Machine.startTransport at e
  split at e
  · cases e
  · cases e
    exact h.toKeptRun.toNextEvent _ _

end

end Sys2Proof.Machine
end

