-- ==== Sys2Proof/Laws/Shape.lean ====
section
/-! SUPPORT. What the device's operations change of the machine, and the two simplest relations every step respects: the
parameters stay, INITED stays set. -/

namespace Sys2Proof.Machine

open Sys2Proof

theorem pulse_shape {m : Bool} {s t : State} (e : pulse m s = .ok t) :
    ∃ d n, s.dev.pulse m s.draws = .ok (d, n) ∧ t = (s.setDev d).setDraws n := by
  unfold pulse at e
  split at e
  · cases e
  · rename_i d n h
    cases e
    exact ⟨d, n, h, rfl⟩

theorem exchange_shape {v r : Byte} {s t : State} (e : exchange v s = .ok (r, t)) :
    ∃ d n, s.dev.exchange v s.draws = .ok (r, d, n) ∧ t = (s.setDev d).setDraws n := by
  unfold exchange at e
  split at e
  · cases e
  · rename_i r' d n h
    cases e
    exact ⟨d, n, h, rfl⟩

theorem exchangeAll_shape {k : Bool} {vs : List Byte} {s t : State} (e : exchangeAll k vs s = .ok t) :
    ∃ d n, s.dev.exchangeAll k vs s.draws = .ok (d, n) ∧ t = (s.setDev d).setDraws n := by
  unfold exchangeAll at e
  split at e
  · cases e
  · rename_i d n h
    cases e
    exact ⟨d, n, h, rfl⟩

/-- Chip-select: nothing at the same level; a close acts on the frame; an opening opens one (20_memory.md R70). -/
theorem csLevel_shape {v : Bool} {s t : State} (e : csLevel v s = .ok t) :
    (s.pins.outCs = v ∧ t = s) ∨
    (s.pins.outCs = false ∧ v = true ∧ s.dev.frame = none ∧ t = s.setPins { s.pins with outCs := true }) ∨
    (s.pins.outCs = false ∧ v = true ∧ ∃ f, s.dev.frame = some f ∧ f.cnt = 0 ∧
      t = (((s.setPins { s.pins with outCs := true }).setDev
        (Dev.act f.bytes { s.dev with frame := none } s.draws).1).setDraws
        (Dev.act f.bytes { s.dev with frame := none } s.draws).2).logFrame
        { out := f.bytes, replies := f.replies, received := f.received }) ∨
    (s.pins.outCs = true ∧ v = false ∧ (s.dev.line.present = true → s.dev.wip = false) ∧
      t = (s.setPins { s.pins with outCs := false }).setDev { s.dev with frame := some Frame.empty }) := by
  unfold csLevel at e
  split at e
  · rename_i h
    cases e
    exact .inl ⟨h, rfl⟩
  · rename_i h
    cases v
    · have ho : s.pins.outCs = true := by simpa using h
      simp only [Bool.false_eq_true, if_false, openFrame, Dev.openFrame] at e
      split at e
      · cases e
      · rename_i d hd
        split at hd
        · cases hd
        · rename_i hw
          cases hd
          cases e
          exact .inr (.inr (.inr ⟨ho, rfl, by simpa using hw, rfl⟩))
    · have ho : s.pins.outCs = false := by simpa using h
      simp only [if_true, closeFrame] at e
      split at e
      · rename_i hf
        cases e
        exact .inr (.inl ⟨ho, rfl, hf, rfl⟩)
      · rename_i f hf
        split at e
        · rename_i hc
          cases e
          exact .inr (.inr (.inl ⟨ho, rfl, f, hf, hc, rfl⟩))
        · cases e

/-- No primitive changes the parameters. -/
theorem kept_params : KeptAll (fun s t => t.params = s.params) where
  refl _ := rfl
  trans h1 h2 := h2.trans h1
  seq _ _ := rfl
  bracketWrite _ _ := rfl
  tierLow _ _ := rfl
  regs _ _ _ _ := rfl
  anyRegs _ _ _ := rfl
  dir p _ _ := by cases p <;> rfl
  sck _ _ := rfl
  mosi _ _ := rfl
  tier _ _ := rfl
  ctl _ _ := rfl
  draws _ _ := rfl
  sched _ _ := rfl
  log _ _ := rfl
  buf _ _ _ := rfl
  pulse e := by obtain ⟨d, n, -, rfl⟩ := pulse_shape e; rfl
  exchange e := by obtain ⟨d, n, -, rfl⟩ := exchange_shape e; rfl
  cs e := by
    obtain ⟨-, rfl⟩ | ⟨-, -, -, rfl⟩ | ⟨-, -, f, -, -, rfl⟩ | ⟨-, -, -, rfl⟩ := csLevel_shape e <;> rfl
  commit _ := rfl
  note _ _ := rfl
  line _ _ := rfl

/-- No primitive clears INITED. -/
theorem kept_inited : KeptAll (fun s t => s.regs.inited = true → t.regs.inited = true) where
  refl _ := id
  trans h1 h2 := fun h => h2 (h1 h)
  seq _ _ := id
  bracketWrite _ _ := id
  tierLow _ _ := id
  regs _ _ h _ := h
  anyRegs _ _ h := h
  dir p _ _ := by cases p <;> exact id
  sck _ _ := id
  mosi _ _ := id
  tier _ _ := id
  ctl _ _ := id
  draws _ _ := id
  sched _ _ := id
  log _ _ := id
  buf _ _ _ := id
  pulse e := by obtain ⟨d, n, -, rfl⟩ := pulse_shape e; exact id
  exchange e := by obtain ⟨d, n, -, rfl⟩ := exchange_shape e; exact id
  cs e := by
    obtain ⟨-, rfl⟩ | ⟨-, -, -, rfl⟩ | ⟨-, -, f, -, -, rfl⟩ | ⟨-, -, -, rfl⟩ := csLevel_shape e <;> exact id
  commit _ := id
  note _ _ := id
  line _ _ := id

/-- No primitive of a running operation writes OP, LEN or STATUS: the start and the exit of an operation do. -/
theorem kept_latches :
    KeptRun (fun s t => t.regs.status = s.regs.status ∧ t.regs.op = s.regs.op ∧ t.regs.len = s.regs.len) where
  refl _ := ⟨rfl, rfl, rfl⟩
  trans h1 h2 := ⟨h2.1.trans h1.1, h2.2.1.trans h1.2.1, h2.2.2.trans h1.2.2⟩
  seq _ _ := ⟨rfl, rfl, rfl⟩
  bracketWrite _ _ := ⟨rfl, rfl, rfl⟩
  tierLow _ _ := ⟨rfl, rfl, rfl⟩
  regs _ _ _ h := h
  dir p _ _ := by cases p <;> exact ⟨rfl, rfl, rfl⟩
  sck _ _ := ⟨rfl, rfl, rfl⟩
  mosi _ _ := ⟨rfl, rfl, rfl⟩
  tier _ _ := ⟨rfl, rfl, rfl⟩
  ctl _ _ := ⟨rfl, rfl, rfl⟩
  draws _ _ := ⟨rfl, rfl, rfl⟩
  sched _ _ := ⟨rfl, rfl, rfl⟩
  log _ _ := ⟨rfl, rfl, rfl⟩
  buf _ _ _ := ⟨rfl, rfl, rfl⟩
  pulse e := by obtain ⟨d, n, -, rfl⟩ := pulse_shape e; exact ⟨rfl, rfl, rfl⟩
  exchange e := by obtain ⟨d, n, -, rfl⟩ := exchange_shape e; exact ⟨rfl, rfl, rfl⟩
  cs e := by
    obtain ⟨-, rfl⟩ | ⟨-, -, -, rfl⟩ | ⟨-, -, f, -, -, rfl⟩ | ⟨-, -, -, rfl⟩ := csLevel_shape e <;> exact ⟨rfl, rfl, rfl⟩
  commit _ := ⟨rfl, rfl, rfl⟩
  note _ _ := ⟨rfl, rfl, rfl⟩
  line _ _ := ⟨rfl, rfl, rfl⟩

/-- A sequence that ends in a next state leaves OP and LEN, and STATUS or DeviceTimeout's code in it. -/
theorem runOp_latches {ms : List Micro} {s t : State} (e : runOp ms s = .next t) :
    (t.regs.status = s.regs.status ∨ t.regs.status = Status.deviceTimeout.code) ∧ t.regs.op = s.regs.op ∧
      t.regs.len = s.regs.len := by
  have hs := kept_latches.runSeq ms (s.setSeq ms)
  unfold runOp at e
  split at e
  · rename_i s' f he
    rw [he] at hs
    unfold timeoutExit at e
    split at e
    · cases e
    · rename_i u hu
      have h2 := (kept_latches.runSeq u.seq u).outcome e
      unfold exitStart at hu
      split at hu
      · cases hu
      · rename_i v hv
        cases hu
        have h1 := kept_latches.toKept.exitDrive hv
        exact ⟨.inr (h2.1.trans h1.1), h2.2.1.trans (h1.2.1.trans hs.2.1), h2.2.2.trans (h1.2.2.trans hs.2.2)⟩
  · have h := hs.outcome e
    exact ⟨.inl h.1, h.2.1, h.2.2⟩

/-- What a relation needs beside `Kept` to be respected by wire commands: a whole byte sequence on the wire. -/
def KeptWire (K : State → State → Prop) : Prop := ∀ k vs s t, exchangeAll k vs s = .ok t → K s t

theorem keptWire_params : KeptWire (fun s t => t.params = s.params) := by
  intro k vs s t e
  obtain ⟨d, n, -, rfl⟩ := exchangeAll_shape e
  rfl

theorem keptWire_inited : KeptWire (fun s t => s.regs.inited = true → t.regs.inited = true) := by
  intro k vs s t e
  obtain ⟨d, n, -, rfl⟩ := exchangeAll_shape e
  exact id

section

variable {K : State → State → Prop}

theorem Kept.runFrame (h : Kept K) (hw : KeptWire K) {bytes dummies : List Byte} {s t : State}
    (e : runFrame bytes dummies s = .next t) : K s t := by
  unfold Machine.runFrame frameBracket outcome at e
  split at e
  · cases e
  · split at e
    · cases e
    · rename_i t' he
      cases e
      split at he
      · cases he
      · rename_i s1 h1
        split at he
        · cases he
        · rename_i s2 h2
          split at he
          · cases he
          · rename_i s3 h3
            exact h.trans (h.cs h1) (h.trans (hw _ _ _ _ h2) (h.trans (hw _ _ _ _ h3) (h.cs he)))

/-- Every start of an instruction respects the relation. -/
theorem KeptAll.start (h : KeptAll K) (hw : KeptWire K) {i : Instr} {s t : State} (e : start i s = .next t) : K s t := by
  cases i with
  | wren => exact h.toKeptRun.toKept.runFrame hw e
  | write a d => exact h.toKeptRun.toKept.runFrame hw e
  | read a d => exact h.toKeptRun.toKept.runFrame hw e
  | init a d l => simp only [Machine.start, startInit] at e; exact h.startHost e
  | readByte a d l => simp only [Machine.start, startReadByte] at e; exact h.startHost e
  | writeByte a d l => simp only [Machine.start, startWriteByte] at e; exact h.startHost e
  | readWord a d l => simp only [Machine.start, startReadWord] at e; exact h.startHost e
  | writeWord a d l => simp only [Machine.start, startWriteWord] at e; exact h.startHost e
  | readArray a d l => simp only [Machine.start, startReadArray] at e; exact h.startHost e
  | writeArray a d l => simp only [Machine.start, startWriteArray] at e; exact h.startHost e
  | eraseAll a d l => simp only [Machine.start, startEraseAll] at e; exact h.startHost e
  | reservedHost k a d l => simp only [Machine.start, startReservedHost] at e; exact h.startHost e
  | sendByte t => simp only [Machine.start, startSendByte] at e; exact h.startTransport e
  | sendWord t => simp only [Machine.start, startSendWord] at e; exact h.startTransport e
  | receiveByte t => simp only [Machine.start, startReceiveByte] at e; exact h.startTransport e
  | reservedTransport t => cases e

/-- An instruction of the block is its start, run whole; a frame is applied whole, and code 3 stops. -/
theorem exec_cases (i : Instr) (s : State) : exec i s = whole (start i s) ∨ exec i s = start i s := by
  cases i <;> first | exact .inl rfl | exact .inr rfl

/-- Every instruction respects the relation. -/
theorem KeptAll.exec (h : KeptAll K) (hw : KeptWire K) {i : Instr} {s t : State} (e : exec i s = .next t) : K s t := by
  rcases exec_cases i s with hx | hx
  · rw [hx] at e
    exact h.whole (fun u hu => h.start hw hu) e
  · rw [hx] at e
    exact h.start hw e

/-- Every step respects the relation, a reset apart. -/
theorem KeptAll.step (h : KeptAll K) (hw : KeptWire K) (hi : ∀ s q, K s (s.setInbox q)) {s t : State}
    (e : step s = .next t) : K s t ∨ (s.seq = [] ∧ ∃ rest, s.inbox = .reset :: rest ∧ t = blockReset (s.setInbox rest)) := by
  unfold Machine.step at e
  split at e
  · exact .inl (h.advance e)
  · rename_i hb
    have hs : s.seq = [] := by simpa [State.busy] using hb
    unfold idleStep at e
    split at e
    · rename_i r rest hin
      cases r with
      | instr im =>
        refine .inl (h.trans (hi s rest) ?_)
        cases im with
        | cmd w => exact h.exec hw e
        | micro w => exact h.exec hw e
        | frame bytes =>
          simp only [serve, present] at e
          split at e
          · exact h.exec hw e
          · exact h.toKeptRun.toKept.runFrame hw e
      | start im =>
        refine .inl (h.trans (hi s rest) ?_)
        cases im with
        | cmd w => exact h.start hw e
        | micro w => exact h.start hw e
        | frame bytes =>
          simp only [serve, presentStart, present] at e
          split at e
          · exact h.exec hw e
          · exact h.toKeptRun.toKept.runFrame hw e
      | bufWrite i v =>
        cases e
        exact .inl (h.trans (hi s rest) (h.buf _ _ _))
      | env acts =>
        simp only [serve, outcome] at e
        split at e
        · cases e
        · rename_i s' he
          cases e
          exact .inl (h.trans (hi s rest) (h.toKeptRun.toKept.toKeptEnv.envActs he))
      | reset =>
        cases e
        exact .inr ⟨hs, rest, hin, rfl⟩
    · simp only [outcome] at e
      split at e
      · cases e
      · rename_i s' he
        cases e
        exact .inl (h.toKeptRun.toKept.toKeptEnv.envPoint he)

end

end Sys2Proof.Machine
end

