-- ==== Sys2Proof/Laws/Events.lean ====
section
/-! SUPPORT. One step of a running operation: it makes at most one event, SEQ is moved by the sequencer alone, and the
steps of a started operation come to what its whole run comes to. -/

namespace Sys2Proof.Machine

open Sys2Proof

/-! What an attempt leaves of SEQ and of the trace. -/

/-- Neither an event nor another agent writes SEQ. -/
theorem kept_seq : Kept (fun s t => t.seq = s.seq) where
  refl _ := rfl
  trans h1 h2 := h2.trans h1
  bracketWrite _ _ := rfl
  tierLow _ _ := rfl
  regs _ _ _ _ := rfl
  dir p _ _ := by cases p <;> rfl
  sck _ _ := rfl
  mosi _ _ := rfl
  tier _ _ := rfl
  ctl _ _ := rfl
  draws _ _ := rfl
  sched _ _ := rfl
  log _ _ := rfl
  buf _ _ _ := rfl
  pulse e := by obtain ⟨d, n, -, rfl⟩ := pulse_shape e; rfl
  exchange e := by obtain ⟨d, n, -, rfl⟩ := exchange_shape e; rfl
  cs e := by
    obtain ⟨-, rfl⟩ | ⟨-, -, -, rfl⟩ | ⟨-, -, f, -, -, rfl⟩ | ⟨-, -, -, rfl⟩ := csLevel_shape e <;> rfl
  commit _ := rfl
  note _ _ := rfl
  line _ _ := rfl

/-- Another agent makes no event of the block and changes neither its pins nor the parameters. -/
theorem env_quiet : KeptEnv (fun s t => t.trace = s.trace ∧ t.pins = s.pins ∧ t.params = s.params) where
  refl _ := ⟨rfl, rfl, rfl⟩
  trans h1 h2 := ⟨h2.1.trans h1.1, h2.2.1.trans h1.2.1, h2.2.2.trans h1.2.2⟩
  ctl _ _ := ⟨rfl, rfl, rfl⟩
  draws _ _ := ⟨rfl, rfl, rfl⟩
  sched _ _ := ⟨rfl, rfl, rfl⟩
  pulse e := by obtain ⟨d, n, -, rfl⟩ := pulse_shape e; exact ⟨rfl, rfl, rfl⟩
  commit _ := ⟨rfl, rfl, rfl⟩
  line _ _ := ⟨rfl, rfl, rfl⟩

theorem drivePin_trace {p : OutPin} {v : Bool} {s t : State} (e : drivePin p v s = .ok t) :
    t.trace = .drive p v :: s.trace := by
  unfold drivePin at e
  split at e
  · cases e
  · split at e
    · cases e
    · cases p with
      | cs =>
        obtain ⟨-, rfl⟩ | ⟨-, -, -, rfl⟩ | ⟨-, -, f, -, -, rfl⟩ | ⟨-, -, -, rfl⟩ := csLevel_shape e <;> rfl
      | sck =>
        simp only [lineLevel] at e
        split at e
        · obtain ⟨d, n, -, rfl⟩ := pulse_shape e; rfl
        · cases e; rfl
      | mosi => cases e; rfl

theorem ctlWrite_trace {v : Byte} {s t : State} (e : ctlWrite v s = .ok t) : t.trace = s.trace := by
  unfold ctlWrite at e
  split at e
  · split at e
    · split at e
      · cases e
      · rename_i r s' hx
        obtain ⟨d, n, -, rfl⟩ := exchange_shape hx
        cases e
        rfl
    · cases e
      rfl
  · split at e <;> cases e
    rfl

/-- An event that is made is one event on the trace (00_scope.md R10). -/
theorem perform_trace {a : Act} {s t : State} (e : perform a s = .ok t) : ∃ ev, t.trace = ev :: s.trace := by
  cases a with
  | dir p d => cases e; exact ⟨.dir p d, by cases p <;> rfl⟩
  | drive p v => exact ⟨_, drivePin_trace e⟩
  | driveMosi => exact ⟨_, drivePin_trace e⟩
  | regWrite sel => exact ⟨_, ctlWrite_trace e⟩
  | regWriteDummy => exact ⟨_, ctlWrite_trace e⟩
  | regRead =>
    simp only [perform, ctlRead] at e
    split at e
    · cases e
    · rename_i v s' hr
      split at hr
      · cases hr
      · cases hr
        cases e
        exact ⟨_, rfl⟩
  | _ => cases e; exact ⟨_, rfl⟩

/-- What an attempt at an event or a poll leaves: only the settle wait under O-SETTLE and a poll without a budget hold,
only a poll with one times out. -/
def Move.OneEvent (m : Micro) (s : State) : Move → Prop
  | .went t => ∃ e, t.trace = e :: s.trace
  | .held t => t.trace = s.trace ∧
      ((m = .ev .wait ∧ s.params.oSettle = true) ∨ ∃ f, m = .poll f ∧ s.params.pollBudget = none)
  | .timedOut t _ => t.trace = s.trace ∧ t.pins = s.pins ∧ ∃ f, m = .poll f ∧ s.params.pollBudget ≠ none
  | .stopped _ => True

theorem pollTries_oneEvent (f : Flag) (n : Nat) : ∀ {s s0 : State}, s.trace = s0.trace → s.pins = s0.pins →
    s0.params.pollBudget ≠ none → (pollTries f n s).OneEvent (.poll f) s0 := by
  induction n with
  | zero => intro s s0 h1 h2 hb; exact ⟨h1, h2, f, rfl, hb⟩
  | succ n ih =>
    intro s s0 h1 h2 hb
    rw [pollTries]
    split
    · trivial
    · rename_i s' he
      obtain ⟨q1, q2, -⟩ := env_quiet.envPoint he
      split
      · exact ⟨_, congrArg (Event.poll f :: ·) (q1.trans h1)⟩
      · exact ih (q1.trans h1) (q2.trans h2) hb

theorem attempt_oneEvent {m : Micro} (s : State) (hm : ∀ u, m ≠ .reg u) : (attempt m s).OneEvent m s := by
  cases m with
  | reg u => exact absurd rfl (hm u)
  | ev a =>
    simp only [attempt]
    split
    · trivial
    · rename_i s' he
      obtain ⟨q1, -, q3⟩ := env_quiet.envPoint he
      split
      · rename_i hw
        simp only [waitHeld, q3, Bool.and_eq_true, decide_eq_true_eq] at hw
        exact ⟨q1, .inl ⟨by rw [hw.1.1], hw.1.2⟩⟩
      · rcases hp : perform a s' with e | t
        · trivial
        · obtain ⟨ev, h⟩ := perform_trace hp
          exact ⟨ev, by rw [h, q1]⟩
  | poll f =>
    simp only [attempt]
    split
    · rename_i hb
      exact pollTries_oneEvent f _ rfl rfl (by rw [hb]; simp)
    · rename_i hb
      split
      · trivial
      · rename_i s' he
        obtain ⟨q1, -⟩ := env_quiet.envPoint he
        split
        · exact ⟨_, congrArg (Event.poll f :: ·) q1⟩
        · rcases hp : ctlStep s' with e | t
          · trivial
          · exact ⟨(env_quiet.ctlStep hp).1.trans q1, .inr ⟨f, rfl, hb⟩⟩

theorem toNextEvent_trace (ms : List Micro) : ∀ s, (toNextEvent ms s).trace = s.trace := by
  induction ms with
  | nil => intro s; rfl
  | cons m ms ih =>
    intro s
    cases m with
    | reg u =>
      rw [toNextEvent, ih]
      cases u with
      | request op src =>
        cases src <;> simp only [applyUpd, srcValue, bufRead] <;> first | rfl | (split <;> rfl)
      | loadShift sel => cases sel <;> rfl
      | _ => rfl
    | ev a => rfl
    | poll f => rfl

/-! The steps of a started operation. -/

theorem step_busy {s : State} {m : Micro} {ms : List Micro} (h : s.seq = m :: ms) : step s = advance s := by
  simp [step, State.busy, h]

/-- A run that goes on from the state after a step. -/
theorem steps_from {s t : State} {r : Host.Outcome State Fault Refusal} (h : step s = .next t)
    (hr : ∃ n, steps n t = r) : ∃ n, steps n s = r := by
  obtain ⟨n, hn⟩ := hr
  exact ⟨n + 1, by simp only [steps, h, hn]⟩

theorem steps_fault {s : State} {e : Fault} (h : step s = .fault e) : ∃ n, steps n s = .fault e :=
  ⟨1, by simp only [steps, h]⟩

/-- What the steps at one item come to, if what follows them comes to `r`. -/
def Move.Then (ms : List Micro) (r : Host.Outcome State Fault Refusal) : Move → Prop
  | .went t => ∃ n, steps n (toNextEvent ms t) = r
  | .held t => r = .next t
  | .timedOut t _ => ∀ u, (exitStart t = .ok u → ∃ n, steps n u = r) ∧ (∀ e, exitStart t = .error e → r = .fault e)
  | .stopped e => r = .fault e

theorem attempts_steps {m : Micro} {ms : List Micro} {r : Host.Outcome State Fault Refusal} (k : Nat) : ∀ {s : State},
    s.seq = m :: ms → (attempts k m s).Then ms r → ∃ n, steps n s = r := by
  induction k with
  | zero =>
    intro s _ h
    exact ⟨0, h.symm⟩
  | succ k ih =>
    intro s hq h
    have hs : step s = advance s := step_busy hq
    simp only [advance, hq] at hs
    have hk := kept_seq.attempt m s
    rw [attempts] at h
    rcases ha : attempt m s with t | t | ⟨t, f⟩ | e
    · rw [ha] at h hs
      exact steps_from hs h
    · rw [ha] at h hs hk
      exact steps_from hs (ih (hk.trans hq) h)
    · rw [ha] at h hs
      simp only [] at hs
      rcases hx : exitStart t with e | u
      · rw [hx] at hs
        rw [(h s).2 e hx]
        exact steps_fault hs
      · rw [hx] at hs
        exact steps_from hs ((h u).1 hx)
    · rw [ha] at h hs
      rw [show r = .fault e from h]
      exact steps_fault hs

/-- An event raises no timeout. -/
theorem attempts_ev (k : Nat) (a : Act) (t : State) (f : Flag) : ∀ s, attempts k (.ev a) s ≠ .timedOut t f := by
  induction k with
  | zero => intro s h; cases h
  | succ k ih =>
    intro s h
    rw [attempts] at h
    rcases hx : attempt (.ev a) s with u | u | ⟨u, g⟩ | e
    · rw [hx] at h; cases h
    · rw [hx] at h; exact ih _ h
    · simp only [attempt] at hx
      split at hx
      · cases hx
      · rename_i s' _
        split at hx
        · cases hx
        · rcases hp : perform a s' with e | s'' <;> simp [hp, Move.ofExcept] at hx
    · rw [hx] at h; cases h

/-- The steps of a sequence come to what its whole run comes to, if those of its error exit do. -/
theorem steps_runOp_of (ms : List Micro) (H : ∀ t u, (∃ f, Micro.poll f ∈ ms) → exitStart t = .ok u →
    ∃ n, steps n u = (runSeq u.seq u).outcome) : ∀ s, ∃ n, steps n (toNextEvent ms s) = runOp ms s := by
  induction ms with
  | nil => exact fun s => ⟨0, rfl⟩
  | cons m ms ih =>
    intro s
    have ih' := ih (fun t u hm => H t u (by obtain ⟨f, hf⟩ := hm; exact ⟨f, List.mem_cons_of_mem _ hf⟩))
    by_cases hr : ∃ u, m = .reg u
    · obtain ⟨u, rfl⟩ := hr
      obtain ⟨n, hn⟩ := ih' (applyUpd u s)
      refine ⟨n, ?_⟩
      rw [toNextEvent, hn]
      unfold runOp
      rw [runSeq_reg, applyUpd_setSeq]
      rfl
    · have e : toNextEvent (m :: ms) s = s.setSeq (m :: ms) := by
        cases m with
        | reg u => exact absurd ⟨u, rfl⟩ hr
        | ev a => rfl
        | poll f => rfl
      rw [e]
      refine attempts_steps holdTries (m := m) (ms := ms) rfl ?_
      unfold runOp runSeq item
      rcases ha : attempts holdTries m (s.setSeq (m :: ms)) with t | t | ⟨t, f⟩ | e
      · exact ih' t
      · rfl
      · have hp : ∃ f, Micro.poll f ∈ m :: ms := by
          cases m with
          | reg u => exact absurd ⟨u, rfl⟩ hr
          | ev a => exact absurd ha (attempts_ev _ _ _ _ _)
          | poll g => exact ⟨g, List.mem_cons_self⟩
        intro u
        refine ⟨fun hu => ?_, fun e he => ?_⟩
        · obtain ⟨n, hn⟩ := H t u hp hu
          exact ⟨n, by rw [hn]; simp only [timeoutExit, hu]⟩
        · simp only [timeoutExit, he]
      · rfl

/-- A sequence without a poll raises no timeout. -/
theorem runSeq_noPoll (ms : List Micro) (h : ∀ f, Micro.poll f ∉ ms) : ∀ s t f, runSeq ms s ≠ .timedOut t f := by
  induction ms with
  | nil => intro s t f e; cases e
  | cons m ms ih =>
    intro s t f e
    rw [runSeq] at e
    rcases ha : item m s with u | u | ⟨u, g⟩ | e'
    · rw [ha] at e
      exact ih (fun f hf => h f (List.mem_cons_of_mem _ hf)) _ _ _ e
    · rw [ha] at e; cases e
    · cases m with
      | reg u' => cases ha
      | ev a => exact attempts_ev _ _ _ _ _ ha
      | poll g' => exact h g' List.mem_cons_self
    · rw [ha] at e; cases e

theorem exitSeq_noPoll (s : State) : ∀ f, Micro.poll f ∉ exitSeq s := by
  intro f h
  unfold exitSeq at h
  simp only [List.mem_append, List.mem_singleton] at h
  rcases h with (h | h) | h
  · split at h <;> simp at h
  · split at h <;> simp at h
  · cases h

/-- The steps of an exit come to what the whole exit comes to (60_exceptions.md R218 b). -/
theorem steps_exit {t u : State} (h : exitStart t = .ok u) : ∃ n, steps n u = (runSeq u.seq u).outcome := by
  unfold exitStart at h
  split at h
  · cases h
  · rename_i v _
    cases h
    obtain ⟨n, hn⟩ := steps_runOp_of (exitSeq t) (fun _ _ hp _ => absurd hp.choose_spec (exitSeq_noPoll t _)) v
    have e : toNextEvent (exitSeq t) v = v.setSeq (exitSeq t) := by
      unfold exitSeq
      split <;> split <;> rfl
    refine ⟨n, ?_⟩
    rw [← e, hn, e]
    unfold runOp
    have hno := runSeq_noPoll (exitSeq t) (exitSeq_noPoll t) (v.setSeq (exitSeq t))
    show _ = (runSeq (exitSeq t) (v.setSeq (exitSeq t))).outcome
    rcases hr : runSeq (exitSeq t) (v.setSeq (exitSeq t)) with x | x | ⟨x, f⟩ | e
    · rfl
    · rfl
    · exact absurd hr (hno x f)
    · rfl

/-- The steps of a started operation come to what its whole run comes to (10_state.md R29; log 11). -/
theorem steps_runOp (ms : List Micro) (s : State) : ∃ n, steps n (toNextEvent ms s) = runOp ms s :=
  steps_runOp_of ms (fun _ _ _ h => steps_exit h) s

/-- A host operation that is started comes, step by step, to its whole run, a check that refuses it included. -/
theorem steps_startHost {op : BitVec 4} {a d l : Half} {f : State → List Micro} {s s0 : State}
    (h : step s0 = startHost op a d l f s) : ∃ n, steps n s0 = whole (startHost op a d l f s) := by
  rw [whole_startHost]
  unfold startHost at h
  unfold runHost
  split at h
  · rename_i hb
    rw [if_pos hb]
    exact ⟨1, by simp only [steps, h]⟩
  · rename_i hb
    rw [if_neg hb]
    rcases hc : startCheck op a l s with _ | st
    · rw [hc] at h
      exact steps_from h (steps_runOp _ _)
    · rw [hc] at h
      exact ⟨1, by simp only [steps, h]⟩

/-- The same of a transport micro-operation. -/
theorem steps_startTransport {ms : List Micro} {s s0 : State} (h : step s0 = startTransport ms s) :
    ∃ n, steps n s0 = whole (startTransport ms s) := by
  rw [whole_startTransport]
  unfold startTransport at h
  unfold runTransport
  split at h
  · rename_i hb
    rw [if_pos hb]
    exact ⟨1, by simp only [steps, h]⟩
  · rename_i hb
    rw [if_neg hb]
    exact steps_from h (steps_runOp _ _)

/-- A whole answer of one step. -/
theorem steps_one {s : State} {r : Host.Outcome State Fault Refusal} (h : step s = r) : ∃ n, steps n s = r := by
  refine ⟨1, ?_⟩
  simp only [steps, h]
  cases r <;> rfl

/-- Every instruction that is started comes, step by step, to what exec answers for it. -/
theorem steps_start {i : Instr} {s s0 : State} (h : step s0 = start i s) : ∃ n, steps n s0 = exec i s := by
  cases i with
  | wren | write | read | reservedTransport => exact steps_one h
  | sendByte | sendWord | receiveByte => exact steps_startTransport h
  | _ => exact steps_startHost h

end Sys2Proof.Machine
end

