-- ==== Sys2Proof/Laws/Inbox.lean ====
section
/-! SUPPORT. No operation of the framer, the device or the controller reads or changes the inbox: each commutes with
giving the state another one (10_state.md R30: the host has no move while an operation runs). -/

namespace Sys2Proof.Machine

open Sys2Proof

/-- A result with another inbox. -/
def keepInbox (q : List Request) : Except Fault State → Except Fault State
  | .ok s => .ok (s.setInbox q)
  | .error e => .error e

variable (q : List Request)

theorem pulse_setInbox (m s) : pulse m (State.setInbox s q) = keepInbox q (pulse m s) := by
  unfold pulse
  show (match s.dev.pulse m s.draws with | .error e => _ | .ok (d, n) => _) = _
  rcases s.dev.pulse m s.draws with e | ⟨d, n⟩ <;> rfl

theorem exchange_setInbox (v s) : exchange v (State.setInbox s q) =
    match exchange v s with
    | .ok (r, t) => .ok (r, t.setInbox q)
    | .error e => .error e := by
  unfold exchange
  show (match s.dev.exchange v s.draws with | .error e => _ | .ok (r, d, n) => _) = _
  rcases s.dev.exchange v s.draws with e | ⟨r, d, n⟩ <;> rfl

theorem csLevel_setInbox (v s) : csLevel v (State.setInbox s q) = keepInbox q (csLevel v s) := by
  unfold csLevel
  show (if s.pins.outCs = v then _ else _) = _
  split
  · rfl
  · split
    · unfold closeFrame
      show (match s.dev.frame with | none => _ | some f => _) =
        keepInbox q (match s.dev.frame with | none => _ | some f => _)
      rcases s.dev.frame with _ | f
      · rfl
      · simp only []; split <;> rfl
    · unfold openFrame
      show (match s.dev.openFrame with | .error e => _ | .ok d => _) =
        keepInbox q (match s.dev.openFrame with | .error e => _ | .ok d => _)
      rcases s.dev.openFrame with e | d <;> rfl

theorem ctlStep_setInbox (s) : ctlStep (State.setInbox s q) = keepInbox q (ctlStep s) := by
  unfold ctlStep
  show (if (isAsync s && s.ctl.live) = true then (if s.ctl.srBusy = true then (if s.ctl.srCnt < 8#4 then _
      else (if s.ctl.srCnt = 8#4 then _ else _)) else (if s.ctl.txfull = true then _ else _)) else _) = _
  split
  · split
    · split
      · rw [show (State.setInbox s q).ctl = s.ctl from rfl, pulse_setInbox]
        rcases pulse s.ctl.srOut.msb s with e | t <;> rfl
      · split <;> rfl
    · split <;> rfl
  · rfl

theorem ctlWrite_setInbox (v s) : ctlWrite v (State.setInbox s q) = keepInbox q (ctlWrite v s) := by
  unfold ctlWrite
  show (if s.params.ctrlAtomic = true then (if s.ctl.live = true then _ else _) else (if s.ctl.txfull = true
      then _ else _)) = _
  split
  · split
    · rw [show (State.setInbox s q).setCtl { (State.setInbox s q).ctl with txbuf := v } =
        (s.setCtl { s.ctl with txbuf := v }).setInbox q from rfl, exchange_setInbox]
      rcases exchange v (s.setCtl { s.ctl with txbuf := v }) with e | ⟨r, t⟩ <;> rfl
    · rfl
  · split <;> rfl

theorem ctlRead_setInbox (s) : ctlRead (State.setInbox s q) =
    match ctlRead s with
    | .ok (r, t) => .ok (r, t.setInbox q)
    | .error e => .error e := by
  unfold ctlRead
  show (if s.params.ctrlAtomic = false ∧ ctlIdle s = false then _ else _) = _
  split <;> rfl

theorem envAct_setInbox (a s) : envAct a (State.setInbox s q) = keepInbox q (envAct a s) := by
  cases a
  · exact ctlStep_setInbox q s
  · rfl
  · rfl
  · rfl

theorem envActs_setInbox (as) : ∀ s, envActs as (State.setInbox s q) = keepInbox q (envActs as s) := by
  induction as with
  | nil => intro s; rfl
  | cons a as ih =>
    intro s
    simp only [envActs, envAct_setInbox]
    rcases envAct a s with e | t
    · rfl
    · exact ih t

theorem envPoint_setInbox (s) : envPoint (State.setInbox s q) = keepInbox q (envPoint s) := by
  unfold envPoint
  show (match s.sched with | [] => _ | as :: rest => _) = keepInbox q (match s.sched with | [] => _ | as :: rest => _)
  rcases s.sched with _ | ⟨as, rest⟩
  · rfl
  · exact envActs_setInbox q as (s.setSched rest)

theorem drivePin_setInbox (p v s) : drivePin p v (State.setInbox s q) = keepInbox q (drivePin p v s) := by
  unfold drivePin
  show (if pinDir p s = .input then _ else (if p = .cs ∧ v = true ∧ isAsync s = true ∧ ctlIdle s = false
      then _ else _)) = _
  split
  · rfl
  · split
    · rfl
    · cases p with
      | cs => exact csLevel_setInbox q v (s.log (.drive .cs v))
      | sck =>
        simp only [lineLevel]
        by_cases hc : v = true ∧ s.pins.outSck = false
        · rw [if_pos (show v = true ∧ ((s.setInbox q).log (.drive .sck v)).pins.outSck = false from hc),
            if_pos (show v = true ∧ (s.log (.drive .sck v)).pins.outSck = false from hc)]
          exact pulse_setInbox q _ ((s.log (.drive .sck v)).setPins { s.pins with outSck := v })
        · rw [if_neg (show ¬ (v = true ∧ ((s.setInbox q).log (.drive .sck v)).pins.outSck = false) from hc),
            if_neg (show ¬ (v = true ∧ (s.log (.drive .sck v)).pins.outSck = false) from hc)]
          rfl
      | mosi => rfl

theorem settleWait_setInbox (s) : settleWait (State.setInbox s q) = (settleWait s).setInbox q := rfl

theorem perform_setInbox (a s) : perform a (State.setInbox s q) = keepInbox q (perform a s) := by
  cases a with
  | dir p d => cases p <;> rfl
  | drive p v => exact drivePin_setInbox q p v s
  | driveMosi => exact drivePin_setInbox q .mosi _ s
  | sample => rfl
  | regWrite sel => 
    have : reqByte sel (State.setInbox s q) = reqByte sel s := by cases sel <;> rfl
    simp only [perform, this]
    exact ctlWrite_setInbox q _ (s.log _)
  | regWriteDummy => exact ctlWrite_setInbox q _ (s.log _)
  | regRead =>
    simp only [perform, ctlRead_setInbox]
    rcases ctlRead s with e | ⟨r, t⟩ <;> rfl
  | wait => simp only [perform, settleWait_setInbox]; rfl
  | tierLow => rfl
  | tierHigh => rfl
  | rsp src => cases src <;> rfl

/-- A move that comes to the same with another inbox. -/
def Move.keepInbox (q : List Request) : Move → Move
  | .went s => .went (s.setInbox q)
  | .held s => .held (s.setInbox q)
  | .timedOut s f => .timedOut (s.setInbox q) f
  | .stopped e => .stopped e

theorem flagValue_setInbox (f s) : flagValue f (State.setInbox s q) = flagValue f s := by cases f <;> rfl

theorem pollTries_setInbox (f n) : ∀ s, pollTries f n (State.setInbox s q) = Move.keepInbox q (pollTries f n s) := by
  induction n with
  | zero => intro s; rfl
  | succ n ih =>
    intro s
    simp only [pollTries, envPoint_setInbox]
    rcases envPoint s with e | t
    · rfl
    · simp only [keepInbox, flagValue_setInbox]
      split
      · rfl
      · exact ih (t.setRegs _)

theorem applyUpd_setInbox (u s) : applyUpd u (State.setInbox s q) = (applyUpd u s).setInbox q := by
  cases u with
  | request op src =>
    cases src <;> try rfl
    simp only [applyUpd, srcValue, bufRead]
    rw [show (State.setInbox s q).buf = s.buf from rfl, show (State.setInbox s q).regs = s.regs from rfl]
    rcases Memory.read s.buf s.regs.idx.toNat with _ | v <;> rfl
  | loadShift sel => cases sel <;> rfl
  | _ => rfl

theorem attempt_setInbox (m s) : attempt m (State.setInbox s q) = Move.keepInbox q (attempt m s) := by
  cases m with
  | reg u => simp only [attempt, applyUpd_setInbox]; rfl
  | ev a =>
    simp only [attempt, envPoint_setInbox]
    rcases envPoint s with e | t
    · rfl
    · simp only [keepInbox]
      rw [show waitHeld a (t.setInbox q) = waitHeld a t from rfl]
      split
      · rfl
      · rw [perform_setInbox]
        rcases perform a t with e | u <;> rfl
  | poll f =>
    unfold attempt
    show (match s.params.pollBudget with | some n => _ | none => _) =
        Move.keepInbox q (match s.params.pollBudget with | some n => _ | none => _)
    rcases s.params.pollBudget with _ | n
    · simp only [envPoint_setInbox]
      rcases envPoint s with e | t
      · rfl
      · simp only [keepInbox, flagValue_setInbox]
        split
        · rfl
        · rw [ctlStep_setInbox]
          rcases ctlStep t with e | u <;> rfl
    · exact pollTries_setInbox q f n (s.setRegs _)

theorem attempts_setInbox (n m) : ∀ s, attempts n m (State.setInbox s q) = Move.keepInbox q (attempts n m s) := by
  induction n with
  | zero => intro s; rfl
  | succ n ih =>
    intro s
    simp only [attempts, attempt_setInbox]
    rcases attempt m s with t | t | ⟨t, f⟩ | e
    · rfl
    · exact ih t
    · rfl
    · rfl

theorem toNextEvent_setInbox (ms) : ∀ s, toNextEvent ms (State.setInbox s q) = (toNextEvent ms s).setInbox q := by
  induction ms with
  | nil => intro s; rfl
  | cons m ms ih =>
    intro s
    cases m with
    | reg u => simp only [toNextEvent, applyUpd_setInbox]; exact ih _
    | ev a => rfl
    | poll f => rfl

theorem exitDrive_setInbox (s) : exitDrive (State.setInbox s q) = keepInbox q (exitDrive s) := by
  unfold exitDrive
  show (if s.pins.outCs = false then _ else _) = _
  split
  · exact perform_setInbox q _ s
  · rfl

theorem exitStart_setInbox (s) : exitStart (State.setInbox s q) = keepInbox q (exitStart s) := by
  unfold exitStart
  rw [show (State.setInbox s q).setRegs { (State.setInbox s q).regs with status := Status.deviceTimeout.code } =
    (s.setRegs { s.regs with status := Status.deviceTimeout.code }).setInbox q from rfl, exitDrive_setInbox]
  rcases exitDrive (s.setRegs { s.regs with status := Status.deviceTimeout.code }) with e | t <;> rfl

/-- The same of an outcome. -/
def keepInboxOut (q : List Request) (r : Host.Outcome State Fault Refusal) : Host.Outcome State Fault Refusal :=
  match r with
  | .next s => .next (s.setInbox q)
  | .fault e => .fault e
  | .refused r => .refused r

/-- A step of a running operation reads nothing of the inbox and leaves it as it is (10_state.md R30). -/
theorem advance_setInbox (s) : advance (State.setInbox s q) = keepInboxOut q (advance s) := by
  unfold advance
  show (match s.seq with | [] => _ | m :: ms => _) = keepInboxOut q (match s.seq with | [] => _ | m :: ms => _)
  rcases s.seq with _ | ⟨m, ms⟩
  · rfl
  · simp only [attempt_setInbox]
    rcases attempt m s with t | t | ⟨t, f⟩ | e
    · simp only [Move.keepInbox, toNextEvent_setInbox]; rfl
    · rfl
    · simp only [Move.keepInbox, exitStart_setInbox]
      rcases exitStart t with e | u <;> rfl
    · rfl

end Sys2Proof.Machine
end

