-- ==== Sys2Proof/Laws/Invariant.lean ====
section
/-! SUPPORT. The invariant primitive by primitive: bits and bytes keep the device's part, chip-select the link between its
level and the frame, Commit the store. -/

namespace Sys2Proof.Machine

open Sys2Proof

/-- The device's part of the invariant. -/
def DevInv (d : Dev) : Prop :=
  Memory.wf d.ee ∧ Memory.below d.ee Config.capacity ∧ (d.wip = true ↔ d.pending.isSome = true) ∧
    (d.frame.isSome = true → d.line.present = true → d.wip = false) ∧ PendingInRange d ∧ FrameInRange d

theorem inv_iff (s : State) : Inv s ↔
    DevInv s.dev ∧ Memory.wf s.buf ∧ Memory.below s.buf Config.bufSize ∧
      (s.dev.frame.isSome = true ↔ s.pins.outCs = false) := by
  unfold Inv DevInv
  tauto

/-- A bit keeps the device's part, and opens or closes no frame. -/
theorem pulse_inv {m : Bool} {d d' : Dev} {n n' : Nat} (e : d.pulse m n = .ok (d', n')) (h : DevInv d) :
    DevInv d' ∧ d'.frame.isSome = d.frame.isSome := by
  unfold Dev.pulse at e
  split at e
  · cases e
    exact ⟨h, rfl⟩
  · rename_i f hf
    split at e
    · cases e
    · rename_i r n1 hr
      split at e
      · cases e
      · rename_i f' ht
        cases e
        obtain ⟨h1, h2, h3, h4, h5, h6⟩ := h
        obtain ⟨hc, hl, hg⟩ := h6 f hf
        refine ⟨⟨h1, h2, h3, fun _ => h4 (by rw [hf]; rfl), h5, ?_⟩, by rw [hf]; rfl⟩
        intro g hgf
        cases hgf
        unfold takeBit at ht
        split at ht
        · rename_i hlt
          cases ht
          exact ⟨by show f.cnt + 1 < 8; exact Nat.succ_lt_succ hlt, hl, hg⟩
        · split at ht
          · rename_i hir
            cases ht
            exact ⟨by show 0 < 8; omega, by simp [hl], hir⟩
          · cases ht

theorem exchangeBits_inv (k : Nat) : ∀ {v r r' : Byte} {d d' : Dev} {n n' : Nat},
    Dev.exchangeBits k v r d n = .ok (r', d', n') → DevInv d → DevInv d' ∧ d'.frame.isSome = d.frame.isSome := by
  induction k with
  | zero => intro v r r' d d' n n' e h; cases e; exact ⟨h, rfl⟩
  | succ k ih =>
    intro v r r' d d' n n' e h
    simp only [Dev.exchangeBits] at e
    split at e
    · cases e
    · rename_i d1 n1 hp
      obtain ⟨i1, f1⟩ := pulse_inv hp h
      obtain ⟨i2, f2⟩ := ih e i1
      exact ⟨i2, f2.trans f1⟩

/-- A byte put on record keeps the device's part. -/
theorem note_inv {d : Dev} (r : Byte) (h : DevInv d) :
    DevInv (d.note r) ∧ (d.note r).frame.isSome = d.frame.isSome ∧ (d.note r).line = d.line := by
  unfold Dev.note
  split
  · exact ⟨h, rfl, rfl⟩
  · rename_i f hf
    obtain ⟨h1, h2, h3, h4, h5, h6⟩ := h
    refine ⟨⟨h1, h2, h3, fun _ => h4 (by rw [hf]; rfl), h5, ?_⟩, by rw [hf]; rfl, rfl⟩
    intro g hg
    cases hg
    exact h6 f hf

/-- A change of the bus keeps the device's part. -/
theorem setLine_inv {d : Dev} (l : Line) (h : DevInv d) :
    DevInv (d.setLine l) ∧ (d.setLine l).frame.isSome = d.frame.isSome := by
  obtain ⟨h1, h2, h3, h4, h5, h6⟩ := h
  refine ⟨⟨h1, h2, h3, ?_, h5, ?_⟩, rfl⟩
  · intro hf hp
    rcases hd : d.frame with _ | f
    · rw [show (d.setLine l).frame = d.frame from rfl, hd] at hf
      cases hf
    · exact h4 (by rw [hd]; rfl) (by simpa [Dev.setLine, hd] using hp)
  · intro f hf
    have hf' : d.frame = some f := hf
    obtain ⟨g1, g2, g3⟩ := h6 f hf'
    exact ⟨g1, g2, by simpa [Dev.inRange, Dev.setLine, hf'] using g3⟩

theorem exchangeAll_inv (k : Bool) (vs : List Byte) : ∀ {d d' : Dev} {n n' : Nat},
    Dev.exchangeAll k vs d n = .ok (d', n') → DevInv d → DevInv d' ∧ d'.frame.isSome = d.frame.isSome := by
  induction vs with
  | nil => intro d d' n n' e h; cases e; exact ⟨h, rfl⟩
  | cons v vs ih =>
    intro d d' n n' e h
    simp only [Dev.exchangeAll] at e
    split at e
    · cases e
    · rename_i r d1 n1 hp
      obtain ⟨i1, f1⟩ := exchangeBits_inv 8 hp h
      cases k
      · obtain ⟨i2, f2⟩ := ih e i1
        exact ⟨i2, f2.trans f1⟩
      · obtain ⟨i0, f0, -⟩ := note_inv r i1
        obtain ⟨i2, f2⟩ := ih e i0
        exact ⟨i2, f2.trans (f0.trans f1)⟩

/-- The address and data of a WRITE frame in range lie inside the store (20_memory.md R72). -/
theorem frameInRange_write_pending (ah al v : Byte) (vs : List Byte)
    (h : frameInRange (Config.opcWrite :: ah :: al :: v :: vs) = true) :
    frameAddr ah al + (v :: vs).length ≤ Config.capacity := by
  simp [frameInRange, Config.opcWrite, Config.opcRead] at h
  exact h.2

/-- What the device does at a close keeps its part, the frame being closed. -/
theorem act_inv {d : Dev} {f : Frame} (n : Nat) (h : DevInv d) (hf : d.frame = some f) :
    DevInv (Dev.act f.bytes { d with frame := none } n).1 ∧ (Dev.act f.bytes { d with frame := none } n).1.frame = none := by
  obtain ⟨h1, h2, h3, h4, h5, h6⟩ := h
  have hg := (h6 f hf).2.2
  have base : ∀ w, DevInv { d with frame := none, wel := w } :=
    fun w => ⟨h1, h2, h3, fun hc => by simp at hc, h5, fun g hgf => by cases hgf⟩
  unfold Dev.act Dev.obey
  split
  · rename_i hp
    have hp : d.line.present = true := hp
    split
    · split <;> exact ⟨base _, rfl⟩
    · split <;> exact ⟨base _, rfl⟩
    · rename_i o ah al v vs hb
      split
      · rename_i ho
        obtain ⟨rfl, -⟩ := ho
        rw [hb] at hg
        refine ⟨⟨h1, h2, by simp, fun hc => by simp at hc, ?_, fun g hgf => by cases hgf⟩, rfl⟩
        intro p hpp
        cases hpp
        exact frameInRange_write_pending ah al v vs (by simpa [Dev.inRange, hp] using hg)
      · exact ⟨base _, rfl⟩
    · exact ⟨base _, rfl⟩
  · exact ⟨base _, rfl⟩

theorem commit_inv {d : Dev} (h : DevInv d) : DevInv d.commit ∧ d.commit.frame = d.frame := by
  obtain ⟨h1, h2, h3, h4, h5, h6⟩ := h
  unfold Dev.commit
  split
  · split
    · rename_i p hp
      exact ⟨⟨Memory.wf_writeList _ _ h1, Memory.below_writeList _ (h5 p hp) h2, by simp, fun _ _ => rfl,
        fun q hq => (by cases hq), h6⟩, rfl⟩
    · rename_i hw _ hp
      have := h3.mp hw
      rw [hp] at this
      cases this
  · exact ⟨⟨h1, h2, h3, h4, h5, h6⟩, rfl⟩

/-- A device change that keeps the device's part and whether a frame is open keeps the invariant. -/
theorem inv_dev {s t : State} (h : Inv s) (hb : t.buf = s.buf) (ho : t.pins.outCs = s.pins.outCs)
    (hd : DevInv t.dev) (hf : t.dev.frame.isSome = s.dev.frame.isSome) : Inv t := by
  rw [inv_iff] at h ⊢
  rw [hb, ho, hf]
  exact ⟨hd, h.2⟩

theorem inv_buf {s : State} (i v : Byte) (h : Inv s) : Inv (bufWrite s i v) := by
  rw [inv_iff] at h ⊢
  refine ⟨h.1, Memory.wf_write _ _ h.2.1, Memory.below_write _ ?_ h.2.2.1, h.2.2.2⟩
  have := i.isLt
  simpa [Config.bufSize] using this

theorem inv_cs {v : Bool} {s t : State} (e : csLevel v s = .ok t) (h : Inv s) : Inv t := by
  have h' := (inv_iff s).mp h
  obtain ⟨hd, hbw, hbb, hfo⟩ := h'
  obtain ⟨-, rfl⟩ | ⟨ho, -, hf, rfl⟩ | ⟨ho, -, f, hf, hc, rfl⟩ | ⟨ho, -, hw, rfl⟩ := csLevel_shape e
  · exact h
  · have := hfo.mpr ho
    rw [hf] at this
    cases this
  · obtain ⟨i1, i2⟩ := act_inv s.draws hd hf
    rw [inv_iff]
    refine ⟨i1, hbw, hbb, ?_⟩
    show (Dev.act f.bytes { s.dev with frame := none } s.draws).1.frame.isSome = true ↔ true = false
    rw [i2]
    simp
  · rw [inv_iff]
    obtain ⟨h1, h2, h3, h4, h5, h6⟩ := hd
    refine ⟨⟨h1, h2, h3, fun _ => hw, h5, ?_⟩, hbw, hbb, ?_⟩
    · intro g hg
      cases hg
      exact ⟨by decide, rfl, by simp [Dev.inRange, Frame.empty, frameInRange]⟩
    · show (some Frame.empty).isSome = true ↔ false = false
      simp

/-- Every primitive keeps the invariant. -/
theorem kept_inv : KeptAll (fun s t => Inv s → Inv t) where
  refl _ := id
  trans h1 h2 := fun h => h2 (h1 h)
  seq _ _ := id
  bracketWrite _ _ := id
  tierLow _ _ := id
  regs _ _ _ _ := id
  anyRegs _ _ _ := id
  dir p _ _ := by cases p <;> exact id
  sck _ _ := id
  mosi _ _ := id
  tier _ _ := id
  ctl _ _ := id
  draws _ _ := id
  sched _ _ := id
  log _ _ := id
  buf _ i v := inv_buf i v
  pulse e h := by
    obtain ⟨d, n, hp, rfl⟩ := pulse_shape e
    obtain ⟨i1, i2⟩ := pulse_inv hp ((inv_iff _).mp h).1
    exact inv_dev h rfl rfl i1 i2
  exchange e h := by
    obtain ⟨d, n, hp, rfl⟩ := exchange_shape e
    obtain ⟨i1, i2⟩ := exchangeBits_inv 8 hp ((inv_iff _).mp h).1
    exact inv_dev h rfl rfl i1 i2
  cs e h := inv_cs e h
  commit s h := by
    obtain ⟨i1, i2⟩ := commit_inv ((inv_iff _).mp h).1
    exact inv_dev h rfl rfl i1 (by show s.dev.commit.frame.isSome = _; rw [i2])
  note r s h := by
    obtain ⟨i1, i2, -⟩ := note_inv r ((inv_iff _).mp h).1
    exact inv_dev h rfl rfl i1 i2
  line l s h := by
    obtain ⟨i1, i2⟩ := setLine_inv l ((inv_iff _).mp h).1
    exact inv_dev h rfl rfl i1 i2

theorem keptWire_inv : KeptWire (fun s t => Inv s → Inv t) := by
  intro k vs s t e h
  obtain ⟨d, n, hp, rfl⟩ := exchangeAll_shape e
  obtain ⟨i1, i2⟩ := exchangeAll_inv k vs hp ((inv_iff _).mp h).1
  exact inv_dev h rfl rfl i1 i2

/-- A reset of the block keeps the store. -/
theorem inv_blockReset {s : State} (h : Inv s) : Inv (blockReset s) := by
  obtain ⟨h1, h2, -⟩ := h
  refine ⟨h1, h2, List.Pairwise.nil, ?_, ?_, ?_, ?_, ?_, ?_⟩
  · intro c hc; cases hc
  · show (none : Option Frame).isSome = true ↔ true = false; simp
  · show false = true ↔ (none : Option Pending).isSome = true; simp
  · intro hf; cases hf
  · intro p hp; cases hp
  · intro f hf; cases hf

end Sys2Proof.Machine
end

