-- ==== Sys2Proof/Laws/Loops.lean ====
section
/-! SUPPORT. The counted loops: the data bytes of an array write, the data bytes of an array read, the addresses of an
erase. -/

namespace Sys2Proof.Machine

open Sys2Proof

/-! Array write (42_array_operations.md R190, A7). -/

/-- IDX is changed. -/
def withIdx (i : Byte) (s : State) : State := { s with regs := { s.regs with idx := i } }

theorem withIdx_visible {s t : State} (i : Byte) (h : visible t = visible s) :
    visible (withIdx i t) = visible (withIdx i s) := congrArg (withIdx i) h

theorem withIdx_onFrame (i : Byte) (f : Frame) (tr : List Event) (s : State) :
    onFrame f tr (withIdx i s) = withIdx i (onFrame f tr s) := rfl

theorem withIdx_withIdx (i j : Byte) (s : State) : withIdx i (withIdx j s) = withIdx i s := rfl

theorem onFrame_self {f : Frame} {s : State} (h : s.dev.frame = some f) : onFrame f [] s = s := by
  unfold onFrame
  rw [← h]
  rfl

theorem bufRead_draws (s : State) (i : Nat) : ∃ n, (bufRead s i).2 = s.setDraws n := by
  unfold bufRead
  split
  · exact ⟨s.draws, rfl⟩
  · exact ⟨_, rfl⟩

theorem bufRead_listed {s : State} {i : Nat} {v : Byte} (h : Memory.read s.buf i = some v) : (bufRead s i).1 = v := by
  unfold bufRead
  rw [h]

/-- The loop of write_array: `n` bytes of BUF from IDX on go into the WRITE frame. -/
theorem writeTurns_spec (n : Nat) : ∀ {s : State} {ah al r0 : Byte} {xs rs rv : List Byte}, Linked s →
    s.dev.frame = some ⟨Config.opcWrite :: ah :: al :: xs, rs, 0, 0, r0, rv⟩ →
    frameAddr ah al < Config.capacity → frameAddr ah al + xs.length + n ≤ Config.capacity →
    s.regs.idx.toNat + n < 256 →
    ∃ t vs rs' r', Runs (repeatSeq n (writeArrayTurn s.params)) s t ∧ vs.length = n ∧
      BufGives s.buf s.regs.idx.toNat vs ∧
      visible t = visible (withIdx (s.regs.idx + BitVec.ofNat 8 n)
        (onFrame ⟨Config.opcWrite :: ah :: al :: (xs ++ vs), rs', 0, 0, r', rv⟩ (sendAllTrace s.params vs) s)) := by
  induction n with
  | zero =>
    intro s ah al r0 xs rs rv hL hf _ _ _
    refine ⟨s, [], rs, r0, Runs.nil s, rfl, fun i v h => by simp at h, ?_⟩
    rw [List.append_nil]
    simp only [sendAllTrace, onFrame_self hf]
    simp [withIdx]
  | succ n ih =>
    intro s ah al r0 xs rs rv hL hf hA hlen hidx
    obtain ⟨n0, hn0⟩ := bufRead_draws s s.regs.idx.toNat
    obtain ⟨t1, run1, vis1, -, -⟩ := callSend_spec (s := s) (src := .bufIdx)
      (w := zext16 (bufRead s s.regs.idx.toNat).1) (n0 := n0) (r := Config.freeByte n0) (n := n0 + 1)
      (b := Config.opcWrite :: ah :: al :: xs) (rs := rs) (r0 := r0) hL (by simp only [srcValue, hn0]) hf
      (replyFor_write _ _ _ _ _)
      (by have := frameInRange_write ah al (xs ++ [(bufRead s s.regs.idx.toNat).1]) hA
            (by simp only [List.length_append, List.length_cons, List.length_nil]; omega)
          rw [lo8_zext16]
          exact this)
    rw [lo8_zext16] at vis1
    have hi1 : t1.regs.idx = s.regs.idx := (visible_idx vis1).trans rfl
    have e : applyUpd .idxInc t1 = withIdx (s.regs.idx + 1) t1 := by rw [← hi1]; rfl
    have vis2 := withIdx_visible (s.regs.idx + 1) vis1
    rw [← e] at vis2
    have hp2 : (applyUpd .idxInc t1).params = s.params := (visible_params vis2).trans rfl
    have hi2 : (applyUpd .idxInc t1).regs.idx = s.regs.idx + 1 := (visible_idx vis2).trans rfl
    have hb2 : (applyUpd .idxInc t1).buf = s.buf := (visible_buf vis2).trans rfl
    have hin : (s.regs.idx + 1).toNat = s.regs.idx.toNat + 1 := by
      rw [BitVec.toNat_add]
      simp
      omega
    obtain ⟨t2, vs, rs', r', run2, hvl, hbuf, vis3⟩ := ih (s := applyUpd .idxInc t1) (ah := ah) (al := al)
      (xs := xs ++ [(bufRead s s.regs.idx.toNat).1]) (rs := rs ++ [Config.freeByte n0]) (r0 := Config.freeByte n0)
      (visible_linked vis2 hL) (by rw [visible_dev vis2]; rfl) hA
      (by simp only [List.length_append, List.length_cons, List.length_nil]; omega)
      (by rw [hi2, hin]; omega)
    rw [hp2] at run2 vis3
    rw [hi2] at vis3 hbuf
    rw [hb2, hin] at hbuf
    refine ⟨t2, (bufRead s s.regs.idx.toNat).1 :: vs, rs', r', ?_, by simp [hvl], ?_, ?_⟩
    · exact Runs.append (Runs.append run1 (Runs.reg _ _)) run2
    · intro i v hlt hm
      rcases i with _ | i
      · rw [Nat.add_zero] at hm
        simp [bufRead_listed hm]
      · rw [List.getElem?_cons_succ]
        exact hbuf i v (by simpa using hlt) (by rw [Nat.add_assoc, Nat.add_comm 1 i]; exact hm)
    · rw [vis3, withIdx_visible _ (onFrame_visible _ _ vis2), withIdx_onFrame, onFrame_onFrame, withIdx_withIdx]
      congr 2
      · rw [BitVec.add_assoc]
        congr 1
        simp [BitVec.ofNat_add, BitVec.add_comm]
      · simp [sendAllTrace]

/-! Array read (42_array_operations.md R193, B4). -/

/-- BUF is changed. -/
def withBuf (m : Memory) (s : State) : State := { s with buf := m }

theorem withBuf_visible {s t : State} (m : Memory) (h : visible t = visible s) :
    visible (withBuf m t) = visible (withBuf m s) := congrArg (withBuf m) h

theorem withBuf_onFrame (m : Memory) (f : Frame) (tr : List Event) (s : State) :
    onFrame f tr (withBuf m s) = withBuf m (onFrame f tr s) := rfl

theorem withBuf_withIdx (m : Memory) (i : Byte) (s : State) : withIdx i (withBuf m s) = withBuf m (withIdx i s) := rfl

theorem withBuf_withBuf (m m' : Memory) (s : State) : withBuf m (withBuf m' s) = withBuf m s := rfl

theorem eeBytes_congr {s t : State} (h : t.dev.ee = s.dev.ee) (a n : Nat) : eeBytes t a n = eeBytes s a n := by
  induction n generalizing a with
  | zero => rfl
  | succ n ih => simp only [eeBytes, ih, eeRead, Dev.read, h]

theorem eeBytes_length (s : State) (a n : Nat) : (eeBytes s a n).length = n := by
  induction n generalizing a with
  | zero => rfl
  | succ n ih => simp [eeBytes, ih]

theorem eeBytes_get (s : State) (a n i : Nat) (h : i < n) : (eeBytes s a n)[i]? = some (eeRead s (a + i)) := by
  induction n generalizing a i with
  | zero => omega
  | succ n ih =>
    rcases i with _ | i
    · rfl
    · rw [eeBytes, List.getElem?_cons_succ, ih (a + 1) i (by omega)]
      congr 2
      omega

/-- The loop of read_array: `n` bytes of the store go into BUF from IDX on. -/
theorem readTurns_spec (n : Nat) : ∀ {s : State} {ah al r0 x : Byte} {xs rs rv : List Byte}, Linked s →
    s.dev.frame = some ⟨Config.opcRead :: ah :: al :: xs, rs, 0, 0, r0, rv⟩ → seen s = x →
    frameAddr ah al < Config.capacity → frameAddr ah al + xs.length + n ≤ Config.capacity →
    s.regs.idx.toNat + n < 256 →
    ∃ t r', Runs (repeatSeq n (readArrayTurn s.params)) s t ∧
      visible t = visible (withBuf (Memory.writeList s.buf s.regs.idx.toNat (eeBytes s (frameAddr ah al + xs.length) n))
        (withIdx (s.regs.idx + BitVec.ofNat 8 n)
          (onFrame ⟨Config.opcRead :: ah :: al :: (xs ++ List.replicate n x),
              rs ++ eeBytes s (frameAddr ah al + xs.length) n, 0, 0, r',
              rv ++ eeBytes s (frameAddr ah al + xs.length) n⟩
            (recvAllTrace s.params (eeBytes s (frameAddr ah al + xs.length) n)) s))) := by
  induction n with
  | zero =>
    intro s ah al r0 x xs rs rv hL hf _ _ _ _
    refine ⟨s, r0, Runs.nil s, ?_⟩
    simp only [eeBytes, List.replicate_zero, List.append_nil, recvAllTrace, onFrame_self hf, Memory.writeList]
    simp [withIdx, withBuf]
  | succ n ih =>
    intro s ah al r0 x xs rs rv hL hf hx hA hlen hidx
    have hlt : frameAddr ah al + xs.length < Config.capacity := by omega
    obtain ⟨t1, run1, vis1, htr1, -, se1⟩ := callRecv_spec (s := s) (x := x)
      (r := eeRead s (frameAddr ah al + xs.length)) (n := s.draws)
      (b := Config.opcRead :: ah :: al :: xs) (rs := rs) (r0 := r0) hL hx hf
      (replyFor_read _ _ _ _ _ (present_linked hL) hlt) (frameInRange_read ah al (xs ++ [x]) hA)
    have hi1 : t1.regs.idx = s.regs.idx := (visible_idx vis1).trans rfl
    have hb1 : t1.buf = s.buf := (visible_buf vis1).trans rfl
    have e : applyUpd .idxInc (applyUpd .storeBuf t1) = withBuf (Memory.write s.buf s.regs.idx.toNat
        (eeRead s (frameAddr ah al + xs.length))) (withIdx (s.regs.idx + 1) t1) := by
      rw [← hi1, ← hb1, ← htr1]; rfl
    have vis2 := withBuf_visible (Memory.write s.buf s.regs.idx.toNat (eeRead s (frameAddr ah al + xs.length)))
      (withIdx_visible (s.regs.idx + 1) vis1)
    rw [← e] at vis2
    have hp2 : (applyUpd .idxInc (applyUpd .storeBuf t1)).params = s.params := (visible_params vis2).trans rfl
    have hi2 : (applyUpd .idxInc (applyUpd .storeBuf t1)).regs.idx = s.regs.idx + 1 := (visible_idx vis2).trans rfl
    have hb2 : (applyUpd .idxInc (applyUpd .storeBuf t1)).buf = _ := (visible_buf vis2).trans rfl
    have he2 : (applyUpd .idxInc (applyUpd .storeBuf t1)).dev.ee = s.dev.ee := by rw [visible_dev vis2]; rfl
    have hin : (s.regs.idx + 1).toNat = s.regs.idx.toNat + 1 := by
      rw [BitVec.toNat_add]
      simp
      omega
    obtain ⟨t2, r', run2, vis3⟩ := ih (s := applyUpd .idxInc (applyUpd .storeBuf t1)) (ah := ah) (al := al) (x := x)
      (xs := xs ++ [x]) (rs := rs ++ [eeRead s (frameAddr ah al + xs.length)])
      (r0 := eeRead s (frameAddr ah al + xs.length))
      (visible_linked vis2 hL) (by rw [visible_dev vis2]; rfl) (by rw [e]; exact se1) hA
      (by simp only [List.length_append, List.length_cons, List.length_nil]; omega)
      (by rw [hi2, hin]; omega)
    have hl : frameAddr ah al + (xs ++ [x]).length = frameAddr ah al + xs.length + 1 := by
      simp only [List.length_append, List.length_cons, List.length_nil]; omega
    rw [hl, eeBytes_congr he2, hp2, hi2, hb2, hin] at vis3
    rw [hp2] at run2
    refine ⟨t2, r', ?_, ?_⟩
    · exact Runs.append (Runs.append run1 (Runs.cons (Runs.reg _ _) (Runs.reg _ _))) run2
    · rw [vis3, withBuf_visible _ (withIdx_visible _ (onFrame_visible _ _ vis2)), withBuf_onFrame, withIdx_onFrame,
        onFrame_onFrame, withBuf_withIdx, withIdx_withIdx, withBuf_withBuf]
      have e1 : s.regs.idx + 1 + BitVec.ofNat 8 n = s.regs.idx + BitVec.ofNat 8 (n + 1) := by
        rw [BitVec.add_assoc]
        congr 1
        simp [BitVec.ofNat_add, BitVec.add_comm]
      rw [e1]
      simp only [eeBytes, List.replicate_succ, recvAllTrace, List.append_assoc, List.cons_append,
        List.nil_append]
      rfl

/-! Erase (43_erase_and_init.md R200, E1). -/

/-- The two frames of one turn. -/
def eraseFrames (a : Half) (r r0 r1 r2 r3 : Byte) : List FrameRec :=
  [⟨[Config.opcWrite, hi8 a, lo8 a, Config.eraseFill], [r0, r1, r2, r3], []⟩, ⟨[Config.opcWren], [r], []⟩]

/-- What a loop of erase turns has done: ADDR, WDATA, ERA and the device as given, frames and trace longer. -/
def erased (addr wdata : Half) (era : BitVec 13) (w : Nat) (d : Dev) (fs : List FrameRec) (tr : List Event) (s : State) :
    State :=
  { s with
    pins := { s.pins with outCs := true }
    regs := { s.regs with addr := addr, wdata := wdata, era := era, waitcnt := w }
    dev := d
    frames := fs ++ s.frames
    trace := tr.reverse ++ s.trace }

/-- ERA is changed. -/
def withEra (e : BitVec 13) (s : State) : State := { s with regs := { s.regs with era := e } }

theorem withEra_visible {s t : State} (e : BitVec 13) (h : visible t = visible s) :
    visible (withEra e t) = visible (withEra e s) := congrArg (withEra e) h

theorem erased_visible {s t : State} (addr wdata : Half) (era : BitVec 13) (w : Nat) (d : Dev) (fs : List FrameRec)
    (tr : List Event) (h : visible t = visible s) :
    visible (erased addr wdata era w d fs tr t) = visible (erased addr wdata era w d fs tr s) :=
  congrArg (erased addr wdata era w d fs tr) h

theorem erased_erased (addr wdata addr' wdata' : Half) (era era' : BitVec 13) (w w' : Nat) (d d' : Dev)
    (fs fs' : List FrameRec) (tr tr' : List Event) (s : State) :
    erased addr' wdata' era' w' d' fs' tr' (erased addr wdata era w d fs tr s) =
      erased addr' wdata' era' w' d' (fs' ++ fs) (tr ++ tr') s := by
  simp [erased]

/-- `n` zero bytes at ascending addresses, one write each. -/
def zeroes (m : Memory) (a : Nat) : Nat → Memory
  | 0 => m
  | n + 1 => zeroes (Memory.write m a Config.eraseFill) (a + 1) n

theorem read_zeroes (m : Memory) (a n b : Nat) :
    Memory.read (zeroes m a n) b = if a ≤ b ∧ b < a + n then some Config.eraseFill else Memory.read m b := by
  induction n generalizing m a with
  | zero => simp [zeroes]
  | succ n ih =>
    rw [zeroes, ih]
    by_cases h : b = a
    · subst h
      rw [if_neg (by omega), if_pos (by omega), Memory.read_write_same]
    · rw [Memory.read_write_other _ _ h]
      by_cases h2 : a + 1 ≤ b ∧ b < a + 1 + n
      · rw [if_pos h2, if_pos (by omega)]
      · rw [if_neg h2, if_neg (by omega)]

/-- The store after zero bytes were written from address 0 on. -/
theorem committed_zeroes {s t : State} (n : Nat)
    (h : t.dev = { s.dev with ee := zeroes s.dev.ee 0 n, wel := false, wip := false, pending := none, frame := none }) :
    Committed s t 0 (List.replicate n Config.eraseFill) := by
  refine ⟨by rw [h], by rw [h], by rw [h], by rw [h], by rw [h], fun b => ?_⟩
  show t.dev.read b = _
  rw [h]
  simp only [Dev.read, read_zeroes, List.length_replicate, Nat.zero_add, Nat.zero_le, true_and, Nat.sub_zero]
  split
  · rename_i hb
    simp [hb]
  · rfl

/-- The store after bytes were written from an address on (20_memory.md R79). -/
theorem committed_writeList {s t : State} {a : Nat} {ds : List Byte}
    (h : t.dev = { s.dev with ee := Memory.writeList s.dev.ee a ds, wel := false, wip := false, pending := none, frame := none }) :
    Committed s t a ds := by
  refine ⟨by rw [h], by rw [h], by rw [h], by rw [h], by rw [h], fun b => ?_⟩
  show t.dev.read b = _
  rw [h, Dev.read_writeList]
  rfl

theorem eraseTurn_spec {s : State} {a : Nat} (hL : Linked s) (hd : s.pins.dirCs = .output) (ho : s.pins.outCs = true)
    (hw : s.dev.wip = false) (hO : s.params.oSettle = true) (hE : s.regs.era.toNat = a) (hA : a < Config.capacity) :
    ∃ t r r0 r1 r2 r3, Runs (eraseTurn s.params) s t ∧
      visible t = visible (erased (BitVec.ofNat 16 a) (joinHL (hi8 s.regs.wdata) Config.eraseFill)
        (s.regs.era + 1) 0
        { s.dev with
          ee := Memory.write s.dev.ee a Config.eraseFill, wel := false, wip := false, pending := none, frame := none }
        (eraseFrames (BitVec.ofNat 16 a) r r0 r1 r2 r3) (writeTrace s.params (BitVec.ofNat 16 a) [Config.eraseFill]) s) := by
  have hz : s.regs.era.setWidth 16 = BitVec.ofNat 16 a := by
    apply BitVec.eq_of_toNat_eq
    rw [BitVec.toNat_setWidth, BitVec.toNat_ofNat, hE]
  have hA2 : (BitVec.ofNat 16 a).toNat = a := by
    rw [BitVec.toNat_ofNat]; simp only [Config.capacity] at hA; omega
  obtain ⟨t, r, r0, r1, r2, r3, run, vis⟩ := writeFrame_spec (s := applyUpd .eraLoad s) (src := .wdataLo)
    (w := zext16 Config.eraseFill)
    (by intro t ht; simp only [srcValue, ht]; simp [applyUpd]; rfl) hL hd ho hw hO
    (by show (s.regs.era.setWidth 16).toNat < _; rw [hz, hA2]; exact hA)
  have he : t.regs.era = s.regs.era := (congrArg (fun x => x.regs.era) vis).trans rfl
  have e : applyUpd .eraInc t = withEra (s.regs.era + 1) t := by rw [← he]; rfl
  have ha : (applyUpd .eraLoad s).regs.addr = BitVec.ofNat 16 a := hz
  refine ⟨applyUpd .eraInc t, r, r0, r1, r2, r3, ?_, ?_⟩
  · exact Runs.cons (Runs.reg _ _) (Runs.append run (Runs.reg _ _))
  · rw [e]
    refine (withEra_visible _ vis).trans ?_
    rw [ha]
    simp only [written, hA2, Memory.writeList, lo8_zext16]
    simp only [withEra, erased, applyUpd, State.setRegs, hz]
    rfl

/-- The loop of erase_all. -/
theorem eraseTurns_spec (n : Nat) : ∀ {s : State} {a : Nat}, Linked s → s.pins.dirCs = .output → s.pins.outCs = true →
    s.dev.wip = false → s.params.oSettle = true → s.regs.era.toNat = a → a + (n + 1) ≤ Config.capacity →
    ∃ t fs, Runs (repeatSeq (n + 1) (eraseTurn s.params)) s t ∧
      fs.reverse.map (fun f => f.out) = eraseOuts a (n + 1) ∧
      visible t = visible (erased (BitVec.ofNat 16 (a + n)) (joinHL (hi8 s.regs.wdata) Config.eraseFill)
        (s.regs.era + BitVec.ofNat 13 (n + 1)) 0
        { s.dev with ee := zeroes s.dev.ee a (n + 1), wel := false, wip := false, pending := none, frame := none } fs
        (eraseTrace s.params a (n + 1)) s) := by
  induction n with
  | zero =>
    intro s a hL hd ho hw hO hE hA
    obtain ⟨t, r, r0, r1, r2, r3, run, vis⟩ := eraseTurn_spec hL hd ho hw hO hE (by omega)
    refine ⟨t, eraseFrames (BitVec.ofNat 16 a) r r0 r1 r2 r3, ?_, rfl, ?_⟩
    · simpa only [repeatSeq, List.append_nil] using run
    · simp only [zeroes, eraseTrace, List.append_nil, Nat.add_zero, Nat.zero_add]
      exact vis
  | succ n ih =>
    intro s a hL hd ho hw hO hE hA
    obtain ⟨t1, r, r0, r1, r2, r3, run1, vis1⟩ := eraseTurn_spec hL hd ho hw hO hE (by omega)
    have hp1 : t1.params = s.params := (visible_params vis1).trans rfl
    have hdev1 := visible_dev vis1
    have he1 : t1.regs.era = s.regs.era + 1 := (congrArg (fun x => x.regs.era) vis1).trans rfl
    have hw1 : t1.regs.wdata = joinHL (hi8 s.regs.wdata) Config.eraseFill := (visible_wdata vis1).trans rfl
    obtain ⟨t2, fs, run2, hfs, vis2⟩ := ih (s := t1) (a := a + 1) (visible_linked vis1 hL)
      ((visible_dirCs vis1).trans hd) ((visible_outCs vis1).trans rfl) (by rw [hdev1]; rfl) (by rw [hp1]; exact hO)
      (by rw [he1, BitVec.toNat_add, hE]
          simp only [Config.capacity] at hA
          simp
          omega)
      (by omega)
    refine ⟨t2, fs ++ eraseFrames (BitVec.ofNat 16 a) r r0 r1 r2 r3, ?_, ?_, ?_⟩
    · rw [hp1] at run2
      exact Runs.append run1 run2
    · rw [List.reverse_append, List.map_append, hfs]
      rfl
    · rw [vis2, erased_visible _ _ _ _ _ _ _ vis1, erased_erased, hp1, hw1, he1, hdev1]
      have e1 : s.regs.era + 1 + BitVec.ofNat 13 (n + 1) = s.regs.era + BitVec.ofNat 13 (n + 1 + 1) := by
        rw [BitVec.add_assoc]
        congr 1
        simp [BitVec.ofNat_add, BitVec.add_comm]
      have e2 : a + 1 + n = a + (n + 1) := by omega
      rw [e1, e2, hi8_joinHL]
      rfl

end Sys2Proof.Machine
end

