-- ==== Sys2Proof/Laws/Operation.lean ====
section
/-! SUPPORT. A host operation as a whole: the latches, the checks, the sequence, the response. -/

namespace Sys2Proof.Machine

open Sys2Proof

/-- A refused command (60_exceptions.md R218 a). -/
theorem runHost_refused {op : BitVec 4} {addr data len : Half} {f : State → List Micro} {s : State} {st : Status}
    (hs : s.seq = []) (hc : startCheck op addr len s = some st) :
    runHost op addr data len f s = .next (refusedWith st op addr data len s) := by
  unfold runHost
  rw [busy_idle hs, hc]
  rfl

/-- The state in which an accepted command's sequence begins (10_state.md R30). -/
def begun (op : BitVec 4) (addr data len : Half) (s : State) : State := accept len (latch op addr data len s)

/-- An accepted command whose sequence runs to its end. -/
theorem runHost_runs {op : BitVec 4} {addr data len : Half} {f : State → List Micro} {s t : State}
    (hs : s.seq = []) (hc : startCheck op addr len s = none)
    (h : Runs (f (begun op addr data len s)) (begun op addr data len s) t) :
    runHost op addr data len f s = .next (t.setSeq []) := by
  unfold runHost
  rw [busy_idle hs, hc]
  exact h.whole

/-- An accepted command, whatever its sequence comes to. -/
theorem runHost_accepted {op : BitVec 4} {addr data len : Half} {f : State → List Micro} {s : State}
    (hs : s.seq = []) (hc : startCheck op addr len s = none) :
    runHost op addr data len f s = runOp (f (begun op addr data len s)) (begun op addr data len s) := by
  unfold runHost
  rw [busy_idle hs, hc]
  rfl

/-- The response: STATUS and the data on the port, the event last (60_exceptions.md R219). -/
def answered (d : Half) (s : State) : State := sendRsp d s

theorem answered_visible {s t : State} (d : Half) (h : visible t = visible s) :
    visible (answered d t) = visible (answered d s) := congrArg (answered d) h

theorem rsp_spec {src : RspSrc} {s : State} (hs : s.sched = []) :
    Runs [.ev (.rsp src)] s (answered (rspValue src s) s) := by
  refine Runs.ev hs ?_
  intro q
  cases src <;> rfl

/-- I9 of init: the response and INITED in one (43_erase_and_init.md R203). -/
theorem initEnd_spec {s : State} (hs : s.sched = []) :
    Runs [.ev (.rsp .zero), .reg .setInited] s (answered 0 (applyUpd .setInited s)) :=
  Runs.append (rsp_spec (src := .zero) hs) (Runs.reg .setInited _)

/-- The clock tier is set (42_array_operations.md R190, R193). -/
def tiered (n : Nat) (s : State) : State := { s with tier := n, trace := .clockTier n :: s.trace }

theorem tiered_visible {s t : State} (n : Nat) (h : visible t = visible s) :
    visible (tiered n t) = visible (tiered n s) := congrArg (tiered n) h

/-- The clock tier is set, if the variant throttles. -/
def tierIf (n : Nat) (s : State) : State := if s.params.hasThrottle then tiered n s else s

theorem tierIf_visible {s t : State} (n : Nat) (h : visible t = visible s) :
    visible (tierIf n t) = visible (tierIf n s) := by
  unfold tierIf
  rw [visible_params h]
  split
  · exact tiered_visible n h
  · exact h

theorem tierIf_facts (n : Nat) (s : State) :
    (tierIf n s).params = s.params ∧ (tierIf n s).pins = s.pins ∧ (tierIf n s).dev = s.dev ∧
      (tierIf n s).regs = s.regs ∧ (tierIf n s).buf = s.buf ∧ (Linked s → Linked (tierIf n s)) := by
  unfold tierIf
  split <;> exact ⟨rfl, rfl, rfl, rfl, rfl, id⟩

theorem throttleDown_spec {s : State} (hs : s.sched = []) :
    ∃ t, Runs (throttleDown s.params) s t ∧ visible t = visible (tierIf s.params.tierLow s) ∧
      (s.params.hasThrottle = true → t.tierLow = true) := by
  unfold throttleDown tierIf
  split
  · refine ⟨{ tiered s.params.tierLow s with tierLow := true }, Runs.ev hs ?_, rfl, fun _ => rfl⟩
    intro q
    rfl
  · rename_i h
    exact ⟨s, Runs.nil s, rfl, fun h' => absurd h' h⟩

theorem throttleUp_spec {s : State} (hs : s.sched = []) :
    ∃ t, Runs (throttleUp s.params) s t ∧ visible t = visible (tierIf s.params.tierHigh s) := by
  unfold throttleUp tierIf
  split
  · refine ⟨{ tiered s.params.tierHigh s with tierLow := false }, Runs.ev hs ?_, rfl⟩
    intro q
    rfl
  · exact ⟨s, Runs.nil s, rfl⟩

/-! The checks (60_exceptions.md R216). -/

theorem startCheck_init (addr len : Half) (s : State) : startCheck 0x0#4 addr len s = none := by
  simp [startCheck, isArrayOp, addressBad]

theorem startCheck_byte {op : BitVec 4} {addr len : Half} {s : State} (hop : op = 0x1#4 ∨ op = 0x2#4)
    (hi : s.regs.inited = true) (ha : addr.toNat < 4096) : startCheck op addr len s = none := by
  rcases hop with rfl | rfl <;> simp [startCheck, isArrayOp, addressBad, hi, ha]

theorem startCheck_word {op : BitVec 4} {addr len : Half} {s : State} (hop : op = 0x3#4 ∨ op = 0x4#4)
    (hi : s.regs.inited = true) (ha : addr.toNat + 1 < 4096) : startCheck op addr len s = none := by
  rcases hop with rfl | rfl <;> simp [startCheck, isArrayOp, addressBad, hi, ha]

theorem startCheck_array {op : BitVec 4} {addr len : Half} {s : State} (hop : op = 0x5#4 ∨ op = 0x6#4)
    (hi : s.regs.inited = true) (hh : s.params.hasArray = true) (hl : len.toNat ≤ 255) (ha : addr.toNat < 4096)
    (hal : addr.toNat + len.toNat ≤ 4096) : startCheck op addr len s = none := by
  have h1 : ¬ 255 < len.toNat := by omega
  have h2 : ¬ (4096 ≤ addr.toNat ∨ 4096 < addr.toNat + len.toNat) := by omega
  rcases hop with rfl | rfl <;> simp [startCheck, isArrayOp, addressBad, hi, hh, h1, h2]

theorem startCheck_erase {addr len : Half} {s : State} (hi : s.regs.inited = true) :
    startCheck 0x7#4 addr len s = none := by
  simp [startCheck, isArrayOp, addressBad, hi]

/-! What a ready state gives an accepted command. -/

theorem begun_facts (op : BitVec 4) (addr data len : Half) {s : State} (h : Ready s) :
    Linked (begun op addr data len s) ∧ (begun op addr data len s).pins.dirCs = .output ∧
    (begun op addr data len s).pins.outCs = true ∧ (begun op addr data len s).dev.wip = false ∧
    (begun op addr data len s).params = s.params ∧ (begun op addr data len s).dev = s.dev ∧
    (begun op addr data len s).regs.addr = addr ∧ (begun op addr data len s).regs.wdata = data :=
  ⟨h.2.2.1, h.2.2.2.1.1, h.2.2.2.1.2.1, h.2.2.2.2, rfl, rfl, rfl, rfl⟩

theorem frame_none {d : Dev} (h : d.frame = none) : ({ d with frame := none } : Dev) = d := by
  rw [← h]

theorem csDown_visible {s t : State} (h : visible t = visible s) : visible (csDown t) = visible (csDown s) :=
  congrArg csDown h

/-- A bracket between high levels of chip-select: the pins are as they were. -/
def bracketed (d : Dev) (rec : FrameRec) (tr : List Event) (s : State) : State :=
  { s with dev := d, frames := rec :: s.frames, trace := tr.reverse ++ s.trace }

theorem bracketed_visible {s t : State} (d : Dev) (rec : FrameRec) (tr : List Event) (h : visible t = visible s) :
    visible (bracketed d rec tr t) = visible (bracketed d rec tr s) := congrArg (bracketed d rec tr) h

theorem shut_high {d : Dev} {rec : FrameRec} {tr : List Event} {s : State} (h : s.pins.outCs = true) :
    shut d rec tr s = bracketed d rec tr s := by
  have h1 : ({ s.pins with outCs := true } : Pins) = s.pins := by rw [← h]
  unfold shut
  rw [h1]
  rfl

/-- A committed WRITE between high levels of chip-select. -/
theorem written_high {a : Half} {ds : List Byte} {rec1 rec2 : FrameRec} {s : State} (h : s.pins.outCs = true) :
    written a ds rec1 rec2 s = { s with
      regs := { s.regs with waitcnt := 0 }
      dev := { s.dev with ee := Memory.writeList s.dev.ee a.toNat ds, wel := false, wip := false, pending := none, frame := none }
      frames := rec2 :: rec1 :: s.frames
      trace := (writeTrace s.params a ds).reverse ++ s.trace } := by
  have h1 : ({ s.pins with outCs := true } : Pins) = s.pins := by rw [← h]
  unfold written
  rw [h1]

theorem erased_high {addr wdata : Half} {era : BitVec 13} {w : Nat} {d : Dev} {fs : List FrameRec} {tr : List Event}
    {s : State} (h : s.pins.outCs = true) :
    erased addr wdata era w d fs tr s = { s with
      regs := { s.regs with addr := addr, wdata := wdata, era := era, waitcnt := w }
      dev := d, frames := fs ++ s.frames, trace := tr.reverse ++ s.trace } := by
  have h1 : ({ s.pins with outCs := true } : Pins) = s.pins := by rw [← h]
  unfold erased
  rw [h1]

theorem lo8_toNat {len : Half} (h : len.toNat ≤ 255) : (lo8 len).toNat = len.toNat := by
  simp [lo8]
  omega

theorem ofNat_toNat_lo8 (len : Half) : BitVec.ofNat 8 len.toNat = lo8 len := by
  apply BitVec.eq_of_toNat_eq
  simp [lo8]

/-- ADDR is stepped (41_command_framer.md R176, R177). -/
def stepped (s : State) : State := { s with regs := { s.regs with addr := s.regs.addr + 1 } }

theorem stepped_visible {s t : State} (h : visible t = visible s) : visible (stepped t) = visible (stepped s) :=
  congrArg stepped h

theorem addrInc_spec (s : State) : Runs [.reg .addrInc] s (stepped s) := Runs.reg _ _

theorem toNat_succ {a : Half} (h : a.toNat + 1 < 4096) : (a + 1).toNat = a.toNat + 1 := by
  rw [BitVec.toNat_add]
  simp
  omega

/-- The end of an operation, SEQ going to IDLE. -/
theorem finish_visible {s t : State} {d : Half} (h : visible t = visible s) :
    visible ((answered d t).setSeq []) = visible (answered d s) := answered_visible (s := s) (t := t) d h

theorem finish_dev {s t : State} {d : Half} (h : visible t = visible s) : ((answered d t).setSeq []).dev = s.dev :=
  visible_dev (s := s) (t := t) h

/-! The pins of init (43_erase_and_init.md R203, I0 to I5). -/

/-- The pins after them. -/
def initLines (p : Pins) (m : Mode) : Pins :=
  match m with
  | .bitbang => { p with dirCs := .output, dirSck := .output, outSck := false, dirMosi := .output, dirMiso := .input }
  | .controller => { p with dirCs := .output }

/-- Their events. -/
def initPinsTrace (m : Mode) : List Event :=
  [.dir .cs .output, .drive .cs true] ++
    (match m with
      | .bitbang => [.dir .sck .output, .drive .sck false, .dir .mosi .output, .dir .miso .input]
      | .controller => [])

theorem dir_spec {s : State} (p : Pin) (d : Dir) (hs : s.sched = []) :
    Runs [.ev (.dir p d)] s ((setDir p d s).log (.dir p d)) := Runs.ev hs (fun q => by cases p <;> rfl)

theorem sckLow_spec {s : State} (hs : s.sched = []) (hd : s.pins.dirSck = .output) :
    Runs [.ev (.drive .sck false)] s { s with
      pins := { s.pins with outSck := false }, trace := .drive .sck false :: s.trace } :=
  Runs.ev hs (fun q => drivePin_sck_low (s := s.setSeq q) hd)

theorem csHeld_spec {s : State} (hs : s.sched = []) (hx : isAsync s = false) (hd : s.pins.dirCs = .output)
    (ho : s.pins.outCs = true) : Runs [.ev (.drive .cs true)] s (s.log (.drive .cs true)) :=
  Runs.ev hs (fun q => drivePin_cs_held (s := s.setSeq q) hx hd ho)

theorem initPins_spec {s : State} (hs : s.sched = []) (hx : isAsync s = false) (ho : s.pins.outCs = true) :
    Runs ([.ev (.dir .cs .output), .ev (.drive .cs true)] ++ initPins s.params) s { s with
      pins := initLines s.pins s.params.mode
      trace := (initPinsTrace s.params.mode).reverse ++ s.trace } := by
  have r1 := dir_spec (s := s) .cs .output hs
  generalize e1 : (setDir .cs .output s).log (.dir .cs .output) = s1 at r1
  have r2 := csHeld_spec (s := s1) (by rw [← e1]; exact hs) (by rw [← e1]; exact hx) (by rw [← e1]; rfl)
    (by rw [← e1]; exact ho)
  unfold initPins initLines initPinsTrace
  rcases hm : s.params.mode
  · have r3 := dir_spec (s := s1.log (.drive .cs true)) .sck .output (by rw [← e1]; exact hs)
    generalize e3 : (setDir .sck .output (s1.log (.drive .cs true))).log (.dir .sck .output) = s3 at r3
    have r4 := sckLow_spec (s := s3) (by rw [← e3, ← e1]; exact hs) (by rw [← e3]; rfl)
    obtain ⟨s4, e4⟩ : ∃ s4 : State, s4 = { s3 with
      pins := { s3.pins with outSck := false }, trace := .drive .sck false :: s3.trace } := ⟨_, rfl⟩
    rw [← e4] at r4
    have q4 : s4.sched = [] := by rw [e4]; show s3.sched = []; rw [← e3, ← e1]; exact hs
    have r5 := dir_spec (s := s4) .mosi .output q4
    generalize e5 : (setDir .mosi .output s4).log (.dir .mosi .output) = s5 at r5
    have r6 := dir_spec (s := s5) .miso .input (by rw [← e5]; exact q4)
    have r := Runs.append (Runs.cons r1 r2) (Runs.cons r3 (Runs.cons r4 (Runs.cons r5 r6)))
    refine Runs.cast r ?_
    subst e5 e4 e3 e1
    simp only [setDir, State.setPins, State.log]
    rfl
  · refine Runs.cast (Runs.append (Runs.cons r1 r2) (Runs.nil _)) ?_
    subst e1
    rfl

/-- A host command word is a host operation with the word's fields. -/
theorem exec_decodeCmd (w : BitVec 52) (s : State) :
    ∃ f, exec (decodeCmd w) s = runHost (cmdOp w) (cmdAddr w) (cmdData w) (cmdLen w) f s := by
  unfold decodeCmd
  generalize cmdOp w = op
  split
  all_goals rename_i e
  case h_9 =>
    have h8 : 8 ≤ op.toNat := by
      by_contra h
      have h : op.toNat < 8 := by omega
      interval_cases hk : op.toNat <;> simp_all
    refine ⟨fun _ => [], ?_⟩
    rw [exec_reservedHost, reserved_op op h8]
  all_goals
    have ho : op = BitVec.ofNat 4 op.toNat := by simp
    rw [e] at ho
    rw [ho]
    exact ⟨_, whole_startHost _ _ _ _ _ _⟩

end Sys2Proof.Machine
end

