-- ==== Sys2Proof/Laws/PerInstr.lean ====
section
/-! SUPPORT. A statement for every instruction, constructor by constructor: its encoding carries the fixed bits that its
row of spec/opcode_table.json gives, `match` under `mask`, at the row's level. -/

namespace Sys2Proof.Laws.OpField

open Sys2Proof

/-- `word AND mask = match`, on the host word, the transport word, or the first byte of the frame. -/
def Fits (im : Image) (mask pattern : Nat) : Prop :=
  match im with
  | .cmd w => w &&& BitVec.ofNat 52 mask = BitVec.ofNat 52 pattern
  | .micro w => w &&& BitVec.ofNat 18 mask = BitVec.ofNat 18 pattern
  | .frame bytes => ∃ b rest, bytes = b :: rest ∧ b &&& BitVec.ofNat 8 mask = BitVec.ofNat 8 pattern

/-- The row's `mask` and `match`. -/
def rowBits : Instr → Nat × Nat
  | .wren => (0xFF, 0x06)
  | .write _ _ => (0xFF, 0x02)
  | .read _ _ => (0xFF, 0x03)
  | .init _ _ _ => (0xF000000000000, 0x0000000000000)
  | .readByte _ _ _ => (0xF000000000000, 0x1000000000000)
  | .writeByte _ _ _ => (0xF000000000000, 0x2000000000000)
  | .readWord _ _ _ => (0xF000000000000, 0x3000000000000)
  | .writeWord _ _ _ => (0xF000000000000, 0x4000000000000)
  | .readArray _ _ _ => (0xF000000000000, 0x5000000000000)
  | .writeArray _ _ _ => (0xF000000000000, 0x6000000000000)
  | .eraseAll _ _ _ => (0xF000000000000, 0x7000000000000)
  | .reservedHost _ _ _ _ => (0x8000000000000, 0x8000000000000)
  | .sendByte _ => (0x30000, 0x00000)
  | .sendWord _ => (0x30000, 0x10000)
  | .receiveByte _ => (0x30000, 0x20000)
  | .reservedTransport _ => (0x30000, 0x30000)

/-- The encoding of `i` has the fixed bits of its row. -/
def Statement (i : Instr) : Prop := Fits (encode i) (rowBits i).1 (rowBits i).2

/-- The AND of two concatenations of the same widths is the concatenation of the ANDs. -/
theorem append_and {m n : Nat} (a c : BitVec m) (b d : BitVec n) : (a ++ b) &&& (c ++ d) = (a &&& c) ++ (b &&& d) := by
  ext i hi
  simp only [BitVec.getElem_and, BitVec.getElem_append]
  split <;> rfl

/-- A packed command under the mask of its operation code is that code. -/
theorem packCmd_mask (op : BitVec 4) (a d l : Half) :
    packCmd op a d l &&& BitVec.ofNat 52 0xF000000000000 = op ++ 0#48 := by
  have h : BitVec.ofNat 52 0xF000000000000 = BitVec.allOnes 4 ++ 0#16 ++ 0#16 ++ 0#16 := by decide
  have h0 : op ++ 0#48 = op ++ 0#16 ++ 0#16 ++ 0#16 := by revert op; decide
  rw [h, h0]
  have h1 := append_and op (BitVec.allOnes 4) a 0#16
  have h2 := append_and (op ++ a) (BitVec.allOnes 4 ++ 0#16) d 0#16
  have h3 := append_and (op ++ a ++ d) (BitVec.allOnes 4 ++ 0#16 ++ 0#16) l 0#16
  rw [BitVec.and_allOnes, BitVec.and_zero] at h1
  rw [h1, BitVec.and_zero] at h2
  rw [h2, BitVec.and_zero] at h3
  exact h3

/-- A packed request under the mask of its operation code is that code. -/
theorem packMicro_mask (op : BitVec 2) (t : Half) :
    packMicro op t &&& BitVec.ofNat 18 0x30000 = op ++ 0#16 := by
  have h : BitVec.ofNat 18 0x30000 = BitVec.allOnes 2 ++ 0#16 := by decide
  rw [h]
  have h1 := append_and op (BitVec.allOnes 2) t 0#16
  rw [BitVec.and_allOnes, BitVec.and_zero] at h1
  exact h1

theorem wren : Statement .wren := ⟨_, _, rfl, by dsimp only [rowBits]; decide⟩
theorem write (addr : Half) (data : List Byte) : Statement (.write addr data) := ⟨_, _, rfl, by dsimp only [rowBits]; decide⟩
theorem read (addr : Half) (dummies : List Byte) : Statement (.read addr dummies) := ⟨_, _, rfl, by dsimp only [rowBits]; decide⟩
theorem init (a d l : Half) : Statement (.init a d l) :=
  (packCmd_mask 0x0#4 a d l).trans (show _ = BitVec.ofNat 52 0x0000000000000 by decide)
theorem readByte (a d l : Half) : Statement (.readByte a d l) :=
  (packCmd_mask 0x1#4 a d l).trans (show _ = BitVec.ofNat 52 0x1000000000000 by decide)
theorem writeByte (a d l : Half) : Statement (.writeByte a d l) :=
  (packCmd_mask 0x2#4 a d l).trans (show _ = BitVec.ofNat 52 0x2000000000000 by decide)
theorem readWord (a d l : Half) : Statement (.readWord a d l) :=
  (packCmd_mask 0x3#4 a d l).trans (show _ = BitVec.ofNat 52 0x3000000000000 by decide)
theorem writeWord (a d l : Half) : Statement (.writeWord a d l) :=
  (packCmd_mask 0x4#4 a d l).trans (show _ = BitVec.ofNat 52 0x4000000000000 by decide)
theorem readArray (a d l : Half) : Statement (.readArray a d l) :=
  (packCmd_mask 0x5#4 a d l).trans (show _ = BitVec.ofNat 52 0x5000000000000 by decide)
theorem writeArray (a d l : Half) : Statement (.writeArray a d l) :=
  (packCmd_mask 0x6#4 a d l).trans (show _ = BitVec.ofNat 52 0x6000000000000 by decide)
theorem eraseAll (a d l : Half) : Statement (.eraseAll a d l) :=
  (packCmd_mask 0x7#4 a d l).trans (show _ = BitVec.ofNat 52 0x7000000000000 by decide)
theorem reservedHost (k : BitVec 3) (a d l : Half) : Statement (.reservedHost k a d l) := by
  have h : BitVec.ofNat 52 0x8000000000000 = BitVec.ofNat 52 0xF000000000000 &&& BitVec.ofNat 52 0x8000000000000 := by
    decide
  show packCmd (1#1 ++ k) a d l &&& BitVec.ofNat 52 0x8000000000000 = BitVec.ofNat 52 0x8000000000000
  rw [h, ← BitVec.and_assoc, packCmd_mask]
  revert k
  decide
theorem sendByte (t : Half) : Statement (.sendByte t) :=
  (packMicro_mask 0#2 t).trans (show _ = BitVec.ofNat 18 0x00000 by decide)
theorem sendWord (t : Half) : Statement (.sendWord t) :=
  (packMicro_mask 1#2 t).trans (show _ = BitVec.ofNat 18 0x10000 by decide)
theorem receiveByte (t : Half) : Statement (.receiveByte t) :=
  (packMicro_mask 2#2 t).trans (show _ = BitVec.ofNat 18 0x20000 by decide)
theorem reservedTransport (t : Half) : Statement (.reservedTransport t) :=
  (packMicro_mask 3#2 t).trans (show _ = BitVec.ofNat 18 0x30000 by decide)

end Sys2Proof.Laws.OpField
end

