-- ==== Sys2Proof/Laws/Timeout.lean ====
section
/-! SUPPORT. Polls that never see their flag: the budget that runs out and its error exit, the hold without a budget
(40_transport.md R144; 60_exceptions.md R218 b; 70_reset_and_hazards.md R265). -/

namespace Sys2Proof.Machine

open Sys2Proof

/-- All attempts fail, nobody else moving. -/
theorem pollTries_dead (f : Flag) (k : Nat) : ∀ {s : State}, s.sched = [] → flagValue f s = false →
    pollTries f (k + 1) s = .timedOut (s.setRegs { s.regs with pollcnt := 0 }) f := by
  induction k with
  | zero =>
    intro s hs hf
    simp [pollTries, envPoint_quiet hs, hf]
  | succ k ih =>
    intro s hs hf
    have h1 : (s.setRegs { s.regs with pollcnt := k + 1 }).sched = [] := hs
    have h2 : flagValue f (s.setRegs { s.regs with pollcnt := k + 1 }) = false := by rw [← hf]; cases f <;> rfl
    rw [pollTries]
    simp only [envPoint_quiet hs, hf, Bool.false_eq_true, if_false]
    exact ih h1 h2

/-- A poll whose flag stays 0, with a budget: DeviceTimeout (40_transport.md R144). -/
theorem poll_timesOut {f : Flag} {s : State} {k : Nat} (hs : s.sched = []) (hf : flagValue f s = false)
    (hb : s.params.pollBudget = some (k + 1)) :
    attempt (.poll f) s = .timedOut (s.setRegs { s.regs with pollcnt := 0 }) f := by
  have h1 : (s.setRegs { s.regs with pollcnt := k + 1 }).sched = [] := hs
  have h2 : flagValue f (s.setRegs { s.regs with pollcnt := k + 1 }) = false := by rw [← hf]; cases f <;> rfl
  unfold attempt
  simp only [hb]
  exact pollTries_dead f k h1 h2

/-- The reference controller takes no step of its own (40_transport.md R150). -/
theorem ctlStep_atomic {s : State} (h : isAsync s = false) : ctlStep s = .ok s := by
  unfold ctlStep
  rw [h]
  rfl

/-- A poll whose flag stays 0, without a budget: a hold (40_transport.md R144; 70_reset_and_hazards.md R265). -/
theorem poll_held {f : Flag} {s : State} (hs : s.sched = []) (hx : isAsync s = false) (hf : flagValue f s = false)
    (hb : s.params.pollBudget = none) : attempt (.poll f) s = .held s := by
  unfold attempt
  simp only [hb, envPoint_quiet hs, hf, ctlStep_atomic hx, Bool.false_eq_true, if_false, Move.hold]

/-- What a sequence comes to that runs up to a poll which times out. -/
theorem Runs.timesOut {ms rest : List Micro} {f : Flag} {s t : State} {k : Nat} (h : Runs ms s t) (hs : t.sched = [])
    (hf : flagValue f t = false) (hb : t.params.pollBudget = some (k + 1)) :
    ∃ q, runOp (ms ++ .poll f :: rest) s = timeoutExit ((t.setRegs { t.regs with pollcnt := 0 }).setSeq q) := by
  obtain ⟨q', e1, -⟩ := h (.poll f :: rest) (ms ++ .poll f :: rest)
  have e2 := item_timedOut (poll_timesOut (f := f) (s := t.setSeq q') (by simpa using hs)
    (by rw [← hf]; cases f <;> rfl) hb)
  refine ⟨q', ?_⟩
  unfold runOp
  rw [e1]
  simp only [runSeq, e2]
  rfl

/-- What a sequence comes to that runs up to a poll which holds for ever: SEQ is at the poll. -/
theorem Runs.holds {ms rest : List Micro} {f : Flag} {s t : State} (h : Runs ms s t) (hs : t.sched = [])
    (hx : isAsync t = false) (hf : flagValue f t = false) (hb : t.params.pollBudget = none) :
    runOp (ms ++ .poll f :: rest) s = .next (t.setSeq (.poll f :: rest)) := by
  obtain ⟨q', e1, g⟩ := h (.poll f :: rest) (ms ++ .poll f :: rest)
  have e2 : item (.poll f) (t.setSeq q') = .held (t.setSeq q') :=
    attempts_held (poll_held (s := t.setSeq q') hs (show isAsync (t.setSeq q') = false from hx)
      (by rw [← hf]; cases f <;> rfl) hb) _
  unfold runOp
  rw [e1]
  simp only [runSeq, e2]
  rw [g rfl]
  rfl

/-- A bracket up to its first poll. -/
theorem open_bracket {s : State} (w : Half) (hs : s.sched = []) (hd : s.pins.dirCs = .output)
    (ho : s.pins.outCs = true) (hw : s.dev.wip = false) :
    ∃ t, Runs (csAssert ++ [.reg (.request 0#2 (.const w))]) s t ∧
      visible t = visible (onFrame Frame.empty [.drive .cs false] (csDown s)) ∧
      t.bracketWrite = false ∧ t.tierLow = s.tierLow := by
  have R : Runs csAssert s { onFrame Frame.empty [.drive .cs false] (csDown s) with bracketWrite := false } := by
    refine Runs.cons (Runs.reg (.bracketWrite false) s) (Runs.ev hs ?_)
    intro q
    exact drivePin_cs_low (s := (s.setBracketWrite false).setSeq q) hd ho hw
  exact ⟨_, Runs.append R (Runs.request _ _ _), rfl, rfl, rfl⟩

/-- A dead controller's flags read 0 (40_transport.md R150). -/
theorem dead_flag {s : State} (f : Flag) (ha : s.params.ctrlAtomic = true) (hl : s.ctl.live = false) :
    flagValue f s = false := by
  cases f <;> simp [flagValue, ha, hl]

/-- POLLCNT is scratch in controller mode. -/
theorem visible_pollcnt {s : State} (n : Nat) (hm : s.params.mode = .controller) :
    visible (s.setRegs { s.regs with pollcnt := n }) = visible s := by
  simp [visible, hm, State.setRegs]

/-! The exit (60_exceptions.md R218 b). -/

/-- T0: the bracket is closed, STATUS is DeviceTimeout. -/
def exitClosed (d : Dev) (n : Nat) (f : Frame) (s : State) : State :=
  { shut d ⟨f.bytes, f.replies, f.received⟩ [.drive .cs true] { s with regs := { s.regs with status := 3 } } with
    draws := n }

/-- T1: the settle wait after a WRITE bracket. -/
def exitWaited (bw : Bool) (s : State) : State :=
  if bw then (if s.params.oSettle then settled s else unsettled s) else s

/-- T2: the tier restored if it is low. -/
def exitTiered (low : Bool) (s : State) : State :=
  if low then { tiered s.params.tierHigh s with tierLow := false } else s

/-- The whole exit, the response last. -/
def exited (d : Dev) (n : Nat) (f : Frame) (s : State) : State :=
  answered 0 (exitTiered s.tierLow (exitWaited s.bracketWrite (exitClosed d n f s)))

theorem exitWaited_spec {s : State} (bw : Bool) (hs : s.sched = []) :
    Runs (if bw = true then [.ev .wait] else []) s (exitWaited bw s) := by
  unfold exitWaited
  cases bw
  · exact Runs.nil s
  · rcases ho : s.params.oSettle
    · exact wait_open hs (.inl ho)
    · exact wait_spec hs ho

theorem exitTiered_spec {s : State} (low : Bool) (hs : s.sched = []) :
    Runs (if low = true then [.ev .tierHigh] else []) s (exitTiered low s) := by
  unfold exitTiered
  cases low
  · exact Runs.nil s
  · exact Runs.ev hs (fun q => rfl)

theorem exitWaited_sched (bw : Bool) (s : State) : (exitWaited bw s).sched = s.sched := by
  unfold exitWaited
  split
  · split <;> rfl
  · rfl

theorem exitTiered_sched (low : Bool) (s : State) : (exitTiered low s).sched = s.sched := by
  unfold exitTiered
  split <;> rfl

/-- The error exit of a bracket that is at a byte boundary: chip-select up, the settle wait after a WRITE bracket, the
tier restored if it was lowered, the response. -/
theorem timeoutExit_spec {t : State} {d : Dev} {n : Nat} {f : Frame} (hq : t.sched = []) (hx : isAsync t = false)
    (hd : t.pins.dirCs = .output) (ho : t.pins.outCs = false) (hf : t.dev.frame = some f) (hc : f.cnt = 0)
    (ha : Dev.act f.bytes { t.dev with frame := none } t.draws = (d, n)) :
    ∃ u, exitStart t = .ok u ∧ timeoutExit t = .next ((exited d n f t).setSeq []) := by
  obtain ⟨bs, rs, acc, cnt, r, rv⟩ := f
  have hc : cnt = 0 := hc
  subst hc
  have h1 : exitDrive (t.setRegs { t.regs with status := Status.deviceTimeout.code }) =
      .ok (exitClosed d n ⟨bs, rs, acc, 0, r, rv⟩ t) := by
    unfold exitDrive
    rw [if_pos (by exact ho)]
    exact drivePin_cs_high (s := t.setRegs { t.regs with status := Status.deviceTimeout.code }) hx hd ho hf ha
  have h2 : exitStart t = .ok ((exitClosed d n ⟨bs, rs, acc, 0, r, rv⟩ t).setSeq (exitSeq t)) := by
    unfold exitStart
    rw [h1]
  have qc : (exitClosed d n ⟨bs, rs, acc, 0, r, rv⟩ t).sched = [] := hq
  have qw := (exitWaited_sched t.bracketWrite (exitClosed d n ⟨bs, rs, acc, 0, r, rv⟩ t)).trans qc
  have R := Runs.append (Runs.append (exitWaited_spec t.bracketWrite qc) (exitTiered_spec t.tierLow qw))
    (rsp_spec (src := .zero) ((exitTiered_sched _ _).trans qw))
  have e : exitSeq t = (if t.bracketWrite = true then [.ev .wait] else []) ++
      (if t.tierLow = true then [.ev .tierHigh] else []) ++ [.ev (.rsp .zero)] := by
    simp [exitSeq, ho]
  rw [← e] at R
  refine ⟨_, h2, ?_⟩
  unfold timeoutExit
  rw [h2]
  obtain ⟨q', e1, g⟩ := R [] (exitSeq t)
  rw [List.append_nil] at e1 g
  show (runSeq (exitSeq t) ((exitClosed d n ⟨bs, rs, acc, 0, r, rv⟩ t).setSeq (exitSeq t))).outcome = _
  rw [e1, g rfl]
  rfl

/-- The exit of a bracket in which nothing was sent, no settle wait asked for: what `visible` shows. -/
theorem exited_visible {s t : State} (h : visible t = visible s) (hbw : t.bracketWrite = false) :
    visible (exited { s.dev with frame := none } t.draws Frame.empty t) = visible
      (answered 0 (exitTiered t.tierLow (exitClosed { s.dev with frame := none } s.draws Frame.empty s))) := by
  have hc : visible (exitClosed { s.dev with frame := none } t.draws Frame.empty t) =
      visible (exitClosed { s.dev with frame := none } s.draws Frame.empty s) :=
    congrArg (exitClosed { s.dev with frame := none } 0 Frame.empty) h
  unfold exited
  rw [hbw]
  refine answered_visible 0 ?_
  unfold exitWaited exitTiered
  simp only [Bool.false_eq_true, if_false]
  split
  · have hp : (exitClosed { s.dev with frame := none } t.draws Frame.empty t).params = t.params := rfl
    have hp2 : (exitClosed { s.dev with frame := none } s.draws Frame.empty s).params = s.params := rfl
    rw [hp, hp2, visible_params h]
    exact tiered_visible _ hc
  · exact hc

end Sys2Proof.Machine
end

