-- ==== Sys2Proof/Laws/Unframed.lean ====
section
/-! SUPPORT. The transport with no frame open: the device takes nothing, what is received is free (40_transport.md R130;
10_state.md R39). -/

namespace Sys2Proof.Machine

open Sys2Proof

theorem note_no_frame (r : Byte) (d : Dev) (hf : d.frame = none) : d.note r = d := by
  simp [Dev.note, hf]

theorem exchangeBits_no_frame (k : Nat) (v r : Byte) (d : Dev) (n : Nat) (hf : d.frame = none) :
    ∃ r' n', Dev.exchangeBits k v r d n = .ok (r', d, n') := by
  induction k generalizing v r n with
  | zero => exact ⟨r, n, rfl⟩
  | succ k ih =>
    simp only [Dev.exchangeBits, pulse_no_frame _ d n hf]
    exact ih _ _ _

/-- A byte exchange with no frame open. -/
theorem exchange_no_frame (v : Byte) (d : Dev) (n : Nat) (hf : d.frame = none) :
    ∃ r n', d.exchange v n = .ok (r, d, n') := exchangeBits_no_frame 8 v 0 d n hf

/-- The same on a stuck data-in line: what is read is the level that is stuck (70_reset_and_hazards.md R275). -/
theorem exchange_stuck_no_frame (v : Byte) (d : Dev) (w : Bool) (n : Nat) (hi : d.line.dataIn = .stuck w)
    (hf : d.frame = none) : ∃ m, d.exchange v n = .ok (if w then 0xFF#8 else 0x00#8, d, m) := by
  rw [← shiftIn_same w]
  simp only [Dev.exchange, Dev.exchangeBits, pulse_no_frame _ d _ hf, sample_stuck _ hi]
  exact ⟨_, rfl⟩

/-- A byte sent in bit-bang mode, no frame open (40_transport.md R131, R130). -/
theorem send_bitbang_unframed {s : State} {sel : ByteSel} {v : Byte} (hm : s.params.mode = .bitbang) (hL : Linked s)
    (hv : reqByte sel s = v) (hf : s.dev.frame = none) :
    Runs (sendByteSeq s.params sel) s { s with
      regs := { s.regs with shift := 0, bitcnt := 8 }
      pins := { s.pins with outMosi := v.getLsbD 0, outSck := false }
      trace := (sendTrace s.params v).reverse ++ s.trace } := by
  obtain ⟨hs, hb, -⟩ := hL
  obtain ⟨hk, hmo, hl⟩ := hb hm
  obtain ⟨h7, h6, h5, h4, h3, h2, h1, h0⟩ := shiftOut_msb v
  have e : sendByteSeq s.params sel = .reg (.loadShift sel) :: (sendBitSeq ++ (sendBitSeq ++ (sendBitSeq ++ (sendBitSeq ++
      (sendBitSeq ++ (sendBitSeq ++ (sendBitSeq ++ (sendBitSeq ++ [])))))))) := by
    simp only [sendByteSeq, hm, repeatSeq]
  rw [e]
  refine Runs.cons (Runs.reg _ _ (by cases sel <;> (intros; rfl))) ?_
  have hs0 : (applyUpd (.loadShift sel) s).regs.shift = v := hv
  refine Runs.append (Runs.sendBit hs hk hmo hl (pulse_no_frame _ _ _ hf)) ?_
  refine Runs.append (Runs.sendBit hs hk hmo rfl (pulse_no_frame _ _ _ hf)) ?_
  refine Runs.append (Runs.sendBit hs hk hmo rfl (pulse_no_frame _ _ _ hf)) ?_
  refine Runs.append (Runs.sendBit hs hk hmo rfl (pulse_no_frame _ _ _ hf)) ?_
  refine Runs.append (Runs.sendBit hs hk hmo rfl (pulse_no_frame _ _ _ hf)) ?_
  refine Runs.append (Runs.sendBit hs hk hmo rfl (pulse_no_frame _ _ _ hf)) ?_
  refine Runs.append (Runs.sendBit hs hk hmo rfl (pulse_no_frame _ _ _ hf)) ?_
  refine Runs.append (Runs.sendBit hs hk hmo rfl (pulse_no_frame _ _ _ hf)) ?_
  refine Runs.cast (Runs.nil _) ?_
  simp only [hs0, h7, h6, h5, h4, h3, h2, h1, h0, shiftOut_eight, sendTrace, hm, byBit]
  simp only [applyUpd, State.setRegs, List.reverse_cons, List.reverse_nil,
    List.nil_append, List.cons_append]
  rfl

/-- The trace goes on. -/
def traced (tr : List Event) (s : State) : State := { s with trace := tr.reverse ++ s.trace }

theorem traced_visible {s t : State} (tr : List Event) (h : visible t = visible s) :
    visible (traced tr t) = visible (traced tr s) := congrArg (traced tr) h

theorem traced_traced (tr tr' : List Event) (s : State) : traced tr' (traced tr s) = traced (tr ++ tr') s := by
  simp [traced]

/-- A byte sent in either mode, no frame open. -/
theorem send_spec_unframed {s : State} {sel : ByteSel} {v : Byte} (hL : Linked s) (hv : reqByte sel s = v)
    (hf : s.dev.frame = none) :
    ∃ t, Runs (sendByteSeq s.params sel) s t ∧ visible t = visible (traced (sendTrace s.params v) s) ∧
      t.regs.treq = s.regs.treq := by
  rcases hm : s.params.mode
  · refine ⟨_, send_bitbang_unframed hm hL hv hf, ?_, rfl⟩
    simp [visible, hm, (hL.2.1 hm).2.2, traced]
  · obtain ⟨r, n, hx⟩ := exchange_no_frame v s.dev s.draws hf
    refine ⟨_, send_controller hm hL hv hx, ?_, rfl⟩
    simp [visible, hm, (hL.2.2.1 hm).2.2.1, traced]

/-- A word sent in either mode, no frame open (40_transport.md R135). -/
theorem callSendWord_unframed {s : State} {src : Src} {w : Half} (hL : Linked s) (hw : srcValue src s = (w, s))
    (hf : s.dev.frame = none) :
    ∃ t, Runs (callSendWord s.params src) s t ∧
      visible t = visible (traced (sendTrace s.params (hi8 w) ++ sendTrace s.params (lo8 w)) s) ∧
      t.regs.treq = packMicro 1#2 w := by
  obtain ⟨hv, -, hq⟩ := request_spec (op := 1#2) (n0 := s.draws) hw
  have hp := visible_params hv
  have hdev := visible_dev hv
  have hL0 := visible_linked hv hL
  obtain ⟨t, run1, vis1, tr1⟩ := send_spec_unframed (s := applyUpd (.request 1#2 src) s) (sel := .hi) (v := hi8 w)
    hL0 (by simp [reqByte, hq]) (by rw [hdev]; exact hf)
  have hL1 : Linked t := visible_linked vis1 hL0
  have hp1 : t.params = s.params := ((visible_params vis1).trans rfl).trans hp
  have hdev1 : t.dev = s.dev := ((visible_dev vis1).trans rfl).trans hdev
  obtain ⟨u, run2, vis2, tr2⟩ := send_spec_unframed (s := t) (sel := .lo) (v := lo8 w) hL1
    (by simp [reqByte, tr1, hq]) (by rw [hdev1]; exact hf)
  rw [hp] at run1 vis1
  rw [hp1] at run2 vis2
  refine ⟨u, Runs.cons (Runs.request _ _ _) (Runs.append run1 run2), ?_, tr2.trans (tr1.trans hq)⟩
  rw [vis2, traced_visible _ (vis1.trans (traced_visible _ hv)), traced_traced]

/-- A transport request alone, whose sequence runs to its end. -/
theorem runTransport_runs {ms : List Micro} {s t : State} (hs : s.seq = []) (h : Runs ms s t) :
    runTransport ms s = .next (t.setSeq []) := by
  unfold runTransport
  rw [busy_idle hs]
  exact h.whole

end Sys2Proof.Machine
end

