-- ==== Sys2Proof/Laws/Wire.lean ====
section
/-! SUPPORT. Whole frames put on the wire byte by byte: the bytes the device takes, the replies it gives, the faults of an
address out of range, and the wire command that the frame is. -/

namespace Sys2Proof.Machine

open Sys2Proof

/-! Byte exchanges that fault. -/

theorem pulse_range (m : Bool) (d : Dev) (n : Nat) (b rs : List Byte) {rv : List Byte} (acc r : Byte)
    (hl : d.line = Line.sound)
    (hf : d.frame = some ⟨b, rs, acc, 7, r, rv⟩) (hg : frameInRange (b ++ [shiftIn acc m]) = false) :
    d.pulse m n = .error .deviceAddressRange := by
  simp [Dev.pulse, hf, takeBit, Dev.inRange_sound _ hl, hg, hl, Line.sound, Wire.carry]

/-- A byte that ends out of range: the fault DeviceAddressRange at its eighth bit (20_memory.md R61, R72, R73). -/
theorem exchange_range (v : Byte) (d : Dev) (n n' : Nat) (b rs : List Byte) {rv : List Byte} (acc r0 r : Byte)
    (hl : d.line = Line.sound)
    (hf : d.frame = some ⟨b, rs, acc, 0, r0, rv⟩) (hr : replyFor d b n = .ok (r, n'))
    (hg : frameInRange (b ++ [v]) = false) : d.exchange v n = .error .deviceAddressRange := by
  obtain ⟨h7, h6, h5, h4, h3, h2, h1, h0⟩ := shiftOut_msb v
  have hacc := shiftIn_bits acc v
  have ho : d.line.dataOut = .sound := by rw [hl]; rfl
  unfold Dev.exchange
  simp only [Dev.exchangeBits, h7, h6, h5, h4, h3, h2, h1, h0]
  rw [pulse_first _ d n n' b rs acc r0 r ho hf hr]
  simp only []
  rw [sample_mid (k := 0) (hl := by exact hl) (hf := rfl),
    pulse_mid (ho := by exact ho) (hf := rfl) (h0 := by omega) (h7 := by omega)]
  simp only []
  rw [sample_mid (k := 1) (hl := by exact hl) (hf := rfl),
    pulse_mid (ho := by exact ho) (hf := rfl) (h0 := by omega) (h7 := by omega)]
  simp only []
  rw [sample_mid (k := 2) (hl := by exact hl) (hf := rfl),
    pulse_mid (ho := by exact ho) (hf := rfl) (h0 := by omega) (h7 := by omega)]
  simp only []
  rw [sample_mid (k := 3) (hl := by exact hl) (hf := rfl),
    pulse_mid (ho := by exact ho) (hf := rfl) (h0 := by omega) (h7 := by omega)]
  simp only []
  rw [sample_mid (k := 4) (hl := by exact hl) (hf := rfl),
    pulse_mid (ho := by exact ho) (hf := rfl) (h0 := by omega) (h7 := by omega)]
  simp only []
  rw [sample_mid (k := 5) (hl := by exact hl) (hf := rfl),
    pulse_mid (ho := by exact ho) (hf := rfl) (h0 := by omega) (h7 := by omega)]
  simp only []
  rw [sample_mid (k := 6) (hl := by exact hl) (hf := rfl),
    pulse_range (hl := by exact hl) (hf := rfl) (hg := by rw [hacc]; exact hg)]

/-- A byte whose reply is out of range: the fault at its first bit (20_memory.md R61, R73). -/
theorem exchange_reply (v : Byte) (d : Dev) (n : Nat) (b rs : List Byte) {rv : List Byte} (acc r0 : Byte) (e : Fault)
    (hl : d.line = Line.sound) (hf : d.frame = some ⟨b, rs, acc, 0, r0, rv⟩) (hr : replyFor d b n = .error e) :
    d.exchange v n = .error e := by
  simp [Dev.exchange, Dev.exchangeBits, Dev.pulse, hf, hr, hl, Line.sound, Wire.carry]

/-! Several bytes. -/

theorem exchangeAll_append (keep : Bool) (us vs : List Byte) (d : Dev) (n : Nat) :
    Dev.exchangeAll keep (us ++ vs) d n =
      match Dev.exchangeAll keep us d n with
      | .error e => .error e
      | .ok (d', n') => Dev.exchangeAll keep vs d' n' := by
  induction us generalizing d n with
  | nil => rfl
  | cons u us ih =>
    simp only [List.cons_append, Dev.exchangeAll]
    rcases d.exchange u n with e | ⟨r, d', n'⟩
    · rfl
    · exact ih _ n'

/-- Bytes whose replies are free. -/
theorem exchangeAll_free (vs : List Byte) : ∀ {d : Dev} {n : Nat} {b rs rv : List Byte} {r0 : Byte},
    d.line = Line.sound → d.frame = some ⟨b, rs, 0, 0, r0, rv⟩ →
    (∀ k, k < vs.length → ∀ n, replyFor d (b ++ vs.take k) n = .ok (Config.freeByte n, n + 1)) →
    (∀ k, k < vs.length → frameInRange (b ++ vs.take (k + 1)) = true) →
    ∃ rs' r', rs'.length = vs.length ∧
      Dev.exchangeAll false vs d n = .ok ({ d with frame := some ⟨b ++ vs, rs ++ rs', 0, 0, r', rv⟩ }, n + vs.length) := by
  induction vs with
  | nil =>
    intro d n b rs rv r0 _ hf _ _
    refine ⟨[], r0, rfl, ?_⟩
    simp only [Dev.exchangeAll, List.append_nil, ← hf]
    rfl
  | cons v vs ih =>
    intro d n b rs rv r0 hl hf hr hg
    have h0 := hr 0 (by simp) n
    have g0 := hg 0 (by simp)
    simp only [List.take_zero, List.append_nil, List.take_succ_cons, Nat.zero_add] at h0 g0
    obtain ⟨rs', r', hn, h⟩ := ih (d := { d with frame := some ⟨b ++ [v], rs ++ [Config.freeByte n], 0, 0, Config.freeByte n, rv⟩ })
      (n := n + 1) (b := b ++ [v]) (rs := rs ++ [Config.freeByte n]) (r0 := Config.freeByte n) hl rfl
      (by intro k hk m
          rw [List.append_assoc, List.singleton_append]
          exact hr (k + 1) (by simpa using hk) m)
      (by intro k hk
          rw [List.append_assoc, List.singleton_append]
          exact hg (k + 1) (by simpa using hk))
    refine ⟨Config.freeByte n :: rs', r', by simp [hn], ?_⟩
    simp only [Dev.exchangeAll, exchange_spec v d n (n + 1) b rs 0 r0 (Config.freeByte n) hl hf h0 g0, Bool.false_eq_true, if_false, h]
    simp [Nat.add_comm 1, Nat.add_assoc]

/-- `n` bytes of the store of a device. -/
def Dev.bytes (d : Dev) (a : Nat) : Nat → List Byte
  | 0 => []
  | n + 1 => d.read a :: Dev.bytes d (a + 1) n

theorem eeBytes_dev (s : State) (a n : Nat) : eeBytes s a n = s.dev.bytes a n := by
  induction n generalizing a with
  | zero => rfl
  | succ n ih => simp only [eeBytes, Dev.bytes, ih]; rfl

theorem Dev.bytes_frame (d : Dev) (f : Option Frame) (a n : Nat) : ({ d with frame := f } : Dev).bytes a n = d.bytes a n := by
  induction n generalizing a with
  | zero => rfl
  | succ n ih => simp only [Dev.bytes, ih]; rfl

/-- Bytes of a READ's data phase: the replies are the store's bytes (20_memory.md R73, R75), and what is kept of them is
the frame's `in`. -/
theorem exchangeAll_read (keep : Bool) (vs : List Byte) : ∀ {d : Dev} {n : Nat} {ah al r0 : Byte} {xs rs rv : List Byte},
    d.line = Line.sound → d.frame = some ⟨Config.opcRead :: ah :: al :: xs, rs, 0, 0, r0, rv⟩ →
    frameAddr ah al + xs.length + vs.length ≤ Config.capacity → frameAddr ah al < Config.capacity →
    ∃ r', Dev.exchangeAll keep vs d n = .ok ({ d with
      frame := some ⟨Config.opcRead :: ah :: al :: (xs ++ vs),
        rs ++ d.bytes (frameAddr ah al + xs.length) vs.length, 0, 0, r',
        rv ++ if keep then d.bytes (frameAddr ah al + xs.length) vs.length else []⟩ }, n) := by
  induction vs with
  | nil =>
    intro d n ah al r0 xs rs rv _ hf _ _
    refine ⟨r0, ?_⟩
    simp only [Dev.exchangeAll, List.append_nil, List.length_nil, Dev.bytes, ite_self, ← hf]
  | cons v vs ih =>
    intro d n ah al r0 xs rs rv hl hf hA h1
    simp only [List.length_cons] at hA
    have h0 := replyFor_read d ah al xs n (by rw [hl]; rfl) (by omega)
    have g0 : frameInRange (Config.opcRead :: ah :: al :: xs ++ [v]) = true := frameInRange_read ah al _ h1
    obtain ⟨r', h⟩ := ih (d := { d with frame := some ⟨Config.opcRead :: ah :: al :: xs ++ [v],
        rs ++ [d.read (frameAddr ah al + xs.length)], 0, 0, d.read (frameAddr ah al + xs.length),
        rv ++ if keep then [d.read (frameAddr ah al + xs.length)] else []⟩ })
      (n := n) (ah := ah) (al := al) (xs := xs ++ [v]) (rs := rs ++ [d.read (frameAddr ah al + xs.length)])
      (r0 := d.read (frameAddr ah al + xs.length))
      (rv := rv ++ if keep then [d.read (frameAddr ah al + xs.length)] else []) hl rfl (by simp; omega) h1
    refine ⟨r', ?_⟩
    simp only [Dev.exchangeAll, exchange_spec v d n n _ rs 0 r0 _ hl hf h0 g0]
    cases keep <;> simp only [Bool.false_eq_true, if_false, if_true, Dev.note, List.append_nil] at h ⊢ <;> rw [h] <;>
      simp [Dev.bytes, Dev.bytes_frame, Nat.add_assoc]

/-! Whole frames. -/

/-- The bytes of a WRITE frame in range (20_memory.md R72). -/
theorem frame_write_ok {d : Dev} {n : Nat} (addr : Half) (ds : List Byte) (hl : d.line = Line.sound)
    (h1 : addr.toNat < 4096) (h2 : addr.toNat + ds.length ≤ 4096) :
    ∃ rs r n', Dev.exchangeAll false (Config.opcWrite :: hi8 addr :: lo8 addr :: ds)
        { d with frame := some Frame.empty } n =
      .ok ({ d with frame := some ⟨Config.opcWrite :: hi8 addr :: lo8 addr :: ds, rs, 0, 0, r, []⟩ }, n') := by
  obtain ⟨rs, r, -, h⟩ := exchangeAll_free (Config.opcWrite :: hi8 addr :: lo8 addr :: ds)
    (d := { d with frame := some Frame.empty }) (n := n) (b := []) (rs := []) (rv := []) (r0 := 0) hl rfl
    (by intro k hk m
        rw [List.nil_append]
        rcases k with _ | _ | _ | k
        · rfl
        · rfl
        · rfl
        · exact replyFor_write _ _ _ _ _)
    (by intro k hk
        rw [List.nil_append]
        rcases k with _ | _ | k
        · rfl
        · rfl
        · refine frameInRange_write _ _ _ (by simpa using h1) ?_
          rw [frameAddr_hi8_lo8, List.length_take]
          simp only [Config.capacity]
          omega)
  rw [List.nil_append, List.nil_append] at h
  exact ⟨rs, r, _, h⟩

/-- The header of a READ frame (20_memory.md R73). -/
theorem frame_read_header {d : Dev} {n : Nat} (addr : Half) (hl : d.line = Line.sound) (h1 : addr.toNat < 4096) :
    ∃ r0 r1 r2 r, Dev.exchangeAll false [Config.opcRead, hi8 addr, lo8 addr] { d with frame := some Frame.empty } n =
      .ok ({ d with frame := some ⟨[Config.opcRead, hi8 addr, lo8 addr], [r0, r1, r2], 0, 0, r, []⟩ }, n + 3) := by
  obtain ⟨rs, r, hrl, h⟩ := exchangeAll_free [Config.opcRead, hi8 addr, lo8 addr]
    (d := { d with frame := some Frame.empty }) (n := n) (b := []) (rs := []) (rv := []) (r0 := 0) hl rfl
    (by intro k hk m
        rcases k with _ | _ | _ | k
        · rfl
        · rfl
        · rfl
        · simp at hk; omega)
    (by intro k hk
        rcases k with _ | _ | _ | k
        · rfl
        · rfl
        · exact frameInRange_read _ _ _ (by simpa using h1)
        · simp at hk; omega)
  rw [List.nil_append, List.nil_append] at h
  match rs, hrl with
  | [a, b, c], _ => exact ⟨a, b, c, r, h⟩

/-- The data phase of a READ frame in range: the device's bytes (20_memory.md R73, R75). -/
theorem frame_read_data {d : Dev} {n : Nat} {r : Byte} {rs : List Byte} (addr : Half) (xs : List Byte)
    (hl : d.line = Line.sound) (h1 : addr.toNat < 4096) (h2 : addr.toNat + xs.length ≤ 4096) :
    ∃ r', Dev.exchangeAll true xs { d with frame := some ⟨[Config.opcRead, hi8 addr, lo8 addr], rs, 0, 0, r, []⟩ } n =
      .ok ({ d with frame := some ⟨Config.opcRead :: hi8 addr :: lo8 addr :: xs,
        rs ++ d.bytes addr.toNat xs.length, 0, 0, r', d.bytes addr.toNat xs.length⟩ }, n) := by
  obtain ⟨r', h⟩ := exchangeAll_read true xs
    (d := { d with frame := some ⟨[Config.opcRead, hi8 addr, lo8 addr], rs, 0, 0, r, []⟩ })
    (n := n) (ah := hi8 addr) (al := lo8 addr) (xs := []) (rs := rs) (r0 := r) (rv := []) hl rfl (by simpa using h2)
    (by simpa using h1)
  refine ⟨r', ?_⟩
  rw [h]
  simp [Dev.bytes_frame]

theorem csLevel_open {s : State} (ho : s.pins.outCs = true) (hw : s.dev.wip = false) :
    csLevel false s = .ok { s with
      pins := { s.pins with outCs := false }, dev := { s.dev with frame := some Frame.empty } } := by
  unfold csLevel
  rw [if_neg (by simp [ho]), if_neg (by simp), openFrame_spec _ (by simpa using hw)]
  rfl

theorem csLevel_busy {s : State} (hl : s.dev.line.present = true) (ho : s.pins.outCs = true) (hw : s.dev.wip = true) :
    csLevel false s = .error .deviceBusyAccess := by
  unfold csLevel
  rw [if_neg (by simp [ho]), if_neg (by simp), openFrame_busy _ (by simpa using hl) (by simpa using hw)]

theorem csLevel_close {s : State} {b rs rv : List Byte} {acc r : Byte} {d : Dev} {n : Nat} (ho : s.pins.outCs = false)
    (hf : s.dev.frame = some ⟨b, rs, acc, 0, r, rv⟩) (ha : Dev.act b { s.dev with frame := none } s.draws = (d, n)) :
    csLevel true s = .ok { s with
      pins := { s.pins with outCs := true }, dev := d, draws := n, frames := ⟨b, rs, rv⟩ :: s.frames } := by
  unfold csLevel
  rw [if_neg (by simp [ho]), if_pos rfl]
  simp only [closeFrame, State.setPins_dev, State.setPins_draws, hf, if_true, ha]
  rfl

/-- A frame that goes through: the device acts on it at its close (20_memory.md R70). -/
theorem runFrame_spec {s : State} {bytes xs all rs rv : List Byte} {r : Byte} {n n1 n2 : Nat} {d d1 : Dev}
    (hb : BusIdle s) (hw : s.dev.wip = false)
    (hx : Dev.exchangeAll false bytes { s.dev with frame := some Frame.empty } s.draws = .ok (d1, n1))
    (hy : Dev.exchangeAll true xs d1 n1 = .ok ({ s.dev with frame := some ⟨all, rs, 0, 0, r, rv⟩ }, n))
    (ha : Dev.act all s.dev n = (d, n2)) :
    runFrame bytes xs s = .next { s with dev := d, draws := n2, frames := ⟨all, rs, rv⟩ :: s.frames } := by
  obtain ⟨hs, ho, hf, -⟩ := hb
  have hpin : ({ s.pins with outCs := true } : Pins) = s.pins := by rw [← ho]
  have ha' : Dev.act all { s.dev with frame := none } n = (d, n2) := by rw [frame_none hf]; exact ha
  have h2 : exchangeAll false bytes { s with
      pins := { s.pins with outCs := false }, dev := { s.dev with frame := some Frame.empty } } =
      .ok { s with pins := { s.pins with outCs := false }, dev := d1, draws := n1 } := by
    unfold exchangeAll
    rw [hx]
    rfl
  have h3 : exchangeAll true xs { s with pins := { s.pins with outCs := false }, dev := d1, draws := n1 } =
      .ok { s with
        pins := { s.pins with outCs := false }, dev := { s.dev with frame := some ⟨all, rs, 0, 0, r, rv⟩ },
        draws := n } := by
    unfold exchangeAll
    rw [hy]
    rfl
  unfold runFrame frameBracket
  rw [busy_idle hs, csLevel_open ho hw]
  simp only [Bool.false_eq_true, if_false, h2, h3]
  rw [csLevel_close (b := all) (rs := rs) (acc := 0) (r := r) (d := d) (n := n2) rfl rfl ha']
  simp only [hpin, outcome]

/-- A frame that faults in its first part. -/
theorem runFrame_fault {s : State} {bytes xs : List Byte} {e : Fault} (hb : BusIdle s) (hw : s.dev.wip = false)
    (hx : Dev.exchangeAll false bytes { s.dev with frame := some Frame.empty } s.draws = .error e) :
    runFrame bytes xs s = .fault e := by
  obtain ⟨hs, ho, hf, -⟩ := hb
  have h2 : exchangeAll false bytes { s with
      pins := { s.pins with outCs := false }, dev := { s.dev with frame := some Frame.empty } } = .error e := by
    unfold exchangeAll
    rw [hx]
  unfold runFrame frameBracket
  rw [busy_idle hs, csLevel_open ho hw]
  simp only [Bool.false_eq_true, if_false, h2, outcome]

/-- A frame that faults in its data phase. -/
theorem runFrame_fault_data {s : State} {bytes xs : List Byte} {e : Fault} {d1 : Dev} {n1 : Nat} (hb : BusIdle s)
    (hw : s.dev.wip = false)
    (hx : Dev.exchangeAll false bytes { s.dev with frame := some Frame.empty } s.draws = .ok (d1, n1))
    (hy : Dev.exchangeAll true xs d1 n1 = .error e) : runFrame bytes xs s = .fault e := by
  obtain ⟨hs, ho, hf, -⟩ := hb
  have h2 : exchangeAll false bytes { s with
      pins := { s.pins with outCs := false }, dev := { s.dev with frame := some Frame.empty } } =
      .ok { s with pins := { s.pins with outCs := false }, dev := d1, draws := n1 } := by
    unfold exchangeAll
    rw [hx]
    rfl
  have h3 : exchangeAll true xs { s with pins := { s.pins with outCs := false }, dev := d1, draws := n1 } =
      .error e := by
    unfold exchangeAll
    rw [hy]
  unfold runFrame frameBracket
  rw [busy_idle hs, csLevel_open ho hw]
  simp only [Bool.false_eq_true, if_false, h2, h3, outcome]

/-- A frame during a write cycle: the fault DeviceBusyAccess (20_memory.md R80). -/
theorem runFrame_busy {s : State} {bytes xs : List Byte} (hb : BusIdle s) (hw : s.dev.wip = true) :
    runFrame bytes xs s = .fault .deviceBusyAccess := by
  obtain ⟨hs, ho, hf, hl⟩ := hb
  unfold runFrame frameBracket
  rw [busy_idle hs, csLevel_busy (by rw [hl]; rfl) ho hw]
  simp only [Bool.false_eq_true, if_false, outcome]

end Sys2Proof.Machine
end

