-- ==== Sys2Proof/Tests/Slice0.lean ====
section
/-! SUPPORT. The model's own tests. Expected results are from outside the model: the vectors of 95_test_vectors.md (named
V-..), words written out from the tables of 30_encoding.md, and, for the witnesses, the boundary values of the rules. -/

namespace Sys2Proof.Tests

open Sys2Proof Sys2Proof.Machine

/-! Helpers. -/

/-- The next state, if there is one. -/
def nextOf (o : Host.Outcome State Fault Refusal) : Option State :=
  match o with
  | .next s => some s
  | .fault _ => none
  | .refused _ => none

/-- The fault, if there is one. -/
def faultOf (o : Host.Outcome State Fault Refusal) : Option Fault :=
  match o with
  | .next _ => none
  | .fault e => some e
  | .refused _ => none

/-- The parameters in controller mode (the parameters of the reset state). -/
def ctlP : Params := Config.params

/-- The same in bit-bang mode. -/
def bbP : Params := { Config.params with mode := .bitbang }

/-- The same with the asynchronous controller. -/
def asyncP : Params := { Config.params with ctrlAtomic := false }

/-- The same without O-SETTLE. -/
def looseP : Params := { Config.params with oSettle := false }

/-- The same without array operations. -/
def plainP : Params := { Config.params with hasArray := false }

/-- The same with a controller that never answers and a poll budget of 3. -/
def deadP : Params := { Config.params with ctrlLive := false, pollBudget := some 3 }

/-- Idle after an init: the pins as init leaves them, INITED = 1. -/
def ready (p : Params) : State :=
  { State.resetWith p with
    regs := { Regs.reset with inited := true }
    pins := { Pins.reset with dirCs := .output, dirSck := .output, dirMosi := .output } }

/-- With bytes in the device store. -/
def withStore (m : Memory) (s : State) : State := { s with dev := { s.dev with ee := m } }

/-- With bytes in the transfer buffer. -/
def withBuf (m : Memory) (s : State) : State := { s with buf := m }

/-- With chip-select low and a frame open in which the device has taken the bytes `bs`. -/
def inFrame (bs : List Byte) (s : State) : State :=
  { s with
    pins := { s.pins with outCs := false }
    dev := { s.dev with frame := some ⟨bs, bs, 0, 0, 0, []⟩ } }

/-- On a bus that is not as it should be. -/
def onLine (l : Line) (s : State) : State := { s with dev := { s.dev with line := l } }

/-- An idle state whose inbox holds one request. -/
def asked (r : Request) (s : State) : State := { s with inbox := [r] }

/-- One step that runs a host command word presented to an idle block. -/
def given (w : Nat) (s : State) : Option State := nextOf (step (s.withFetchWord 56 w))

/-- The response word of 30_encoding.md R113: status, data. -/
def rspWord (s : State) : Nat := s.regs.rspStatus.toNat * 65536 + s.regs.rspData.toNat

/-- The bytes on the wire of the closed frames, the oldest first. -/
def wire (s : State) : List (List Byte) := s.frames.reverse.map (fun f => f.out)

/-- How many boundary events there were, the command and the response apart. -/
def eventCount (s : State) : Nat := s.trace.length - 2

/-- What a receive_byte returned in the last frame (40_transport.md R160). -/
def received (s : State) : List Byte := (s.frames.head?.map (fun f => f.received)).getD []

/-- Device replies to a frame, from the fourth on (the first three are open: 20_memory.md R73). -/
def replies (s : State) : List Byte := ((s.frames.head?.map (fun f => f.replies)).getD []).drop 3

/-! Well-formedness refuses what is ill-formed. -/

theorem test_wf_write_address : (Instr.write 4096 [0x55#8]).wf = false ∧ (Instr.write 4095 [0x55#8]).wf = true := by
  decide

theorem test_wf_read_address : (Instr.read 4096 [0xFF#8]).wf = false ∧ (Instr.read 4095 [0xFF#8]).wf = true := by
  decide

set_option maxRecDepth 4000 in
theorem test_wf_write_length :
    (Instr.write 0 (List.replicate 256 0#8)).wf = false ∧ (Instr.write 0 (List.replicate 255 0#8)).wf = true := by decide

set_option maxRecDepth 4000 in
theorem test_wf_read_length :
    (Instr.read 0 (List.replicate 256 0#8)).wf = false ∧ (Instr.read 0 (List.replicate 255 0#8)).wf = true := by decide

theorem test_wf_reserved_transport : (Instr.reservedTransport 0).wf = false ∧ (Instr.sendByte 0).wf = true := by decide

theorem test_wf_params :
    Params.wf { Config.params with pollBudget := some 0 } = false ∧
      Params.wf { Config.params with pollBudget := some 1 } = true ∧ Params.wf Config.params = true := by decide

/-! Decoding, every constructor, from words written out by hand (30_encoding.md R102 to R104, R111 to R116). The host
words are op, addr, data, len; the transport words t_op, t_data. -/

theorem test_decode_wren : decodeFrame [0b00000110#8] = .ok .wren := rfl
theorem test_decode_write :
    decodeFrame [0b00000010#8, 0b00001010#8, 0b10111100#8, 0b01011010#8] = .ok (.write 0x0ABC#16 [0x5A#8]) := rfl
theorem test_decode_read : decodeFrame [0b00000011#8, 0b00000001#8, 0b00100011#8] = .ok (.read 0x0123#16 []) := rfl
theorem test_decode_init : decodeCmd 0b0000111111111111111100000000000000000000000000000001#52 = .init 0xFFFF 0 1 := by
  decide
theorem test_decode_readByte :
    decodeCmd 0b0001000100100011010001010110011110001001101010111100#52 = .readByte 0x1234 0x5678 0x9ABC := by decide
theorem test_decode_writeByte :
    decodeCmd 0b0010000000000000010100010010101001110000000000000000#52 = .writeByte 0x0005 0x12A7 0 := by decide
theorem test_decode_readWord :
    decodeCmd 0b0011000011111111111000000000000000000000000000000000#52 = .readWord 0x0FFE 0 0 := by decide
theorem test_decode_writeWord :
    decodeCmd 0b0100000000000001000010111110111011110000000000000000#52 = .writeWord 0x0010 0xBEEF 0 := by decide
theorem test_decode_readArray :
    decodeCmd 0b0101000000000010000000000000000000000000000000000011#52 = .readArray 0x0020 0 3 := by decide
theorem test_decode_writeArray :
    decodeCmd 0b0110000011110000000100000000000000000000000011111111#52 = .writeArray 0x0F01 0 0xFF := by decide
theorem test_decode_eraseAll :
    decodeCmd 0b0111000000000000000000000000000000000000000000000000#52 = .eraseAll 0 0 0 := by decide
theorem test_decode_reservedHost :
    decodeCmd 0b1000000000000000000000000000000000000000000000000000#52 = .reservedHost 0 0 0 0 ∧
      decodeCmd 0b1101000000000000000100000000000000100000000000000011#52 = .reservedHost 5 1 2 3 ∧
      decodeCmd 0b1111111111111111111111111111111111111111111111111111#52 = .reservedHost 7 0xFFFF 0xFFFF 0xFFFF := by
  decide
theorem test_decode_sendByte : decodeMicro 0b000000000000000110#18 = .sendByte 0x0006 := by decide
theorem test_decode_sendWord : decodeMicro 0b010000101010111100#18 = .sendWord 0x0ABC := by decide
theorem test_decode_receiveByte : decodeMicro 0b100000000000000001#18 = .receiveByte 1 := by decide
theorem test_decode_reservedTransport : decodeMicro 0b110000000000000000#18 = .reservedTransport 0 := by decide

/-- Frames that are no command are rejected by name (20_memory.md R71, R74; vectors V-D2, V-D14). -/
theorem test_decode_rejects :
    decodeFrame [] = .error .emptyFrame ∧ decodeFrame [0x04#8] = .error (.unknownOpcode 0x04#8) ∧
      decodeFrame [0x06#8, 0x02#8] = .error .bytesAfterWren ∧ decodeFrame [0x02#8, 0x00#8] = .error .shortFrame ∧
      decodeFrame [0x03#8] = .error .shortFrame := ⟨rfl, rfl, rfl, rfl, rfl⟩

/-- The rows of the opcode table, as words numbered as the table numbers them: wire and host rows. -/
theorem test_table_words :
    decodeTableWord 8 0x06 = some .wren ∧ decodeTableWord 32 0x5ABC0A02 = some (.write 0x0ABC#16 [0x5A#8]) ∧
      decodeTableWord 24 0x230103 = some (.read 0x0123#16 []) ∧
      decodeTableWord 56 0x0000000000000 = some (.init 0 0 0) ∧
      decodeTableWord 56 0x1000000000000 = some (.readByte 0 0 0) ∧
      decodeTableWord 56 0x2000000000000 = some (.writeByte 0 0 0) ∧
      decodeTableWord 56 0x3000000000000 = some (.readWord 0 0 0) ∧
      decodeTableWord 56 0x4000000000000 = some (.writeWord 0 0 0) ∧
      decodeTableWord 56 0x5000000000000 = some (.readArray 0 0 0) ∧
      decodeTableWord 56 0x6000000000000 = some (.writeArray 0 0 0) ∧
      decodeTableWord 56 0x7000000000000 = some (.eraseAll 0 0 0) ∧
      decodeTableWord 56 0x8000000000000 = some (.reservedHost 0 0 0 0) ∧
      decodeTableWord 24 0x00000 = some (.sendByte 0) ∧ decodeTableWord 24 0x10000 = some (.sendWord 0) ∧
      decodeTableWord 24 0x20000 = some (.receiveByte 0) ∧ decodeTableWord 24 0x30000 = some (.reservedTransport 0) := by
  decide

/-- A table word presented after reset runs in the very next step: what is on the wire then (log 16). -/
theorem test_step_runs_table_word :
    (nextOf (step (State.reset.withFetchWord 8 0x06))).map wire = some [[0x06#8]] ∧
      (nextOf (step (State.reset.withFetchWord 32 0x5ABC0A02))).map wire = some [[0x02#8, 0x0A#8, 0xBC#8, 0x5A#8]] ∧
      (nextOf (step (State.reset.withFetchWord 24 0x230103))).map wire = some [[0x03#8, 0x01#8, 0x23#8]] ∧
      (nextOf (step (State.reset.withFetchWord 24 0x10ABC))).map (fun t => t.trace.reverse) =
        some [.poll .txrdy, .regWrite 0x0A, .poll .txrdy, .regWrite 0xBC] := by decide

/-! The wire commands on the device: section 2.11, start `EE[0x10] = 77`, `EE[0x11] = 88`. -/

/-- The device of section 2.11. -/
def devState (wel : Bool) : State :=
  { State.reset with dev := { Dev.reset with ee := [(0x10, 0x77#8), (0x11, 0x88#8)], wel := wel } }

/-- V-D5, V-D3: WREN sets the latch. -/
theorem test_wren : (nextOf (exec .wren (devState false))).map (fun t => (t.dev.wel, t.dev.wip)) = some (true, false) := by
  decide

/-- V-D3: after the frame WIP = 1, the store still 77; after Commit 55, WEL and WIP 0. -/
theorem test_write :
    (nextOf (exec (.write 0x10 [0x55#8]) (devState true))).map
        (fun t => (eeRead t 0x10, t.dev.wip, eeRead (commit t) 0x10, (commit t).dev.wel, (commit t).dev.wip)) =
      some (0x77#8, true, 0x55#8, false, false) := by decide

/-- V-D1, V-D11: without the latch nothing happens; A + n = 4097 is a fault. -/
theorem test_write_refused :
    (nextOf (exec (.write 0x10 [0x55#8]) (devState false))).map (fun t => (t.dev.wip, eeRead t 0x10)) =
        some (false, 0x77#8) ∧
      faultOf (exec (.write 0x0FFF [0x01#8, 0x02#8]) (devState true)) = some .deviceAddressRange := by decide

/-- V-D7: r_3 = 77, r_4 = 88, nothing changes. -/
theorem test_read :
    (nextOf (exec (.read 0x10 [0xAA#8, 0x00#8]) (devState false))).map (fun t => (replies t, t.dev)) =
      some ([0x77#8, 0x88#8], (devState false).dev) := by decide

/-- V-D12, V-D13: the second data exchange past 0x0FFF is a fault, an address of 4096 is one. -/
theorem test_read_range :
    faultOf (exec (.read 0x0FFF [0#8, 0#8]) (devState false)) = some .deviceAddressRange ∧
      faultOf (exec (.read 0x1000 [0#8]) (devState false)) = some .deviceAddressRange ∧
      (nextOf (exec (.read 0x0FFF [0#8]) (devState false))).isSome = true := by decide

/-- V-D2, V-D14: `[06 02 00 10 55]` in one bracket, and the empty frame, change nothing. -/
theorem test_unknown_frames :
    (nextOf (runUnknownFrame [0x06#8, 0x02#8, 0x00#8, 0x10#8, 0x55#8] (devState false))).map (fun t => t.dev) =
        some (devState false).dev ∧
      (nextOf (runUnknownFrame [] (devState false))).map (fun t => t.dev) = some (devState false).dev := by decide

/-- V-D8, V-D10: a WRITE with no data does not start a cycle; a bracket during a cycle is a fault. -/
theorem test_write_nothing_and_busy :
    (nextOf (exec (.write 0x10 []) (devState true))).map (fun t => (t.dev.wip, eeRead t 0x10)) =
        some (false, 0x77#8) ∧
      ((nextOf (exec (.write 0x10 [0x55#8]) (devState true))).bind (fun t => faultOf (exec .wren t))) =
        some .deviceBusyAccess := by decide

/-! Host operations. -/

set_option maxRecDepth 8000 in
/-- V-E1: init in bit-bang mode from reset, its whole trace. -/
theorem test_init_bitbang :
    (given 0x0000000000000 (State.resetWith bbP)).map (fun t => (rspWord t, [t.regs.inited, t.dev.wel, t.pins.outMosi],
        (t.trace.reverse.drop 1).take 13, eventCount t)) =
      some (0x00000, [true, true, false],
        [.dir .cs .output, .drive .cs true, .dir .sck .output, .drive .sck false, .dir .mosi .output, .dir .miso .input,
          .drive .cs false, .drive .mosi false, .drive .sck true, .drive .sck false, .drive .mosi false,
          .drive .sck true, .drive .sck false], 32) := by decide

/-- V-E2: init in controller mode from reset, its whole trace. -/
theorem test_init_controller :
    (given 0x0000000000000 State.reset).map (fun t => (t.regs.inited, t.dev.wel, t.ctl.rxrdy, t.trace.reverse)) =
      some (true, true, true,
        [.cmd 0 0 0 0, .dir .cs .output, .drive .cs true, .drive .cs false, .poll .txrdy, .regWrite 0x06, .drive .cs true,
          .rsp 0 0]) := by decide

/-- V-F1: read_byte(0x0123) in controller mode, its whole trace. -/
theorem test_readByte_controller :
    (given 0x1012300000000 (withStore [(0x0123, 0x5A#8)] (ready ctlP))).map
        (fun t => (rspWord t, wire t, received t, t.trace.reverse)) =
      some (0x0005A, [[0x03#8, 0x01#8, 0x23#8, 0xFF#8]], [0x5A#8],
        [.cmd 1 0x0123 0 0, .drive .cs false, .poll .txrdy, .regWrite 0x03, .poll .txrdy, .regWrite 0x01, .poll .txrdy,
          .regWrite 0x23, .regWrite 0xFF, .poll .rxrdy, .regRead 0x5A, .drive .cs true, .rsp 0 0x5A]) := by decide

set_option maxRecDepth 8000 in
/-- V-F4: read_byte(0x0122) in bit-bang mode, the device sees 00 as its dummy. -/
theorem test_readByte_bitbang :
    (given 0x1012200000000 (withStore [(0x0122, 0xC3#8)] (ready bbP))).map (fun t => (rspWord t, wire t, eventCount t)) =
      some (0x000C3, [[0x03#8, 0x01#8, 0x22#8, 0x00#8]], 98) := by decide

/-- V-F5: write_byte(0x0ABC, 0x5A) in controller mode, its whole trace. -/
theorem test_writeByte_controller :
    (given 0x20ABC005A0000 (ready ctlP)).map
        (fun t => (wire t, t.dev.ee, [t.dev.wel, t.dev.wip], t.trace.reverse)) =
      some ([[0x06#8], [0x02#8, 0x0A#8, 0xBC#8, 0x5A#8]], [(0x0ABC, 0x5A#8)], [false, false],
        [.cmd 2 0x0ABC 0x005A 0, .drive .cs false, .poll .txrdy, .regWrite 0x06, .drive .cs true, .drive .cs false,
          .poll .txrdy, .regWrite 0x02, .poll .txrdy, .regWrite 0x0A, .poll .txrdy, .regWrite 0xBC, .poll .txrdy,
          .regWrite 0x5A, .drive .cs true, .wait, .rsp 0 0]) := by decide

set_option maxRecDepth 8000 in
/-- V-F8: write_byte(0x0005) with data 0x12A7 in bit-bang mode: the high byte is ignored. -/
theorem test_writeByte_bitbang :
    (given 0x2000512A70000 (ready bbP)).map (fun t => (rspWord t, wire t, eeRead t 5, eventCount t)) =
      some (0x00000, [[0x06#8], [0x02#8, 0x00#8, 0x05#8, 0xA7#8]], 0xA7#8, 125) := by decide

set_option maxRecDepth 8000 in
/-- V-F12: read_word(0x0FFE) in bit-bang mode. -/
theorem test_readWord :
    (given 0x30FFE00000000 (withStore [(0x0FFE, 0x12#8), (0x0FFF, 0x34#8)] (ready bbP))).map
        (fun t => (rspWord t, wire t, eventCount t)) =
      some (0x01234, [[0x03#8, 0x0F#8, 0xFE#8, 0x00#8], [0x03#8, 0x0F#8, 0xFF#8, 0xFF#8]], 196) := by decide

/-- V-X5, V-X7: read_word(4095) and read_word(0xFFFF) are InvalidAddress, without a wrap. -/
theorem test_readWord_range :
    (given 0x30FFF00000000 (ready ctlP)).map (fun t => (rspWord t, wire t)) = some (0x10000, []) ∧
      (given 0x3FFFF00000000 (ready ctlP)).map (fun t => (rspWord t, wire t)) = some (0x10000, []) := by decide

set_option maxRecDepth 8000 in
/-- V-F10: write_word(0x0010, 0xBEEF) in controller mode. -/
theorem test_writeWord :
    (given 0x40010BEEF0000 (ready ctlP)).map (fun t => (rspWord t, wire t, eeRead t 0x10, eeRead t 0x11, eventCount t)) =
      some (0x00000,
        [[0x06#8], [0x02#8, 0x00#8, 0x10#8, 0xBE#8], [0x06#8], [0x02#8, 0x00#8, 0x11#8, 0xEF#8]], 0xBE#8, 0xEF#8, 30) := by
  decide

set_option maxRecDepth 8000 in
/-- V-A2: read_array(0x0020, 3) after V-A1: BUF[0..2], BUF[3] untouched. -/
theorem test_readArray :
    (given 0x5002000000003 (withBuf [(3, 0x99#8)]
          (withStore [(0x20, 0x11#8), (0x21, 0x22#8), (0x22, 0x33#8)] (ready bbP)))).map
        (fun t => (wire t, t.buf, [t.tier, eventCount t])) =
      some ([[0x03#8, 0x00#8, 0x20#8, 0x00#8, 0x00#8, 0x00#8]],
        [(0, 0x11#8), (1, 0x22#8), (2, 0x33#8), (3, 0x99#8)], [1, 148]) := by decide

/-- V-X15, V-A9: read_array(0, 256) is InvalidLength; without array operations it is IllegalOperation. -/
theorem test_readArray_refused :
    (given 0x5000000000100 (ready ctlP)).map rspWord = some 0x20000 ∧
      (given 0x5002000000003 (ready plainP)).map rspWord = some 0x40000 := by decide

set_option maxRecDepth 8000 in
/-- V-A1: write_array(0x0020, 3) in controller mode. -/
theorem test_writeArray :
    (given 0x6002000000003 (withBuf [(0, 0x11#8), (1, 0x22#8), (2, 0x33#8)] (ready ctlP))).map
        (fun t => (wire t, t.dev.ee, [rspWord t, eventCount t])) =
      some ([[0x06#8], [0x02#8, 0x00#8, 0x20#8, 0x11#8, 0x22#8, 0x33#8]],
        [(0x20, 0x11#8), (0x21, 0x22#8), (0x22, 0x33#8)], [0x00000, 21]) := by decide

set_option maxRecDepth 8000 in
/-- V-A3: write_array(0x0200, 0) in bit-bang mode: the store unchanged, WIP 0, 103 events. -/
theorem test_writeArray_nothing :
    (given 0x6020000000000 (ready bbP)).map (fun t => (wire t, t.dev.ee, t.dev.wip, eventCount t)) =
      some ([[0x06#8], [0x02#8, 0x02#8, 0x00#8]], [], false, 103) := by decide

set_option maxRecDepth 8000 in
/-- V-E5, the first two of its 4096 turns: frames 1 to 4, the store 00. -/
theorem test_eraseAll_turns :
    (nextOf (runOp (.reg .eraZero :: repeatSeq 2 (eraseTurn ctlP)) (withStore [(1, 0x77#8)] (ready ctlP)))).map
        (fun t => (wire t, t.dev.ee, t.regs.era)) =
      some ([[0x06#8], [0x02#8, 0x00#8, 0x00#8, 0x00#8], [0x06#8], [0x02#8, 0x00#8, 0x01#8, 0x00#8]],
        [(0, 0x00#8), (1, 0x00#8)], 2) := by decide

/-- V-X25: erase_all with INITED = 0. -/
theorem test_eraseAll_refused : (given 0x7000000000000 State.reset).map rspWord = some 0x50000 := by decide

/-- V-X20, V-X23: op 0xF with all fields ones; op 0x9 with INITED = 0. -/
theorem test_reservedHost :
    (given 0xFFFFFFFFFFFFF (ready ctlP)).map rspWord = some 0x40000 ∧
      (given 0x9000000000000 State.reset).map rspWord = some 0x40000 := by decide

/-! Transport. -/

set_option maxRecDepth 8000 in
/-- V-T4: send_byte(0xA5) in bit-bang mode: the eight levels in order, SHIFT 00, BITCNT 8, OUT.MOSI 1. -/
theorem test_sendByte_bitbang :
    (nextOf (exec (.sendByte 0x00A5) (inFrame [] (ready bbP)))).map (fun t =>
        (t.trace.reverse.filter (fun e => e == .drive .mosi true || e == .drive .mosi false), t.regs.shift,
          t.regs.bitcnt, t.pins.outMosi, t.pins.outSck, t.trace.length)) =
      some ([.drive .mosi true, .drive .mosi false, .drive .mosi true, .drive .mosi false, .drive .mosi false,
        .drive .mosi true, .drive .mosi false, .drive .mosi true], 0x00#8, 8#4, true, false, 24) := by decide

/-- V-C1: send_byte(0x03) in controller mode. -/
theorem test_sendByte_controller :
    (nextOf (exec (.sendByte 0x0003) (inFrame [] (ready ctlP)))).map
        (fun t => (t.trace.reverse, t.ctl.txrdy, t.ctl.rxrdy)) =
      some ([.poll .txrdy, .regWrite 0x03], true, true) := by decide

set_option maxRecDepth 8000 in
/-- V-W1: send_word(0x0ABC): 0A, then BC; 48 events in bit-bang mode, 4 in controller mode. -/
theorem test_sendWord :
    (nextOf (exec (.sendWord 0x0ABC) (inFrame [0x03#8] (ready bbP)))).map
        (fun t => (t.dev.frame.map (fun f => f.bytes), t.trace.length)) =
        some (some [0x03#8, 0x0A#8, 0xBC#8], 48) ∧
      (nextOf (exec (.sendWord 0x0ABC) (inFrame [0x03#8] (ready ctlP)))).map (fun t => t.trace.reverse) =
        some [.poll .txrdy, .regWrite 0x0A, .poll .txrdy, .regWrite 0xBC] := by decide

set_option maxRecDepth 8000 in
/-- V-R2: a read of a cell holding 0x5A samples 0 1 0 1 1 0 1 0 and returns 0x5A. -/
theorem test_receiveByte_bitbang :
    (nextOf (exec (.receiveByte 0) (withStore [(0x0123, 0x5A#8)] (inFrame [0x03#8, 0x01#8, 0x23#8] (ready bbP))))).map
        (fun t => (t.regs.tret, t.trace.reverse.filter (fun e => e == .sample true || e == .sample false))) =
      some (0x5A#8, [.sample false, .sample true, .sample false, .sample true, .sample true, .sample false, .sample true,
        .sample false]) := by decide

/-- V-C2: receive_byte() in controller mode, the device replying 0x5A. -/
theorem test_receiveByte_controller :
    (nextOf (exec (.receiveByte 0) (withStore [(0x0123, 0x5A#8)] (inFrame [0x03#8, 0x01#8, 0x23#8] (ready ctlP))))).map
        (fun t => (t.regs.tret, t.ctl.txrdy, t.ctl.rxrdy, t.trace.reverse)) =
      some (0x5A#8, true, false, [.regWrite 0xFF, .poll .rxrdy, .regRead 0x5A]) := by decide

theorem test_reservedTransport : exec (.reservedTransport 0) (ready ctlP) = .refused .reservedTransportCode := rfl

/-! Event by event. -/

/-- V-F1 started and stepped: the command alone, the first three events, and after the eleventh and the response the
result, SEQ IDLE. -/
theorem test_event_by_event :
    [1, 4, 13].map (fun n =>
        (nextOf (steps n (asked (.start (.cmd 0x1012300000000#52)) (withStore [(0x0123, 0x5A#8)] (ready ctlP))))).map
          (fun t => (t.trace.reverse.take 4, t.busy, rspWord t, t.trace.length))) =
      [some ([.cmd 1 0x0123 0 0], true, 0x00000, 1),
        some ([.cmd 1 0x0123 0 0, .drive .cs false, .poll .txrdy, .regWrite 0x03], true, 0x00000, 4),
        some ([.cmd 1 0x0123 0 0, .drive .cs false, .poll .txrdy, .regWrite 0x03], false, 0x0005A, 13)] := by decide

/-- V-F5 started and stepped: after the second bracket, the settle wait is a hold, in which the device commits (R262). -/
theorem test_wait_is_a_hold :
    [16, 17, 18].map (fun n =>
        (nextOf (steps n (asked (.start (.cmd 0x20ABC005A0000#52)) (ready ctlP)))).map
          (fun t => (t.seq.head?, t.dev.wip, t.trace.length))) =
      [some (some (.ev .wait), false, 15), some (some (.ev (.rsp .zero)), false, 16), some (none, false, 17)] := by decide

/-- INIT started and stepped in controller mode (43_erase_and_init.md R203): after I8 the response is still to come and
INITED is 0; the step of the response sets it, SEQ IDLE. -/
theorem test_inited_with_response :
    [7, 8].map (fun n =>
        (nextOf (steps n (asked (.start (.cmd 0x0000000000000#52)) State.reset))).map
          (fun t => (t.regs.inited, t.busy, t.trace.head?))) =
      [some (false, true, some (.drive .cs true)), some (true, false, some (.rsp 0 0))] := by decide

/-! The bus (70_reset_and_hazards.md R275). -/

set_option maxRecDepth 8000 in
/-- V-R3, V-R4: a data-in line stuck low gives 0x00, stuck high 0xFF, over a stored 0x5A. -/
theorem test_stuck_line :
    [false, true].map (fun b => (nextOf (exec (.receiveByte 0) (onLine { Line.sound with dataIn := .stuck b }
        (withStore [(0x0123, 0x5A#8)] (inFrame [0x03#8, 0x01#8, 0x23#8] (ready bbP)))))).map (fun t => t.regs.tret)) =
      [some 0x00#8, some 0xFF#8] := by decide

/-- R275: read_byte and write_byte of a missing device are answered OK, the store unchanged. -/
theorem test_missing_device :
    (given 0x1012300000000 (onLine { present := false, dataIn := .stuck true, dataOut := .sound }
        (withStore [(0x0123, 0x5A#8)] (ready ctlP)))).map rspWord = some 0x000FF ∧
      (given 0x20123005B0000 (onLine { Line.sound with present := false }
        (withStore [(0x0123, 0x5A#8)] (ready ctlP)))).map (fun t => (rspWord t, t.dev.ee, t.dev.wip)) =
        some (0x00000, [(0x0123, 0x5A#8)], false) := by decide

/-! Timeouts, stuck states, faults. -/

/-- V-Y1: init from reset with a dead controller and a budget of 3. -/
theorem test_timeout_init :
    (given 0x0000000000000 (State.resetWith deadP)).map (fun t => (rspWord t, t.regs.inited, t.pins.outCs, eventCount t)) =
      some (0x30000, false, true, 4) := by decide

set_option maxRecDepth 8000 in
/-- V-Y4: write_byte whose controller stops answering at the data byte's poll: T0, then T1 Wait(SETTLE); the device closed
`[02 0A BC]`. The poll of the data byte is the 12th scheduling point. -/
theorem test_timeout_write :
    (given 0x20ABC005A0000
          { ready { Config.params with pollBudget := some 3 } with
            sched := List.replicate 11 [] ++ [[.live false]] }).map
        (fun t => (rspWord t, wire t, t.dev.wip, (t.trace.take 4).reverse)) =
      some (0x30000, [[0x06#8], [0x02#8, 0x0A#8, 0xBC#8]], false,
        [.regWrite 0xBC, .drive .cs true, .wait, .rsp 3 0]) := by decide

/-- V-Y5, V-C4: the same init with no budget stays at Poll(TXRDY), chip-select low, SEQ not IDLE. -/
theorem test_stuck :
    (given 0x0000000000000 (State.resetWith { deadP with pollBudget := none })).map
        (fun t => (t.busy, t.pins.outCs, t.seq.head?)) = some (true, false, some (.poll .txrdy)) := by decide

set_option maxRecDepth 8000 in
/-- V-S1: read_byte(0x0123) on the asynchronous controller, which runs Load, eight Shift and Done after every register
write: the events of V-F1. (That the byte arrives is in AsyncMovesByte: the earlier replies are open.) -/
theorem test_async_clean :
    (given 0x1012300000000
          { withStore [(0x0123, 0x5A#8)] (ready asyncP) with
            sched := List.replicate 13 (List.replicate 10 .controller) }).map
        (fun t => (t.regs.rspStatus, eventCount t, t.ctl.rxrdy)) = some (0#3, 11, false) := by decide

/-- V-S4 on the `[06]` frame: RegWrite(TXBUF, 06), then at once Drive(CS, 1). -/
theorem test_async_early :
    faultOf (step ((ready asyncP).withFetchWord 56 0x20ABC005A0000)) = some .csEarly := by decide

/-- R218 with 95 section 2.10: an asynchronous controller that is not idle when the budget runs out is CsEarly at T0,
also if it would be idle one move later. -/
theorem test_async_timeout :
    faultOf (step ({ ready { asyncP with pollBudget := some 1 } with
        sched := List.replicate 4 [] ++ [List.replicate 10 EnvAct.controller] }.withFetchWord 56 0x1012300000000)) =
      some .csEarly := by decide

/-- V-D15: chip-select low, 12 pulses, chip-select high. -/
theorem test_partial_byte :
    (match Dev.exchangeBits 12 0#8 0#8 { Dev.reset with frame := some Frame.empty } 0 with
      | .ok (_, d, _) =>
        match csLevel true { State.reset with dev := d, pins := { Pins.reset with outCs := false } } with
        | .error e => some e
        | .ok _ => none
      | .error e => some e) = some .partialByte := by decide

/-! Witnesses: for each statement with hypotheses, concrete states and operands that meet all of them together, each
clause at a boundary value of its range. -/

/-- An idle state with a write cycle of one byte running. -/
def cycling (a : Nat) (p : Params) : State :=
  { ready p with dev := { Dev.reset with wip := true, pending := some ⟨a, [0x55#8]⟩ } }

/-- Idle and initialised with a dead controller. -/
def dead (budget : Option Nat) : State := ready { deadP with pollBudget := budget }

/-- Every instruction that decodes, one of each level. -/
theorem witness_EncodeOfDecode :
    decode (.frame [0x03#8, 0x0F#8, 0xFF#8]) = .ok (.read 0x0FFF#16 []) ∧
      decode (.cmd 0xFFFFFFFFFFFFF#52) = .ok (.reservedHost 7 0xFFFF 0xFFFF 0xFFFF) ∧
      decode (.micro 0x30000#18) = .ok (.reservedTransport 0) := ⟨rfl, rfl, rfl⟩

theorem witness_StepRunsDecodedInstruction :
    (ready bbP).seq = [] ∧ (asked (.instr (.cmd 0x1012300000000#52)) (ready bbP)).inbox =
        .instr (.cmd 0x1012300000000#52) :: [] ∧
      decode (.cmd 0x1012300000000#52) = .ok (.readByte 0x0123 0 0) := ⟨rfl, rfl, rfl⟩

/-- A running operation at an event, and an idle block asked to start one. -/
theorem witness_EventByEvent :
    { ready bbP with seq := [.ev .wait] }.seq = .ev .wait :: [] ∧ (∀ u, Micro.ev .wait ≠ .reg u) ∧
      (∃ t, step { ready bbP with seq := [.ev .wait] } = .next t) ∧
      (asked (.start (.cmd 0x1012300000000#52)) (ready bbP)).seq = [] ∧
      (asked (.start (.cmd 0x1012300000000#52)) (ready bbP)).inbox = .start (.cmd 0x1012300000000#52) :: [] :=
  ⟨rfl, by simp, ⟨_, rfl⟩, rfl, rfl⟩

theorem witness_HostHasNoMoveWhileBusy : { dead none with seq := [.poll .txrdy] }.seq ≠ [] := by decide

theorem witness_ResetValues :
    (asked .reset (cycling 0 bbP)).seq = [] ∧ (asked .reset (cycling 0 bbP)).inbox = .reset :: [] := ⟨rfl, rfl⟩

theorem witness_HostWritesBuffer :
    (asked (.bufWrite 0xFF 1) (ready ctlP)).seq = [] ∧
      (asked (.bufWrite 0xFF 1) (ready ctlP)).inbox = .bufWrite 0xFF 1 :: [] := ⟨rfl, rfl⟩

theorem witness_CommitWritesPending :
    (asked (.env [.commit]) (cycling 4095 ctlP)).seq = [] ∧
      (asked (.env [.commit]) (cycling 4095 ctlP)).inbox = .env [.commit] :: [] ∧
      (cycling 4095 ctlP).dev.wip = true ∧ (cycling 4095 ctlP).dev.pending = some ⟨4095, [0x55#8]⟩ :=
  ⟨rfl, rfl, rfl, rfl⟩

theorem witness_ReservedCodesAreIllegal :
    State.reset.seq = [] ∧ (ready plainP).seq = [] ∧ (ready plainP).params.hasArray = false := by decide

theorem witness_NotInitialisedBeforeInit :
    State.reset.seq = [] ∧ State.reset.regs.inited = false ∧ State.reset.params.hasArray = true := by decide

theorem witness_LongArraysAreInvalid :
    (ready ctlP).seq = [] ∧ (ready ctlP).regs.inited = true ∧ (ready ctlP).params.hasArray = true ∧
      256 ≤ (256#16).toNat ∧ 256 ≤ (0xFFFF#16).toNat := by decide

/-- Byte: 4096. Word: 4095. Array: 4096 with nothing, 4095 with 2, 3842 with 255. -/
theorem witness_BadAddressesAreInvalid :
    (ready ctlP).seq = [] ∧ (ready ctlP).regs.inited = true ∧ 4096 ≤ (4096#16).toNat ∧ 4096 ≤ (4095#16).toNat + 1 ∧
      (ready ctlP).params.hasArray = true ∧ (0#16).toNat ≤ 255 ∧
      (4096 ≤ (4096#16).toNat ∨ 4096 < (4096#16).toNat + (0#16).toNat) ∧
      (4096 ≤ (4095#16).toNat ∨ 4096 < (4095#16).toNat + (2#16).toNat) ∧
      (4096 ≤ (3842#16).toNat ∨ 4096 < (3842#16).toNat + (255#16).toNat) := by decide

theorem witness_ChecksInOrder : State.reset.seq = [] ∧ (ready bbP).seq = [] ∧ (ready plainP).seq = [] := by decide

/-- A word that passes every check and runs, and the words of its clauses' boundaries (V-X5, V-X9, V-X10). -/
theorem witness_ChecksInOrder_runs :
    (given 0x60FFF00000001 (ready ctlP)).map rspWord = some 0x00000 ∧
      (given 0x60FFF00000002 (ready ctlP)).map rspWord = some 0x10000 ∧
      (given 0x60000000000FF (ready plainP)).map rspWord = some 0x40000 := by decide

/-- The state after reset, in both modes, and with a budget of one attempt. -/
theorem witness_InitCompletes :
    ∀ s ∈ [State.reset, State.resetWith bbP, State.resetWith { ctlP with pollBudget := some 1 }],
      s.seq = [] ∧ s.sched = [] ∧ s.pins.outCs = true ∧ s.dev.frame = none ∧ s.dev.wip = false ∧
        s.dev.line = Line.sound ∧ (s.params.mode = .controller →
          s.params.ctrlAtomic = true ∧ s.ctl.live = true ∧ s.ctl.txrdy = true ∧ s.params.pollBudget ≠ some 0) := by decide

/-- Ready states in both modes, with and without a poll budget, at both sample points. -/
theorem ready_ctl : Ready (ready ctlP) := by decide
theorem ready_bb : Ready (ready bbP) := by decide
theorem ready_budget : Ready (ready { ctlP with pollBudget := some 1 }) := by decide
theorem ready_whileHigh : Ready (ready { bbP with samplePoint := .whileHigh }) := by decide

theorem witness_ReadByteCompletes : Ready (ready ctlP) ∧ Ready (ready bbP) ∧ (4095#16).toNat < 4096 := by decide

theorem witness_ReadWordCompletes : Ready (ready ctlP) ∧ Ready (ready bbP) ∧ (4094#16).toNat + 1 < 4096 := by decide

/-- Lengths 0 and 1 at the last address, 255 at 3841. -/
theorem witness_ReadArrayCompletes :
    Ready (ready ctlP) ∧ Ready (ready bbP) ∧ (ready ctlP).params.hasArray = true ∧
      ∀ x ∈ [(4095#16, 0#16), (4095#16, 1#16), (3841#16, 255#16)],
        x.2.toNat ≤ 255 ∧ x.1.toNat < 4096 ∧ x.1.toNat + x.2.toNat ≤ 4096 := ⟨ready_ctl, ready_bb, rfl, by simp⟩

theorem witness_WriteByteCompletes :
    Ready (ready ctlP) ∧ Ready (ready bbP) ∧ (ready bbP).params.oSettle = true ∧ (ready ctlP).params.oSettle = true ∧
      (4095#16).toNat < 4096 := by decide

theorem witness_WriteWordCompletes :
    Ready (ready bbP) ∧ (ready bbP).params.oSettle = true ∧ (4094#16).toNat + 1 < 4096 := by decide

theorem witness_WriteArrayCompletes :
    Ready (ready bbP) ∧ (ready bbP).params.oSettle = true ∧ (ready bbP).params.hasArray = true ∧
      ∀ x ∈ [(4095#16, 1#16), (3841#16, 255#16)],
        0 < x.2.toNat ∧ x.2.toNat ≤ 255 ∧ x.1.toNat + x.2.toNat ≤ 4096 := ⟨ready_bb, rfl, rfl, by simp⟩

theorem witness_WriteArrayOfNothing :
    Ready (ready bbP) ∧ (ready bbP).params.hasArray = true ∧ (0#16 : Half) = 0 ∧ (4095#16).toNat < 4096 := by decide

theorem witness_EraseAllCompletes : Ready (ready bbP) ∧ (ready bbP).params.oSettle = true := by decide

theorem witness_WritesWithoutSettle :
    Ready (ready looseP) ∧ (ready looseP).params.oSettle = false ∧ (4095#16).toNat < 4096 ∧
      (ready looseP).params.hasArray = true ∧ 0 < (255#16).toNat ∧ (255#16).toNat ≤ 255 ∧
      (3841#16).toNat + (255#16).toNat ≤ 4096 ∧ (4094#16).toNat + 1 < 4096 := by decide

theorem witness_WrenSetsLatch : BusIdle (devState false) ∧ (devState false).dev.wip = false := by decide

theorem witness_WriteStartsCycle :
    BusIdle (devState true) ∧ (devState true).dev.wip = false ∧ (devState true).dev.wel = true ∧ [0x55#8] ≠ [] ∧
      (4095#16).toNat + [0x55#8].length ≤ 4096 := by decide

theorem witness_WriteIgnoredWithoutLatch :
    BusIdle (devState false) ∧ (devState false).dev.wip = false ∧ (devState false).dev.wel = false ∧ [0x55#8] ≠ [] ∧
      (4095#16).toNat + [0x55#8].length ≤ 4096 := by decide

theorem witness_WriteOfNothing :
    BusIdle (devState true) ∧ (devState true).dev.wip = false ∧ (4095#16).toNat < 4096 := by decide

theorem witness_ReadGivesStore :
    BusIdle (devState true) ∧ (devState true).dev.wip = false ∧ (4095#16).toNat < 4096 ∧
      (4095#16).toNat + [0xFF#8].length ≤ 4096 := by decide

theorem witness_OtherFramesIgnored :
    BusIdle (asked (.instr (.frame [0x06#8, 0x00#8])) (devState true)) ∧ (devState true).dev.wip = false ∧
      (asked (.instr (.frame [0x06#8, 0x00#8])) (devState true)).inbox = .instr (.frame [0x06#8, 0x00#8]) :: [] ∧
      ∀ i, decodeFrame [0x06#8, 0x00#8] ≠ .ok i := by
  refine ⟨by decide, rfl, rfl, fun i h => ?_⟩
  rw [show decodeFrame [0x06#8, 0x00#8] = .error .bytesAfterWren from rfl] at h
  cases h

/-- 4096 with nothing, 4095 with 2, and a write cycle. -/
theorem witness_DeviceFaults :
    BusIdle (devState true) ∧ (devState true).dev.wip = false ∧
      (4096 ≤ (4096#16).toNat ∨ 4096 < (4096#16).toNat + ([] : List Byte).length) ∧
      (4096 ≤ (4095#16).toNat ∨ 4096 < (4095#16).toNat + [0#8, 0#8].length) ∧
      BusIdle (cycling 0 ctlP) ∧ (cycling 0 ctlP).dev.wip = true := by decide

/-- A transport request in the data phase of a READ at 0x0FFF, in a new frame, and with no frame open. -/
theorem witness_SendByteBitbang :
    (inFrame [] (ready bbP)).seq = [] ∧ Linked (inFrame [] (ready bbP)) ∧ (ready bbP).params.mode = .bitbang ∧
      (inFrame [0x03#8, 0x0F#8, 0xFF#8] (ready bbP)).dev.frame =
        some ⟨[0x03#8, 0x0F#8, 0xFF#8], [0x03#8, 0x0F#8, 0xFF#8], 0, 0, 0, []⟩ ∧
      (∃ r n, replyFor (inFrame [0x03#8, 0x0F#8, 0xFF#8] (ready bbP)).dev [0x03#8, 0x0F#8, 0xFF#8] 0 = .ok (r, n)) ∧
      (∃ r n, replyFor (inFrame [] (ready bbP)).dev [] 0 = .ok (r, n)) ∧
      frameInRange ([0x03#8, 0x0F#8, 0xFF#8] ++ [0xA5#8]) = true ∧ frameInRange ([] ++ [0x06#8]) = true ∧
      (ready bbP).dev.frame = none ∧ Linked (ready bbP) := by
  refine ⟨rfl, by decide, rfl, rfl, ⟨_, _, rfl⟩, ⟨_, _, rfl⟩, by decide, by decide, rfl, by decide⟩

theorem witness_SendByteController :
    (inFrame [0x03#8, 0x0F#8, 0xFF#8] (ready ctlP)).seq = [] ∧ Linked (inFrame [0x03#8, 0x0F#8, 0xFF#8] (ready ctlP)) ∧
      (ready ctlP).params.mode = .controller ∧
      (inFrame [0x03#8, 0x0F#8, 0xFF#8] (ready ctlP)).dev.frame =
        some ⟨[0x03#8, 0x0F#8, 0xFF#8], [0x03#8, 0x0F#8, 0xFF#8], 0, 0, 0, []⟩ ∧
      (∃ r n, replyFor (inFrame [0x03#8, 0x0F#8, 0xFF#8] (ready ctlP)).dev [0x03#8, 0x0F#8, 0xFF#8] 0 = .ok (r, n)) ∧
      frameInRange ([0x03#8, 0x0F#8, 0xFF#8] ++ [0xA5#8]) = true ∧
      (ready ctlP).dev.frame = none ∧ Linked (ready ctlP) := by
  refine ⟨rfl, by decide, rfl, rfl, ⟨_, _, rfl⟩, by decide, rfl, by decide⟩

/-- The address of a READ frame, sent as a word, in both modes. -/
theorem witness_SendWordSendsTwoBytes :
    ∀ p ∈ [ctlP, bbP],
      (inFrame [0x03#8] (ready p)).seq = [] ∧ Linked (inFrame [0x03#8] (ready p)) ∧
        (inFrame [0x03#8] (ready p)).dev.frame = some ⟨[0x03#8], [0x03#8], 0, 0, 0, []⟩ ∧
        (∃ r n, replyFor (inFrame [0x03#8] (ready p)).dev [0x03#8] 0 = .ok (r, n) ∧
          ∃ r' n', replyFor (inFrame [0x03#8] (ready p)).dev ([0x03#8] ++ [0x0F#8]) n = .ok (r', n')) ∧
        frameInRange ([0x03#8] ++ [0x0F#8]) = true ∧ frameInRange ([0x03#8] ++ [0x0F#8] ++ [0xFF#8]) = true ∧
        (ready p).dev.frame = none ∧ Linked (ready p) := by
  intro p hp
  rcases List.mem_cons.mp hp with rfl | hp
  · exact ⟨rfl, by decide, rfl, ⟨_, _, rfl, _, _, rfl⟩, by decide, by decide, rfl, by decide⟩
  · rcases List.mem_singleton.mp hp with rfl
    exact ⟨rfl, by decide, rfl, ⟨_, _, rfl, _, _, rfl⟩, by decide, by decide, rfl, by decide⟩

/-- A stuck data-in line, the device there or missing. -/
def bad (pr w : Bool) : Line := { present := pr, dataIn := .stuck w, dataOut := .sound }

/-- The data phase of a READ at 0x0FFF, the last cell, on a sound bus and on bad ones. -/
theorem witness_ReceiveByteBitbang :
    ∀ l ∈ [Line.sound, bad true false, bad true true, bad false false, bad false true],
      let s := onLine l (inFrame [0x03#8, 0x0F#8, 0xFF#8] (ready bbP))
      s.seq = [] ∧ Wired s ∧ s.params.mode = .bitbang ∧
      (∃ r n, replyFor s.dev [0x03#8, 0x0F#8, 0xFF#8] 0 = .ok (r, n)) ∧
      frameInRange ([0x03#8, 0x0F#8, 0xFF#8] ++ [if s.pins.outMosi then 0xFF#8 else 0x00#8]) = true ∧
      s.dev.inRange ([0x03#8, 0x0F#8, 0xFF#8] ++ [if s.pins.outMosi then 0xFF#8 else 0x00#8]) = true ∧
      (onLine l (ready bbP)).dev.frame = none ∧ Wired (onLine l (ready bbP)) := by
  intro l hl
  simp only [List.mem_cons, List.not_mem_nil, or_false] at hl
  rcases hl with rfl | rfl | rfl | rfl | rfl <;>
    exact ⟨rfl, by decide, rfl, ⟨_, _, rfl⟩, by decide, by decide, rfl, by decide⟩

theorem witness_ReceiveByteController :
    ∀ l ∈ [Line.sound, bad true false, bad true true, bad false false, bad false true],
      let s := onLine l (inFrame [0x03#8, 0x0F#8, 0xFF#8] (ready ctlP))
      s.seq = [] ∧ Wired s ∧ s.params.mode = .controller ∧
      (∃ r n, replyFor s.dev [0x03#8, 0x0F#8, 0xFF#8] 0 = .ok (r, n)) ∧
      frameInRange ([0x03#8, 0x0F#8, 0xFF#8] ++ [0xFF#8]) = true ∧
      s.dev.inRange ([0x03#8, 0x0F#8, 0xFF#8] ++ [0xFF#8]) = true ∧
      (onLine l (ready ctlP)).dev.frame = none ∧ Wired (onLine l (ready ctlP)) := by
  intro l hl
  simp only [List.mem_cons, List.not_mem_nil, or_false] at hl
  rcases hl with rfl | rfl | rfl | rfl | rfl <;>
    exact ⟨rfl, by decide, rfl, ⟨_, _, rfl⟩, by decide, by decide, rfl, by decide⟩

theorem witness_AsyncTakesByte :
    (ready asyncP).seq = [] ∧ (ready asyncP).sched = [] ∧ (ready asyncP).params.mode = .controller ∧
      (ready asyncP).params.ctrlAtomic = false ∧ (ready asyncP).params.pollBudget ≠ some 0 ∧
      (ready asyncP).ctl.txfull = false ∧ (ready asyncP).params.pollBudget = none ∧ (ready asyncP).ctl.live = true ∧
      (ready asyncP).ctl.srBusy = false ∧ (ready asyncP).ctl.rxrdy = false ∧
      (ready asyncP).dev.line = Line.sound ∧ (ready asyncP).dev.frame = none := by decide

/-- The receive clause in the data phase of a READ at 0x0FFF. -/
theorem witness_AsyncTakesByte_frame :
    (inFrame [0x03#8, 0x0F#8, 0xFF#8] (ready asyncP)).ctl = (ready asyncP).ctl ∧
      (∃ r n, replyFor (inFrame [0x03#8, 0x0F#8, 0xFF#8] (ready asyncP)).dev [0x03#8, 0x0F#8, 0xFF#8] 0 = .ok (r, n)) ∧
      frameInRange ([0x03#8, 0x0F#8, 0xFF#8] ++ [0xFF#8]) = true := ⟨rfl, ⟨_, _, rfl⟩, by decide⟩

/-- The asynchronous controller holding the dummy of a READ at 0x0FFF, given ten moves. -/
def loaded : State :=
  asked (.env (List.replicate 10 .controller))
    { inFrame [0x03#8, 0x0F#8, 0xFF#8] (ready asyncP) with ctl := { Ctl.reset true with txbuf := 0xFF, txfull := true } }

theorem witness_AsyncMovesByte :
    loaded.seq = [] ∧ loaded.inbox = .env (List.replicate 10 .controller) :: [] ∧ loaded.params.mode = .controller ∧
      loaded.params.ctrlAtomic = false ∧ loaded.ctl.live = true ∧ loaded.ctl.txfull = true ∧
      loaded.ctl.srBusy = false ∧ loaded.dev.line = Line.sound ∧
      loaded.dev.frame = some ⟨[0x03#8, 0x0F#8, 0xFF#8], [0x03#8, 0x0F#8, 0xFF#8], 0, 0, 0, []⟩ ∧
      (∃ r n, replyFor loaded.dev [0x03#8, 0x0F#8, 0xFF#8] loaded.draws = .ok (r, n)) ∧
      frameInRange ([0x03#8, 0x0F#8, 0xFF#8] ++ [loaded.ctl.txbuf]) = true :=
  ⟨rfl, rfl, rfl, rfl, rfl, rfl, rfl, rfl, rfl, ⟨_, _, rfl⟩, by decide⟩

theorem witness_DriveNeedsOutput :
    pinDir .cs State.reset = .input ∧ pinDir .sck State.reset = .input ∧ pinDir .mosi State.reset = .input ∧
      (State.resetWith bbP).seq = [] ∧ (State.resetWith bbP).sched = [] ∧
      (State.resetWith bbP).params.mode = .bitbang ∧ (State.resetWith bbP).pins.dirMosi = .input := by decide

/-- A frame left after 1 pulse and after 7 pulses of a byte. -/
theorem witness_PartialBytesFault :
    ∀ k ∈ [1, 7],
      let s := { inFrame [] (ready bbP) with dev := { Dev.reset with frame := some ⟨[], [], 0, k, 0, []⟩ } }
      s.seq = [] ∧ s.sched = [] ∧ isAsync s = false ∧ s.pins.dirCs = .output ∧ s.pins.outCs = false ∧
        s.dev.frame = some ⟨[], [], 0, k, 0, []⟩ ∧ (⟨[], [], 0, k, 0, []⟩ : Frame).cnt ≠ 0 := by decide

/-- The three states of the hazards: TXBUF full; RXRDY left from an earlier byte; a byte in the shift register. -/
theorem witness_AsyncHazards :
    (ready asyncP).seq = [] ∧ (ready asyncP).sched = [] ∧ (ready asyncP).params.mode = .controller ∧
      (ready asyncP).params.ctrlAtomic = false ∧ (ready asyncP).params.pollBudget ≠ some 0 ∧
      { ready asyncP with ctl := { Ctl.reset true with txfull := true } }.ctl.txfull = true ∧
      { ready asyncP with ctl := { Ctl.reset true with rxrdy := true } }.ctl.txfull = false ∧
      { ready asyncP with ctl := { Ctl.reset true with rxrdy := true } }.ctl.rxrdy = true ∧
      { ready asyncP with ctl := { Ctl.reset true with srBusy := true } }.ctl.srBusy = true := by decide

theorem witness_PollOutcomes :
    (ready ctlP).sched = [] ∧ flagValue .txrdy (ready ctlP) = true ∧ (ready ctlP).params.pollBudget ≠ some 0 ∧
      (dead (some 1)).sched = [] ∧ flagValue .txrdy (dead (some 1)) = false ∧
      (dead (some 1)).params.pollBudget = some (0 + 1) ∧ flagValue .rxrdy (dead none) = false ∧
      isAsync (dead none) = false ∧ (dead none).params.pollBudget = none := by decide

/-- Words that pass the checks at the ends of their ranges. -/
def accepted : List (BitVec 52) :=
  [0x0000000000000#52, 0x10FFF00000000#52, 0x20FFF00000000#52, 0x30FFE00000000#52, 0x40FFE00000000#52,
    0x50FFF00000000#52, 0x60F01000000FF#52, 0x7000000000000#52]

theorem accepted_words (b : Option Nat) : ∀ w ∈ accepted, Accepted (dead b) w := by
  intro w hw
  simp only [accepted, List.mem_cons, List.not_mem_nil, or_false] at hw
  rcases hw with rfl | rfl | rfl | rfl | rfl | rfl | rfl | rfl <;>
    exact ⟨by decide, fun _ => rfl, fun _ => ⟨rfl, by decide, by decide, by decide⟩, by decide, by decide⟩

/-- With one attempt and with three, and INIT before an init. -/
theorem witness_DeadControllerTimesOut :
    (dead (some 1)).params.pollBudget = some (0 + 1) ∧ Dead (dead (some 1)) ∧ Dead (dead (some 3)) ∧
      (∀ w ∈ accepted, Accepted (dead (some 1)) w) ∧
      Dead { dead (some 3) with regs := Regs.reset } ∧
      Accepted { dead (some 3) with regs := Regs.reset } 0x0000000000000#52 :=
  ⟨rfl, by decide, by decide, accepted_words _, by decide,
    by decide, fun h => absurd rfl h, by decide, by decide, by decide⟩

/-- Held at the poll of a WRITE bracket after its opcode, the tier lowered. -/
theorem witness_DeadControllerTimesOut_write :
    let s := { inFrame [0x02#8] (dead (some 1)) with seq := [.poll .txrdy], bracketWrite := true, tierLow := true }
    s.params.pollBudget = some (0 + 1) ∧ s.seq = .poll .txrdy :: [] ∧ s.sched = [] ∧ s.params.mode = .controller ∧
      s.params.ctrlAtomic = true ∧ s.ctl.live = false ∧ s.pins.dirCs = .output ∧ s.pins.outCs = false ∧
      s.bracketWrite = true ∧ s.dev.frame = some ⟨[0x02#8], [0x02#8], 0, 0, 0, []⟩ ∧
      (⟨[0x02#8], [0x02#8], 0, 0, 0, []⟩ : Frame).cnt = 0 := by decide

theorem witness_DeadControllerBlocks :
    Dead (dead none) ∧ (dead none).params.pollBudget = none ∧ ∀ w ∈ accepted, Accepted (dead none) w :=
  ⟨by decide, rfl, accepted_words _⟩

theorem witness_BitbangNeverBlocks :
    (ready bbP).params.mode = .bitbang ∧ ∃ t, exec .wren (ready bbP) = .next t := ⟨rfl, _, rfl⟩

/-- A state with a write cycle and bytes in both memories meets the invariant, and steps. -/
theorem witness_InvariantKept :
    Inv (withBuf [(255, 0x22#8)] (withStore [(4095, 0x11#8)] (cycling 4095 bbP))) ∧
      ∃ t, step (withBuf [(255, 0x22#8)] (withStore [(4095, 0x11#8)] (cycling 4095 bbP))) = .next t := by
  refine ⟨⟨by decide, by decide, by decide, by decide, by decide, by decide, by decide, fun p h => ?_, fun f h => ?_⟩,
    _, rfl⟩
  · cases h; decide
  · cases h

/-- A state inside a frame meets the invariant. -/
theorem witness_InvariantInFrame : Inv (inFrame [0x03#8, 0x0F#8, 0xFF#8] (ready bbP)) := by
  refine ⟨by decide, by decide, by decide, by decide, by decide, by decide, by decide, fun p h => ?_, fun f h => ?_⟩
  · cases h
  · cases h; decide

theorem witness_ParametersFixed : ∃ t, step (ready bbP) = .next t := ⟨_, rfl⟩

/-- A step that keeps INITED, and the reset that clears it. -/
theorem witness_InitedClearedOnlyByReset :
    (ready bbP).regs.inited = true ∧ (∃ t, step (ready bbP) = .next t ∧ t.regs.inited = true) ∧
      ∃ t, step (asked .reset (ready bbP)) = .next t ∧ t.regs.inited = false := ⟨rfl, ⟨_, rfl, rfl⟩, ⟨_, rfl, rfl⟩⟩

theorem witness_HostCommandsAnswered :
    Ready (ready ctlP) ∧ (ready ctlP).params.oSettle = true ∧ Ready (ready bbP) ∧ (ready bbP).params.oSettle = true := by
  decide

theorem witness_FramesAreWireCommands :
    Ready (ready ctlP) ∧ (ready ctlP).params.oSettle = true ∧
      ∃ t, exec (decodeCmd 0x8000000000000#52) (ready ctlP) = .next t := ⟨by decide, rfl, _, rfl⟩

theorem witness_ByteRoundTrip :
    Ready (ready bbP) ∧ (ready bbP).params.oSettle = true ∧ (4095#16).toNat < 4096 ∧ (0#16).toNat < 4096 := by decide

theorem witness_WordRoundTrip :
    Ready (ready bbP) ∧ (ready bbP).params.oSettle = true ∧ (4094#16).toNat + 1 < 4096 := by decide

theorem witness_ArrayRoundTrip :
    Ready (ready bbP) ∧ (ready bbP).params.oSettle = true ∧ (ready bbP).params.hasArray = true ∧
      0 < (255#16).toNat ∧ (255#16).toNat ≤ 255 ∧ (3841#16).toNat + (255#16).toNat ≤ 4096 := by decide

theorem witness_EraseIdempotent : Ready (ready ctlP) ∧ (ready ctlP).params.oSettle = true := by decide

theorem witness_OneEnableOneWrite :
    BusIdle (devState false) ∧ (devState false).dev.wip = false ∧ (0x10#16).toNat + [0x55#8].length ≤ 4096 ∧
      (4095#16).toNat + [0x66#8].length ≤ 4096 := by decide

theorem witness_EventCounts :
    Ready (ready bbP) ∧ Ready (ready ctlP) ∧ (ready ctlP).params.oSettle = true ∧ (4094#16).toNat + 1 < 4096 := by decide

theorem witness_LongEventCounts :
    Ready (ready bbP) ∧ (ready bbP).params.oSettle = true ∧ (ready bbP).params.hasArray = true ∧
      (255#16).toNat ≤ 255 ∧ (3841#16).toNat < 4096 ∧ (3841#16).toNat + (255#16).toNat ≤ 4096 := by decide

end Sys2Proof.Tests
end

/-! PROOFS. The statements of the encodings: which frames are wire commands, what the reserved codes answer, and the
erase of the whole store. -/

namespace Sys2Proof

/-! The wire decoder (30_encoding.md R101 to R104). -/

theorem decodeFrame_wren : decodeFrame [Config.opcWren] = .ok .wren := rfl

theorem decodeFrame_write (ah al : Byte) (ds : List Byte) :
    decodeFrame (Config.opcWrite :: ah :: al :: ds) = .ok (.write (joinHL ah al) ds) := rfl

theorem decodeFrame_read (ah al : Byte) (xs : List Byte) :
    decodeFrame (Config.opcRead :: ah :: al :: xs) = .ok (.read (joinHL ah al) xs) := rfl

/-- The frames the wire decoder accepts, and what each stands for. -/
theorem decodeFrame_ok_cases {bytes : List Byte} {i : Instr} (h : decodeFrame bytes = .ok i) :
    (bytes = [Config.opcWren] ∧ i = .wren) ∨
      (∃ ah al ds, bytes = Config.opcWrite :: ah :: al :: ds ∧ i = .write (joinHL ah al) ds) ∨
      ∃ ah al xs, bytes = Config.opcRead :: ah :: al :: xs ∧ i = .read (joinHL ah al) xs := by
  unfold decodeFrame at h
  split at h
  · cases h
  · split at h
    · rename_i ho
      split at h <;> cases h
      exact .inl ⟨by rw [ho], rfl⟩
    · split at h
      · rename_i ho
        split at h <;> cases h
        exact .inr (.inl ⟨_, _, _, by rw [ho], rfl⟩)
      · split at h
        · rename_i ho
          split at h <;> cases h
          exact .inr (.inr ⟨_, _, _, by rw [ho], rfl⟩)
        · cases h

end Sys2Proof

namespace Sys2Proof.Machine

open Sys2Proof

/-! The first check (60_exceptions.md R216). -/

/-- A code of 8 or more fails it in every state. -/
theorem startCheck_reserved (k : BitVec 3) (addr len : Half) (s : State) :
    startCheck (1#1 ++ k) addr len s = some .illegalOperation := by
  have h8 : 0x8#4 ≤ 1#1 ++ k := (reserved_code k).1
  unfold startCheck
  rw [if_pos (.inl h8)]

/-- An array code fails it on a machine without the array operations. -/
theorem startCheck_noArray {op : BitVec 4} {s : State} (addr len : Half) (hop : isArrayOp op = true)
    (hh : s.params.hasArray = false) : startCheck op addr len s = some .illegalOperation := by
  unfold startCheck
  rw [if_pos (.inr ⟨hop, hh⟩)]

/-! ERASE_ALL (43_erase_and_init.md R200). -/

/-- erase_all over the addresses 0 to `n`. The count `c` is a variable, so that nothing unfolds 4096 turns. -/
theorem eraseLoop_spec {s : State} {n c : Nat} (hc : n + 1 = c) (hle : c ≤ Config.capacity) (hL : Linked s)
    (hd : s.pins.dirCs = .output) (ho : s.pins.outCs = true) (hw : s.dev.wip = false) (hO : s.params.oSettle = true) :
    ∃ t fs, Runs (.reg .eraZero :: repeatSeq c (eraseTurn s.params) ++ [.ev (.rsp .zero)]) s (answered 0 t) ∧
      fs.reverse.map (fun f => f.out) = eraseOuts 0 c ∧
      visible t = visible (erased (BitVec.ofNat 16 n) (joinHL (hi8 s.regs.wdata) Config.eraseFill) (BitVec.ofNat 13 c) 0
        { s.dev with ee := zeroes s.dev.ee 0 c, wel := false, wip := false, pending := none, frame := none } fs
        (eraseTrace s.params 0 c) s) ∧
      Committed s t 0 (List.replicate c Config.eraseFill) := by
  subst hc
  obtain ⟨t, fs, run, outs, vis⟩ :=
    eraseTurns_spec n (s := applyUpd .eraZero s) (a := 0) hL hd ho hw hO rfl (by omega)
  have ht : t.sched = [] := (congrArg State.sched vis).trans hL.1
  refine ⟨t, fs, Runs.append (Runs.cons (Runs.reg .eraZero s) run) (rsp_spec (src := .zero) ht), outs, ?_,
    committed_zeroes (n + 1) (visible_dev vis)⟩
  have hera : (applyUpd .eraZero s).regs.era + BitVec.ofNat 13 (n + 1) = BitVec.ofNat 13 (n + 1) := BitVec.zero_add _
  rw [vis, hera, Nat.zero_add]
  rfl

/-- An accepted command that erased and answered: the latches, ADDR and WDATA as the loop left them, and the response
(10_state.md R30). -/
theorem erased_answered_visible {s t : State} {op : BitVec 4} {addr data len addr' wdata' : Half} {era : BitVec 13}
    {w : Nat} {d : Dev} {fs : List FrameRec} {tr : List Event} (ho : s.pins.outCs = true)
    (h : visible t = visible (erased addr' wdata' era w d fs tr (begun op addr data len s))) :
    visible ((answered 0 t).setSeq []) = visible { s with
      regs := { doneRegs s.regs op addr' wdata' len 0 with era := era, waitcnt := w }
      dev := ((answered 0 t).setSeq []).dev
      frames := fs ++ s.frames
      trace := opTrace op addr data len tr .ok 0 s.trace } := by
  have hdev : ((answered 0 t).setSeq []).dev = d := finish_dev h
  rw [hdev, finish_visible h, erased_high (s := begun op addr data len s) ho]
  rfl

/-- What a command did to the store, seen from before its latches to after its response. -/
theorem committed_answered {s t : State} {op : BitVec 4} {addr data len d : Half} {a : Nat} {ds : List Byte}
    (h : Committed (begun op addr data len s) t a ds) : Committed s ((answered d t).setSeq []) a ds := h

/-! The statements. -/

/-- Settles O3: the rows of the decoder in one direction, its inversion in the other. -/
theorem wireCommandSet : Obligations.WireCommandSet := by
  intro bytes
  constructor
  · rintro ⟨i, h⟩
    obtain ⟨rfl, -⟩ | ⟨ah, al, ds, rfl, -⟩ | ⟨ah, al, xs, rfl, -⟩ := decodeFrame_ok_cases h
    · exact .inl rfl
    · exact .inr ⟨_, ah, al, ds, .inl rfl, rfl⟩
    · exact .inr ⟨_, ah, al, xs, .inr rfl, rfl⟩
  · rintro (rfl | ⟨o, ah, al, ds, rfl | rfl, rfl⟩)
    · exact ⟨_, decodeFrame_wren⟩
    · exact ⟨_, decodeFrame_write ah al ds⟩
    · exact ⟨_, decodeFrame_read ah al ds⟩

/-- Settles O24: the sequence of erase_all from the state an accepted command leaves, its store read back cell by
cell. -/
theorem eraseAllCompletes : Obligations.EraseAllCompletes := by
  intro s addr data len hR hO
  obtain ⟨hL, hd, ho, hw, -⟩ := begun_facts 0x7#4 addr data len hR
  obtain ⟨hseq, hinit, -⟩ := hR
  obtain ⟨t, fs, run, outs, vis, stored⟩ :=
    eraseLoop_spec (n := 4095) (c := 4096) rfl (Nat.le_refl _) hL hd ho hw hO
  have hexec := runHost_runs (f := fun t => eraseAllSeq t.params) hseq (startCheck_erase hinit) run
  refine ⟨(answered 0 t).setSeq [], fs, (exec_eraseAll addr data len s).trans hexec, rfl, outs, ?_, ?_⟩
  · exact erased_answered_visible ho vis
  · exact committed_answered stored

/-- Settles O11: both kinds of code fail the first check, and a refused command does nothing else. -/
theorem reservedCodesAreIllegal : Obligations.ReservedCodesAreIllegal := by
  intro s addr data len hseq
  refine ⟨fun k => ?_, fun hh => ⟨?_, ?_⟩⟩
  · rw [exec_reservedHost]
    exact runHost_refused hseq (startCheck_reserved k addr len s)
  · rw [exec_readArray]
    exact runHost_refused hseq (startCheck_noArray addr len rfl hh)
  · rw [exec_writeArray]
    exact runHost_refused hseq (startCheck_noArray addr len rfl hh)

end Sys2Proof.Machine

/-! PROOFS. The encodings both ways: every instruction back from its image, every image back from what it decodes to. -/

namespace Sys2Proof

/-! Host words (30_encoding.md R111, R112, R116). -/

/-- The host operation of a code, with its fields. -/
def hostInstr (op : BitVec 4) (a d l : Half) : Instr :=
  match op.toNat with
  | 0 => .init a d l
  | 1 => .readByte a d l
  | 2 => .writeByte a d l
  | 3 => .readWord a d l
  | 4 => .writeWord a d l
  | 5 => .readArray a d l
  | 6 => .writeArray a d l
  | 7 => .eraseAll a d l
  | _ => .reservedHost (op.extractLsb' 0 3) a d l

/-- The host decoder is the choice by the code. -/
theorem decodeCmd_eq_hostInstr (w : BitVec 52) :
    decodeCmd w = hostInstr (cmdOp w) (cmdAddr w) (cmdData w) (cmdLen w) := rfl

theorem decode_packCmd (op : BitVec 4) (a d l : Half) :
    decode (.cmd (packCmd op a d l)) = .ok (hostInstr op a d l) := by
  show Except.ok (decodeCmd (packCmd op a d l)) = _
  rw [decodeCmd_eq_hostInstr, cmdOp_packCmd, cmdAddr_packCmd, cmdData_packCmd, cmdLen_packCmd]

/-- A code of 8 or more is a reserved one. -/
theorem hostInstr_reserved {op : BitVec 4} (a d l : Half) (h8 : 8 ≤ op.toNat) :
    hostInstr op a d l = .reservedHost (op.extractLsb' 0 3) a d l := by
  unfold hostInstr
  split
  case h_9 => rfl
  all_goals omega

/-- A code below 8 is one of eight. -/
theorem op_cases {op : BitVec 4} (h : op.toNat < 8) :
    op = 0x0#4 ∨ op = 0x1#4 ∨ op = 0x2#4 ∨ op = 0x3#4 ∨ op = 0x4#4 ∨ op = 0x5#4 ∨ op = 0x6#4 ∨ op = 0x7#4 := by
  revert op
  decide

/-- The host operation of a code carries that code and its fields. -/
theorem encode_hostInstr (op : BitVec 4) (a d l : Half) : encode (hostInstr op a d l) = .cmd (packCmd op a d l) := by
  by_cases h8 : 8 ≤ op.toNat
  · rw [hostInstr_reserved a d l h8, encode, reserved_op op h8]
  · obtain rfl | rfl | rfl | rfl | rfl | rfl | rfl | rfl := op_cases (Nat.lt_of_not_le h8) <;> rfl

/-! Transport words (30_encoding.md R114). -/

/-- The transport request of a code. -/
def microInstr (op : BitVec 2) (t : Half) : Instr :=
  match op.toNat with
  | 0 => .sendByte t
  | 1 => .sendWord t
  | 2 => .receiveByte t
  | _ => .reservedTransport t

/-- The transport decoder is the choice by the code. -/
theorem decodeMicro_eq_microInstr (w : BitVec 18) : decodeMicro w = microInstr (microOp w) (microData w) := rfl

theorem decode_packMicro (op : BitVec 2) (t : Half) :
    decode (.micro (packMicro op t)) = .ok (microInstr op t) := by
  show Except.ok (decodeMicro (packMicro op t)) = _
  rw [decodeMicro_eq_microInstr, microOp_packMicro, microData_packMicro]

theorem microOp_cases (op : BitVec 2) : op = 0#2 ∨ op = 1#2 ∨ op = 2#2 ∨ op = 3#2 := by
  revert op
  decide

/-- The transport request of a code carries that code and its data. -/
theorem encode_microInstr (op : BitVec 2) (t : Half) : encode (microInstr op t) = .micro (packMicro op t) := by
  obtain rfl | rfl | rfl | rfl := microOp_cases op <;> rfl

/-! Frames (30_encoding.md R102 to R104). -/

/-- A frame that decodes is the encoding of what it decodes to. -/
theorem encode_of_decodeFrame {bytes : List Byte} {i : Instr} (h : decodeFrame bytes = .ok i) :
    encode i = .frame bytes := by
  obtain ⟨rfl, rfl⟩ | ⟨ah, al, ds, rfl, rfl⟩ | ⟨ah, al, xs, rfl, rfl⟩ := decodeFrame_ok_cases h
  · rfl
  · simp only [encode, Machine.hi8_joinHL, Machine.lo8_joinHL]
  · simp only [encode, Machine.hi8_joinHL, Machine.lo8_joinHL]

/-! The statements. -/

/-- Settles O1: a frame by its first byte, a host word and a transport request by their codes. -/
theorem decodeOfEncode : Obligations.DecodeOfEncode := by
  intro i
  cases i with
  | wren => exact decodeFrame_wren
  | write addr data => rw [encode, decode, decodeFrame_write, Machine.joinHL_hi8_lo8]
  | read addr dummies => rw [encode, decode, decodeFrame_read, Machine.joinHL_hi8_lo8]
  | reservedHost k a d l =>
    obtain ⟨h8, hk⟩ := reserved_code k
    rw [encode, decode_packCmd, hostInstr_reserved a d l h8, hk]
  | init a d l => exact decode_packCmd 0x0#4 a d l
  | readByte a d l => exact decode_packCmd 0x1#4 a d l
  | writeByte a d l => exact decode_packCmd 0x2#4 a d l
  | readWord a d l => exact decode_packCmd 0x3#4 a d l
  | writeWord a d l => exact decode_packCmd 0x4#4 a d l
  | readArray a d l => exact decode_packCmd 0x5#4 a d l
  | writeArray a d l => exact decode_packCmd 0x6#4 a d l
  | eraseAll a d l => exact decode_packCmd 0x7#4 a d l
  | sendByte t => exact decode_packMicro 0#2 t
  | sendWord t => exact decode_packMicro 1#2 t
  | receiveByte t => exact decode_packMicro 2#2 t
  | reservedTransport t => exact decode_packMicro 3#2 t

/-- Settles O2: each of the three decoders is undone by the encoder. -/
theorem encodeOfDecode : Obligations.EncodeOfDecode := by
  intro im i h
  cases im with
  | cmd w =>
    cases h
    rw [decodeCmd_eq_hostInstr, encode_hostInstr, packCmd_fields]
  | micro w =>
    cases h
    rw [decodeMicro_eq_microInstr, encode_microInstr, packMicro_fields]
  | frame bytes => exact encode_of_decodeFrame h

/-- Settles O4: the decoders are run on the ten words. -/
theorem decodesWords : Obligations.DecodesWords := by
  unfold Obligations.DecodesWords
  decide

end Sys2Proof

namespace Sys2Proof.Machine

open Sys2Proof

/-! PROOFS. The rules of the whole machine: what every step keeps, the host's moves, the steps of an operation. -/

/-! An idle block takes the next request (10_state.md R30, R44). -/

/-- The request at the head of the inbox is served, on the state without it. -/
theorem step_serve {s : State} {r : Request} {rest : List Request} (hs : s.seq = []) (hi : s.inbox = r :: rest) :
    step s = serve r (s.setInbox rest) := by
  unfold step idleStep
  rw [busy_idle hs, hi]
  rfl

/-- An image that decodes is run. -/
theorem present_decoded {im : Image} {i : Instr} (s : State) (h : decode im = .ok i) : present im s = exec i s := by
  cases im with
  | cmd w => cases h; rfl
  | micro w => cases h; rfl
  | frame bytes =>
    have hb : decodeFrame bytes = .ok i := h
    simp only [present, hb]

/-- What is started comes, step by step, to what is run whole (10_state.md R29; log 11). -/
theorem steps_presentStart {im : Image} {s s0 : State} (h : step s0 = presentStart im s) :
    ∃ n, steps n s0 = present im s := by
  cases im with
  | cmd w => exact steps_start h
  | micro w => exact steps_start h
  | frame bytes => exact steps_one h

/-! What every step keeps (10_state.md section 6; 00_scope.md R6). -/

/-- Settles O49: every primitive keeps the invariant, and so does a reset. -/
theorem invariantKept : Obligations.InvariantKept := by
  intro s t hs hstep
  obtain h | ⟨-, rest, -, rfl⟩ := kept_inv.step keptWire_inv (fun _ _ => id) hstep
  · exact h hs
  · exact inv_blockReset (s := s.setInbox rest) hs

/-- Settles O50: no primitive writes the parameters, and a reset keeps them. -/
theorem parametersFixed : Obligations.ParametersFixed := by
  intro s t hstep
  obtain h | ⟨-, rest, -, rfl⟩ := kept_params.step keptWire_params (fun _ _ => rfl) hstep
  · exact h
  · rfl

/-- Settles O51: no primitive clears INITED, so a step that clears it is a reset. -/
theorem initedClearedOnlyByReset : Obligations.InitedClearedOnlyByReset := by
  intro s t hstep hi
  obtain h | ⟨hs, rest, hin, -⟩ := kept_inited.step keptWire_inited (fun _ _ => id) hstep
  · exact .inl (h hi)
  · exact .inr ⟨hs, rest, hin⟩

/-- The reset state meets the invariant: nothing is listed, nothing is open, nothing is pending. -/
theorem inv_resetWith (p : Params) : Inv (State.resetWith p) := by
  refine ⟨List.Pairwise.nil, ?_, List.Pairwise.nil, ?_, ?_, ?_, ?_, ?_, ?_⟩
  · intro c hc; cases hc
  · intro c hc; cases hc
  · show (none : Option Frame).isSome = true ↔ true = false; simp
  · show false = true ↔ (none : Option Pending).isSome = true; simp
  · intro hf; cases hf
  · intro p hp; cases hp
  · intro f hf; cases hf

/-- Settles O48. -/
theorem invariantAtReset : Obligations.InvariantAtReset := ⟨inv_resetWith _, inv_resetWith⟩

/-! Steps (10_state.md R29, R30). -/

/-- The step of a running operation whose next item is an event or a poll, T0 of an exit included. -/
theorem advance_oneEvent {s t : State} {m : Micro} {rest : List Micro} (hq : s.seq = m :: rest)
    (hm : ∀ u, m ≠ .reg u) (h : advance s = .next t) :
    (∃ e, t.trace = e :: s.trace) ∨
      (t.trace = s.trace ∧ t.seq = s.seq ∧
        ((m = .ev .wait ∧ s.params.oSettle = true) ∨ ∃ f, m = .poll f ∧ s.params.pollBudget = none)) ∨
      (t.trace = s.trace ∧ s.pins.outCs = true ∧ t.regs.status = 3 ∧
        ∃ f, m = .poll f ∧ s.params.pollBudget ≠ none) := by
  have hone := attempt_oneEvent s hm
  have hseq := kept_seq.attempt m s
  unfold advance at h
  simp only [hq] at h
  rcases ha : attempt m s with u | u | ⟨u, f⟩ | e
  · rw [ha] at h hone
    cases h
    obtain ⟨e, he⟩ := hone
    exact .inl ⟨e, by rw [toNextEvent_trace, he]⟩
  · rw [ha] at h hone hseq
    cases h
    obtain ⟨htr, hwhy⟩ := hone
    exact .inr (.inl ⟨htr, hseq, hwhy⟩)
  · rw [ha] at h hone
    obtain ⟨htr, hpins, hwhy⟩ := hone
    simp only [outcome, exitStart, exitDrive, State.setRegs_pins, hpins] at h
    split at h
    · cases h
    rename_i v hv
    split at hv
    · cases hv
    rename_i s' hd
    cases hv
    cases h
    split at hd
    · exact .inl ⟨_, (drivePin_trace hd).trans (congrArg _ htr)⟩
    · rename_i ho
      cases hd
      exact .inr (.inr ⟨htr, by simpa using ho, rfl, hwhy⟩)
  · rw [ha] at h
    cases h

/-- Settles O6: one attempt is one step; an instruction that is started and stepped is the instruction run whole. -/
theorem eventByEvent : Obligations.EventByEvent := by
  refine ⟨fun s t m rest hq hm hstep => ?_, fun s im rest hs hi => ?_⟩
  · rw [step_busy hq] at hstep
    exact advance_oneEvent hq hm hstep
  · have hwhole : step { s with inbox := .instr im :: rest } = present im (s.setInbox rest) :=
      step_serve (s := { s with inbox := .instr im :: rest }) hs rfl
    rw [hwhole]
    exact steps_presentStart (step_serve hs hi)

/-- Settles O7: the step of a busy block is `advance`, which does not read the inbox. -/
theorem hostHasNoMoveWhileBusy : Obligations.HostHasNoMoveWhileBusy := by
  intro s q hq
  obtain ⟨m, ms, hms⟩ := List.exists_cons_of_ne_nil hq
  rw [step_busy (s := s.setInbox q) hms, step_busy hms, advance_setInbox]
  rfl

/-- Settles O5. -/
theorem stepRunsDecodedInstruction : Obligations.StepRunsDecodedInstruction := by
  intro s im i rest hs hi hd
  rw [step_serve hs hi]
  exact present_decoded _ hd

/-- Settles O8: the reset state field by field, and the step of a reset request. -/
theorem resetValues : Obligations.ResetValues := by
  refine ⟨fun p => ⟨rfl, rfl, rfl, rfl, rfl, rfl, rfl, rfl, rfl, rfl⟩, fun s rest hs hi => ?_⟩
  exact ⟨blockReset (s.setInbox rest), step_serve hs hi,
    rfl, rfl, rfl, rfl, rfl, rfl, rfl, rfl, rfl, rfl, rfl, rfl, fun _ => rfl⟩

/-- Settles O9: a write of BUF, read back entry by entry. -/
theorem hostWritesBuffer : Obligations.HostWritesBuffer := by
  intro s i v rest hs hi
  refine ⟨bufWrite (s.setInbox rest) i v, step_serve hs hi, rfl, fun j => ?_⟩
  show Memory.read (Memory.write s.buf i.toNat v) j = _
  by_cases hj : j = i.toNat
  · rw [hj, Memory.read_write_same, if_pos rfl]
  · rw [Memory.read_write_other _ _ hj, if_neg hj]

/-- A Commit that is enabled and has data (20_memory.md R77, R79). -/
theorem commit_pending {d : Dev} {p : Pending} (hw : d.wip = true) (hp : d.pending = some p) :
    d.commit = { d with ee := Memory.writeList d.ee p.addr p.data, wel := false, wip := false, pending := none } := by
  unfold Dev.commit
  rw [if_pos hw, hp]

/-- Settles O10: the device's Commit, read back address by address. -/
theorem commitWritesPending : Obligations.CommitWritesPending := by
  intro s p rest hs hi hw hp
  refine ⟨commit (s.setInbox rest), step_serve hs hi, rfl, ?_⟩
  have hc := commit_pending hw hp
  show s.dev.commit.wel = false ∧ s.dev.commit.wip = false ∧ s.dev.commit.frame = s.dev.frame ∧
    s.dev.commit.line = s.dev.line ∧ ∀ a, s.dev.commit.read a = _
  rw [hc]
  exact ⟨rfl, rfl, rfl, rfl, fun a => Dev.read_writeList ..⟩

end Sys2Proof.Machine

/-! PROOFS. The checks at operation start (60_exceptions.md R216): the comparisons in natural numbers, and what a command
that fails one leaves. -/

namespace Sys2Proof.Machine

open Sys2Proof

theorem op_le_iff (op : BitVec 4) : 0x8#4 ≤ op ↔ 8 ≤ op.toNat := Iff.rfl

theorem isArrayOp_iff (op : BitVec 4) : isArrayOp op = true ↔ op.toNat = 5 ∨ op.toNat = 6 := by
  revert op
  decide

/-- The condition of InvalidAddress as R212 writes it. -/
theorem addressBad_iff (op : BitVec 4) (addr len : Half) :
    addressBad op addr len = true ↔
      ((op.toNat = 1 ∨ op.toNat = 2) ∧ 4096 ≤ addr.toNat) ∨
      ((op.toNat = 3 ∨ op.toNat = 4) ∧ 4096 ≤ addr.toNat + 1) ∨
      ((op.toNat = 5 ∨ op.toNat = 6) ∧ (4096 ≤ addr.toNat ∨ 4096 < addr.toNat + len.toNat)) := by
  have hone : (op = 0x1#4 ∨ op = 0x2#4) ↔ op.toNat = 1 ∨ op.toNat = 2 := by revert op; decide
  have htwo : (op = 0x3#4 ∨ op = 0x4#4) ↔ op.toNat = 3 ∨ op.toNat = 4 := by revert op; decide
  unfold addressBad
  simp only [hone, htwo, isArrayOp_iff, Config.capacity]
  split
  · simp only [decide_eq_true_eq]; omega
  · split
    · simp only [decide_eq_true_eq]; omega
    · split
      · simp only [decide_eq_true_eq]; omega
      · simp only [Bool.false_eq_true, false_iff]; omega

/-- The four checks in their order, each in natural numbers. -/
theorem startCheck_eq (op : BitVec 4) (addr len : Half) (s : State) :
    startCheck op addr len s =
      if 8 ≤ op.toNat ∨ ((op.toNat = 5 ∨ op.toNat = 6) ∧ s.params.hasArray = false) then some .illegalOperation
      else if op.toNat ≠ 0 ∧ s.regs.inited = false then some .notInitialised
      else if (op.toNat = 5 ∨ op.toNat = 6) ∧ 255 < len.toNat then some .invalidLength
      else if ((op.toNat = 1 ∨ op.toNat = 2) ∧ 4096 ≤ addr.toNat) ∨
          ((op.toNat = 3 ∨ op.toNat = 4) ∧ 4096 ≤ addr.toNat + 1) ∨
          ((op.toNat = 5 ∨ op.toNat = 6) ∧ (4096 ≤ addr.toNat ∨ 4096 < addr.toNat + len.toNat)) then
        some .invalidAddress
      else none := by
  have hzero : op ≠ 0x0#4 ↔ op.toNat ≠ 0 := by revert op; decide
  unfold startCheck
  simp only [op_le_iff, isArrayOp_iff, addressBad_iff, hzero, Config.lenMax]

/-- The second check. -/
theorem startCheck_notInitialised {op : BitVec 4} (addr len : Half) {s : State} (h8 : op.toNat < 8)
    (hop : op.toNat ≠ 0) (hi : s.regs.inited = false)
    (hh : op.toNat = 5 ∨ op.toNat = 6 → s.params.hasArray = true) :
    startCheck op addr len s = some .notInitialised := by
  rw [startCheck_eq, if_neg, if_pos ⟨hop, hi⟩]
  rintro (h | ⟨h, hno⟩)
  · omega
  · simp [hh h] at hno

/-- The first two checks are passed by an initialised machine that has the operation. -/
theorem startCheck_initialised {op : BitVec 4} (addr len : Half) {s : State} (h8 : op.toNat < 8)
    (hi : s.regs.inited = true) (hh : op.toNat = 5 ∨ op.toNat = 6 → s.params.hasArray = true) :
    startCheck op addr len s =
      if (op.toNat = 5 ∨ op.toNat = 6) ∧ 255 < len.toNat then some .invalidLength
      else if ((op.toNat = 1 ∨ op.toNat = 2) ∧ 4096 ≤ addr.toNat) ∨
          ((op.toNat = 3 ∨ op.toNat = 4) ∧ 4096 ≤ addr.toNat + 1) ∨
          ((op.toNat = 5 ∨ op.toNat = 6) ∧ (4096 ≤ addr.toNat ∨ 4096 < addr.toNat + len.toNat)) then
        some .invalidAddress
      else none := by
  rw [startCheck_eq, if_neg, if_neg]
  · simp [hi]
  · rintro (h | ⟨h, hno⟩)
    · omega
    · simp [hh h] at hno

/-- The third check. -/
theorem startCheck_invalidLength {op : BitVec 4} (addr : Half) {len : Half} {s : State}
    (hop : op.toNat = 5 ∨ op.toNat = 6) (hi : s.regs.inited = true) (hh : s.params.hasArray = true)
    (hl : 255 < len.toNat) : startCheck op addr len s = some .invalidLength := by
  rw [startCheck_initialised addr len (by omega) hi (fun _ => hh), if_pos ⟨hop, hl⟩]

/-- The fourth check. -/
theorem startCheck_invalidAddress {op : BitVec 4} {addr len : Half} {s : State} (h8 : op.toNat < 8)
    (hi : s.regs.inited = true)
    (hh : op.toNat = 5 ∨ op.toNat = 6 → s.params.hasArray = true ∧ len.toNat ≤ 255)
    (hbad : addressBad op addr len = true) : startCheck op addr len s = some .invalidAddress := by
  rw [startCheck_initialised addr len h8 hi (fun h => (hh h).1), if_neg, if_pos ((addressBad_iff ..).mp hbad)]
  rintro ⟨h, hl⟩
  have := (hh h).2
  omega

/-- A command word that a check refuses. -/
theorem exec_decodeCmd_refused {w : BitVec 52} {s : State} {st : Status} (hs : s.seq = [])
    (hc : startCheck (cmdOp w) (cmdAddr w) (cmdLen w) s = some st) :
    exec (decodeCmd w) s = .next (refusedWith st (cmdOp w) (cmdAddr w) (cmdData w) (cmdLen w) s) := by
  obtain ⟨f, hf⟩ := exec_decodeCmd w s
  rw [hf]
  exact runHost_refused hs hc

/-- A command word that passes the checks: OP and LEN are the word's, and STATUS is OK unless a poll timed out. -/
theorem exec_decodeCmd_latches {w : BitVec 52} {s t : State} (hs : s.seq = [])
    (hc : startCheck (cmdOp w) (cmdAddr w) (cmdLen w) s = none) (h : exec (decodeCmd w) s = .next t) :
    (t.regs.status = 0 ∨ t.regs.status = 3) ∧ t.regs.op = cmdOp w ∧ t.regs.len = lo8 (cmdLen w) := by
  obtain ⟨f, hf⟩ := exec_decodeCmd w s
  rw [hf, runHost_accepted hs hc] at h
  exact runOp_latches h

/-- Settles O12: each of the seven operations fails the second check. -/
theorem notInitialisedBeforeInit : Obligations.NotInitialisedBeforeInit := by
  intro s addr data len hs hi
  have hno : ∀ op : BitVec 4, op.toNat < 8 → op.toNat ≠ 0 →
      (op.toNat = 5 ∨ op.toNat = 6 → s.params.hasArray = true) → ∀ f,
      runHost op addr data len f s = .next (refusedWith .notInitialised op addr data len s) :=
    fun op h8 h0 hh f => runHost_refused hs (startCheck_notInitialised addr len h8 h0 hi hh)
  rw [exec_readByte, exec_writeByte, exec_readWord, exec_writeWord, exec_eraseAll, exec_readArray, exec_writeArray]
  refine ⟨?_, ?_, ?_, ?_, ?_, fun hh => ⟨?_, ?_⟩⟩
  iterate 5 exact hno _ (by decide) (by decide) (fun h => absurd h (by decide)) _
  · exact hno _ (by decide) (by decide) (fun _ => hh) _
  · exact hno _ (by decide) (by decide) (fun _ => hh) _

/-- Settles O13: both array operations fail the third check. -/
theorem longArraysAreInvalid : Obligations.LongArraysAreInvalid := by
  intro s addr data len hs hi hh hl
  rw [exec_readArray, exec_writeArray]
  exact ⟨runHost_refused hs (startCheck_invalidLength addr (.inl rfl) hi hh hl),
    runHost_refused hs (startCheck_invalidLength addr (.inr rfl) hi hh hl)⟩

/-- Settles O14: each operation with an address out of its range fails the fourth check. -/
theorem badAddressesAreInvalid : Obligations.BadAddressesAreInvalid := by
  intro s addr data len hs hi
  have hbad : ∀ op : BitVec 4, op.toNat < 8 →
      (op.toNat = 5 ∨ op.toNat = 6 → s.params.hasArray = true ∧ len.toNat ≤ 255) →
      addressBad op addr len = true → ∀ f,
      runHost op addr data len f s = .next (refusedWith .invalidAddress op addr data len s) :=
    fun op h8 hh hb f => runHost_refused hs (startCheck_invalidAddress h8 hi hh hb)
  rw [exec_readByte, exec_writeByte, exec_readWord, exec_writeWord, exec_readArray, exec_writeArray]
  refine ⟨fun ha => ⟨?_, ?_⟩, fun ha => ⟨?_, ?_⟩, fun hh hl ha => ⟨?_, ?_⟩⟩
  · exact hbad _ (by decide) (fun h => absurd h (by decide)) ((addressBad_iff ..).mpr (.inl ⟨.inl rfl, ha⟩)) _
  · exact hbad _ (by decide) (fun h => absurd h (by decide)) ((addressBad_iff ..).mpr (.inl ⟨.inr rfl, ha⟩)) _
  · exact hbad _ (by decide) (fun h => absurd h (by decide)) ((addressBad_iff ..).mpr (.inr (.inl ⟨.inl rfl, ha⟩))) _
  · exact hbad _ (by decide) (fun h => absurd h (by decide)) ((addressBad_iff ..).mpr (.inr (.inl ⟨.inr rfl, ha⟩))) _
  · exact hbad _ (by decide) (fun _ => ⟨hh, hl⟩) ((addressBad_iff ..).mpr (.inr (.inr ⟨.inl rfl, ha⟩))) _
  · exact hbad _ (by decide) (fun _ => ⟨hh, hl⟩) ((addressBad_iff ..).mpr (.inr (.inr ⟨.inr rfl, ha⟩))) _

/-- Settles O15: the statement's chain of conditions is the chain of the checks. -/
theorem checksInOrder : Obligations.ChecksInOrder := by
  intro s w hs
  have hc := startCheck_eq (cmdOp w) (cmdAddr w) (cmdLen w) s
  dsimp only
  split_ifs at hc ⊢
  · exact exec_decodeCmd_refused hs hc
  · exact exec_decodeCmd_refused hs hc
  · exact exec_decodeCmd_refused hs hc
  · exact exec_decodeCmd_refused hs hc
  · exact fun t ht => exec_decodeCmd_latches hs hc ht

end Sys2Proof.Machine

/-! PROOFS. The wire commands, and the frames that are none (20_memory.md section 5): which replies are free, what the
device does at the close, where an address out of range stops the frame. -/

namespace Sys2Proof.Machine

open Sys2Proof

/-! What is no READ has free replies, what is neither READ nor WRITE reaches no address (20_memory.md R71 to R74). -/

theorem replyFor_free {d : Dev} {b : List Byte} (h : ∀ ah al xs, b ≠ Config.opcRead :: ah :: al :: xs) (n : Nat) :
    replyFor d b n = .ok (Config.freeByte n, n + 1) := by
  unfold replyFor
  split
  · rename_i o ah al xs
    rw [if_neg]
    rintro ⟨rfl, -⟩
    exact h ah al xs rfl
  · rfl

theorem frameInRange_other {b : List Byte}
    (h : ∀ o ah al ds, b = o :: ah :: al :: ds → o ≠ Config.opcRead ∧ o ≠ Config.opcWrite) : frameInRange b = true := by
  unfold frameInRange
  split
  · rename_i o ah al ds
    obtain ⟨hr, hw⟩ := h o ah al ds rfl
    rw [if_neg hr, if_neg hw]
  · rfl

/-- A frame of three bytes or more that decodes to nothing opens with neither 02 nor 03 (30_encoding.md R118). -/
theorem opcode_of_undecoded {bytes : List Byte} (h : ∀ i, decodeFrame bytes ≠ .ok i) (o ah al : Byte) (ds : List Byte)
    (hb : bytes = o :: ah :: al :: ds) : o ≠ Config.opcRead ∧ o ≠ Config.opcWrite := by
  subst hb
  refine ⟨?_, ?_⟩
  · rintro rfl
    exact h _ (decodeFrame_read ah al ds)
  · rintro rfl
    exact h _ (decodeFrame_write ah al ds)

/-- The bytes taken so far of such a frame open with neither, too. -/
theorem opcode_of_take {bytes : List Byte}
    (h : ∀ o ah al ds, bytes = o :: ah :: al :: ds → o ≠ Config.opcRead ∧ o ≠ Config.opcWrite) (k : Nat)
    (o ah al : Byte) (ds : List Byte) (hb : bytes.take k = o :: ah :: al :: ds) :
    o ≠ Config.opcRead ∧ o ≠ Config.opcWrite := by
  refine h o ah al (ds ++ bytes.drop k) ?_
  calc bytes = bytes.take k ++ bytes.drop k := (List.take_append_drop k bytes).symm
    _ = o :: ah :: al :: (ds ++ bytes.drop k) := by rw [hb]; rfl

/-! The close of a frame (20_memory.md R71, R72, R74). -/

/-- A WRITE with data that finds the latch clear is ignored. -/
theorem act_write_unlatched (ah al : Byte) (ds : List Byte) (d : Dev) (n : Nat) (hp : d.line.present = true)
    (hds : ds ≠ []) (hw : d.wel = false) : Dev.act (Config.opcWrite :: ah :: al :: ds) d n = (d, n) := by
  obtain ⟨v, vs, rfl⟩ := List.exists_cons_of_ne_nil hds
  simp [act_present _ _ hp, Dev.obey, hw]

/-- A frame that decodes to nothing is ignored. -/
theorem act_undecoded {bytes : List Byte} (h : ∀ i, decodeFrame bytes ≠ .ok i) (d : Dev) (n : Nat)
    (hp : d.line.present = true) : Dev.act bytes d n = (d, n) := by
  rw [act_present _ _ hp]
  unfold Dev.obey
  split
  · rename_i o
    rw [if_neg]
    rintro rfl
    exact h _ decodeFrame_wren
  · rename_i o ah al
    rw [if_neg (opcode_of_undecoded h o ah al [] rfl).2]
  · rename_i o ah al v vs
    rw [if_neg]
    rintro ⟨ho, -⟩
    exact (opcode_of_undecoded h o ah al (v :: vs) rfl).2 ho
  · rfl

/-! Frames that go through. -/

/-- The bytes of a frame that reaches no address. -/
theorem frame_other_ok {d : Dev} {n : Nat} {bytes : List Byte} (hl : d.line = Line.sound)
    (h : ∀ o ah al ds, bytes = o :: ah :: al :: ds → o ≠ Config.opcRead ∧ o ≠ Config.opcWrite) :
    ∃ rs r, rs.length = bytes.length ∧ Dev.exchangeAll false bytes { d with frame := some Frame.empty } n =
      .ok ({ d with frame := some ⟨bytes, rs, 0, 0, r, []⟩ }, n + bytes.length) := by
  obtain ⟨rs, r, hrs, hx⟩ := exchangeAll_free bytes (d := { d with frame := some Frame.empty }) (n := n) (b := [])
    (rs := []) (rv := []) (r0 := 0) hl rfl
    (fun k _ m => replyFor_free (fun ah al xs hb => (opcode_of_take h k _ ah al xs hb).1 rfl) m)
    (fun k _ => frameInRange_other (opcode_of_take h (k + 1)))
  rw [List.nil_append, List.nil_append] at hx
  exact ⟨rs, r, hrs, hx⟩

/-- A frame without a kept part, from its bytes on the wire to what the device does with it. -/
theorem runFrame_bytes {s : State} {bytes rs : List Byte} {r : Byte} {n n' : Nat} {d : Dev} (hb : BusIdle s)
    (hw : s.dev.wip = false)
    (hx : Dev.exchangeAll false bytes { s.dev with frame := some Frame.empty } s.draws =
      .ok ({ s.dev with frame := some ⟨bytes, rs, 0, 0, r, []⟩ }, n))
    (ha : Dev.act bytes s.dev n = (d, n')) :
    runFrame bytes [] s = .next { s with dev := d, draws := n', frames := ⟨bytes, rs, []⟩ :: s.frames } :=
  runFrame_spec hb hw hx rfl ha

theorem present_busIdle {s : State} (hb : BusIdle s) : s.dev.line.present = true := by
  obtain ⟨-, -, -, hl⟩ := hb
  rw [hl]
  rfl

/-- Settles O26: the frame `[06]` on the wire, and the latch at its close. -/
theorem wrenSetsLatch : Obligations.WrenSetsLatch := by
  intro s hb hw
  obtain ⟨rs, r, hrs, hx⟩ := frame_other_ok (d := s.dev) (n := s.draws) (bytes := [Config.opcWren]) hb.2.2.2
    (by intro o ah al ds h; simp at h)
  obtain ⟨r', rfl⟩ := List.length_eq_one_iff.mp hrs
  exact ⟨r', runFrame_bytes hb hw hx (act_wren _ (present_busIdle hb))⟩

theorem addr_lt_of_data {addr : Half} {ds : List Byte} (hds : ds ≠ []) (h : addr.toNat + ds.length ≤ 4096) :
    addr.toNat < 4096 := by
  have := List.length_pos_iff.mpr hds
  omega

/-- Settles O27: the frame on the wire, and the write cycle at its close. -/
theorem writeStartsCycle : Obligations.WriteStartsCycle := by
  intro s addr ds hb hw hwel hds hlen
  obtain ⟨rs, r, n, hx⟩ := frame_write_ok (d := s.dev) (n := s.draws) addr ds hb.2.2.2 (addr_lt_of_data hds hlen) hlen
  have hact := act_write (hi8 addr) (lo8 addr) ds s.dev n (present_busIdle hb) hds hwel
  rw [frameAddr_hi8_lo8] at hact
  exact ⟨rs, n, runFrame_bytes hb hw hx hact⟩

/-- Settles O28: the frame on the wire, ignored at its close. -/
theorem writeIgnoredWithoutLatch : Obligations.WriteIgnoredWithoutLatch := by
  intro s addr ds hb hw hwel hds hlen
  obtain ⟨rs, r, n, hx⟩ := frame_write_ok (d := s.dev) (n := s.draws) addr ds hb.2.2.2 (addr_lt_of_data hds hlen) hlen
  exact ⟨rs, n, runFrame_bytes hb hw hx (act_write_unlatched _ _ _ _ _ (present_busIdle hb) hds hwel)⟩

/-- Settles O29: the frame on the wire, the latch open after its close. -/
theorem writeOfNothing : Obligations.WriteOfNothing := by
  intro s addr hb hw ha
  obtain ⟨rs, r, n, hx⟩ := frame_write_ok (d := s.dev) (n := s.draws) addr [] hb.2.2.2 ha (Nat.le_of_lt ha)
  exact ⟨rs, n + 1, Config.freeBit n, runFrame_bytes hb hw hx (act_write_empty _ _ _ _ (present_busIdle hb))⟩

/-- Settles O30: the header, the data phase, and nothing done at the close. -/
theorem readGivesStore : Obligations.ReadGivesStore := by
  intro s addr xs hb hw ha hlen
  obtain ⟨r0, r1, r2, r, hx⟩ := frame_read_header (d := s.dev) (n := s.draws) addr hb.2.2.2 ha
  obtain ⟨r', hy⟩ := frame_read_data (d := s.dev) (n := s.draws + 3) (r := r) (rs := [r0, r1, r2]) addr xs hb.2.2.2 ha
    hlen
  refine ⟨r0, r1, r2, s.draws + 3, ?_⟩
  rw [eeBytes_dev]
  exact runFrame_spec hb hw hx hy (act_read _ _ _)

/-- A frame that decodes to nothing is applied to the device all the same (20_memory.md R74). -/
theorem present_undecoded {bytes : List Byte} (h : ∀ i, decodeFrame bytes ≠ .ok i) (s : State) :
    present (.frame bytes) s = runFrame bytes [] s := by
  rcases hd : decodeFrame bytes with e | i
  · simp only [present, hd]
    rfl
  · exact absurd hd (h i)

/-- Settles O31: no byte of the frame reaches an address, and the device does nothing at its close. -/
theorem otherFramesIgnored : Obligations.OtherFramesIgnored := by
  intro s bytes rest hb hw hi hno
  obtain ⟨rs, r, -, hx⟩ := frame_other_ok (d := s.dev) (n := s.draws) hb.2.2.2 (opcode_of_undecoded hno)
  refine ⟨rs, s.draws + bytes.length, ?_⟩
  rw [step_serve hb.1 hi]
  refine (present_undecoded hno _).trans ?_
  exact runFrame_bytes (s := s.setInbox rest) hb hw hx (act_undecoded hno _ _ (present_busIdle hb))

/-! Frames that stop (20_memory.md R61, R72, R73). -/

/-- A byte that faults stops the bytes after it. -/
theorem exchangeAll_fault {keep : Bool} {us vs : List Byte} {v : Byte} {d d1 : Dev} {n n1 : Nat} {e : Fault}
    (hu : Dev.exchangeAll keep us d n = .ok (d1, n1)) (hv : d1.exchange v n1 = .error e) :
    Dev.exchangeAll keep (us ++ v :: vs) d n = .error e := by
  rw [exchangeAll_append, hu]
  simp only [Dev.exchangeAll, hv]

/-- The address byte that gives an address of 4096 or more. -/
theorem frame_addr_range {d : Dev} {n : Nat} {o : Byte} (addr : Half) (ds : List Byte) (hl : d.line = Line.sound)
    (ho : o = Config.opcRead ∨ o = Config.opcWrite) (ha : 4096 ≤ addr.toNat) :
    Dev.exchangeAll false (o :: hi8 addr :: lo8 addr :: ds) { d with frame := some Frame.empty } n =
      .error .deviceAddressRange := by
  obtain ⟨rs, r, -, hx⟩ := frame_other_ok (d := d) (n := n) (bytes := [o, hi8 addr]) hl
    (by intro o ah al ds h; simp at h)
  have hout : frameInRange [o, hi8 addr, lo8 addr] = false := by
    have hno : ¬ addr.toNat < 4096 := by omega
    obtain rfl | rfl := ho
    · simp [frameInRange, hno]
    · simp [frameInRange, Config.opcWrite, Config.opcRead, hno]
  exact exchangeAll_fault (us := [o, hi8 addr]) hx
    (exchange_range (lo8 addr) _ _ _ [o, hi8 addr] rs 0 r _ hl rfl (replyFor_short _ _ _ (by simp)) hout)

/-- A list longer than `k` is `k` items, one more, and the rest. -/
theorem split_at {α : Type} {l : List α} {k : Nat} (h : k < l.length) : ∃ us v vs, l = us ++ v :: vs ∧ us.length = k :=
  ⟨l.take k, l[k], l.drop (k + 1), by rw [List.cons_getElem_drop_succ, List.take_append_drop], by simp; omega⟩

/-- The data byte of a WRITE that reaches address 4096. -/
theorem frame_write_range {d : Dev} {n : Nat} (addr : Half) (ds : List Byte) (hl : d.line = Line.sound)
    (ha : addr.toNat < 4096) (hlen : 4096 < addr.toNat + ds.length) :
    Dev.exchangeAll false (Config.opcWrite :: hi8 addr :: lo8 addr :: ds) { d with frame := some Frame.empty } n =
      .error .deviceAddressRange := by
  obtain ⟨us, v, vs, rfl, hk⟩ := split_at (l := ds) (k := 4096 - addr.toNat) (by omega)
  obtain ⟨rs, r, n', hx⟩ := frame_write_ok (d := d) (n := n) addr us hl ha (by omega)
  have hout : frameInRange (Config.opcWrite :: hi8 addr :: lo8 addr :: (us ++ [v])) = false := by
    have hno : ¬ addr.toNat + (us.length + 1) ≤ 4096 := by omega
    simp [frameInRange, Config.opcWrite, Config.opcRead, hno]
  exact exchangeAll_fault (us := Config.opcWrite :: hi8 addr :: lo8 addr :: us) hx
    (exchange_range v _ _ _ _ rs 0 r _ hl rfl (replyFor_write _ _ _ _ _) hout)

/-- The dummy of a READ whose reply would be the byte at address 4096. -/
theorem frame_read_range {d : Dev} {n : Nat} {r : Byte} {rs : List Byte} (addr : Half) (xs : List Byte)
    (hl : d.line = Line.sound) (ha : addr.toNat < 4096) (hlen : 4096 < addr.toNat + xs.length) :
    Dev.exchangeAll true xs { d with frame := some ⟨[Config.opcRead, hi8 addr, lo8 addr], rs, 0, 0, r, []⟩ } n =
      .error .deviceAddressRange := by
  obtain ⟨us, v, vs, rfl, hk⟩ := split_at (l := xs) (k := 4096 - addr.toNat) (by omega)
  obtain ⟨r', hx⟩ := frame_read_data (d := d) (n := n) (r := r) (rs := rs) addr us hl ha (by omega)
  have hno : ¬ addr.toNat + us.length < 4096 := by omega
  exact exchangeAll_fault hx
    (exchange_reply v _ _ (Config.opcRead :: hi8 addr :: lo8 addr :: us) _ 0 r' _ hl rfl
      (by simp [replyFor, hl, Line.sound, hno]))

/-- Settles O32: the byte at which each frame stops; chip-select's fall stops it during a write cycle. -/
theorem deviceFaults : Obligations.DeviceFaults := by
  intro s addr ds hb
  have hl := hb.2.2.2
  refine ⟨fun hw hout => ?_, fun hw => ⟨runFrame_busy hb hw, runFrame_busy hb hw, runFrame_busy hb hw⟩⟩
  by_cases ha : addr.toNat < 4096
  · have hlen : 4096 < addr.toNat + ds.length := by omega
    obtain ⟨r0, r1, r2, r, hx⟩ := frame_read_header (d := s.dev) (n := s.draws) addr hl ha
    exact ⟨runFrame_fault hb hw (frame_write_range addr ds hl ha hlen),
      runFrame_fault_data hb hw hx (frame_read_range addr ds hl ha hlen)⟩
  · have ha' : 4096 ≤ addr.toNat := by omega
    exact ⟨runFrame_fault hb hw (frame_addr_range addr ds hl (.inr rfl) ha'),
      runFrame_fault hb hw (frame_addr_range addr [] hl (.inl rfl) ha')⟩

/-- Settles O58: WREN sets the latch, the first WRITE uses it, Commit writes and clears it, the second WRITE finds it
clear. -/
theorem oneEnableOneWrite : Obligations.OneEnableOneWrite := by
  intro s a b v w ds es hb hw ha hbr
  obtain ⟨hs, ho, hf, hl⟩ := hb
  obtain ⟨r, hwren⟩ := wrenSetsLatch s ⟨hs, ho, hf, hl⟩ hw
  generalize hs1 : ({ s with
    dev := { s.dev with wel := true }
    draws := s.draws + 1
    frames := ⟨[0x06#8], [r], []⟩ :: s.frames } : State) = s1 at hwren
  obtain ⟨rs, n, hwrite⟩ := writeStartsCycle s1 a (v :: ds) (by subst hs1; exact ⟨hs, ho, hf, hl⟩)
    (by subst hs1; exact hw) (by subst hs1; rfl) (List.cons_ne_nil _ _) ha
  generalize hs2 : ({ s1 with
    dev := { s1.dev with wip := true, pending := some { addr := a.toNat, data := v :: ds } }
    draws := n
    frames := ⟨0x02#8 :: hi8 a :: lo8 a :: v :: ds, rs, []⟩ :: s1.frames } : State) = s2 at hwrite
  have hc : (commit s2).dev = { s2.dev with
      ee := Memory.writeList s2.dev.ee a.toNat (v :: ds), wel := false, wip := false, pending := none } :=
    commit_pending (p := ⟨a.toNat, v :: ds⟩) (by subst hs2; rfl) (by subst hs2; rfl)
  obtain ⟨qs, m, hignored⟩ := writeIgnoredWithoutLatch (commit s2) b (w :: es)
    (by subst hs2 hs1; exact ⟨hs, ho, by rw [hc]; exact hf, by rw [hc]; exact hl⟩)
    (by rw [hc]) (by rw [hc]) (List.cons_ne_nil _ _) hbr
  refine ⟨s1, s2, _, hwren, hwrite, hignored, congrArg Dev.wip hc, congrArg Dev.wel hc, fun x => ?_⟩
  show (commit s2).dev.read x = _
  rw [hc, Dev.read_writeList]
  subst hs2 hs1
  rfl

end Sys2Proof.Machine

/-! PROOFS. The transport micro-operations requested alone (40_transport.md): one byte sent or received in each mode, with
and without an open frame. -/

namespace Sys2Proof.Machine

open Sys2Proof

/-- A request that runs to its end on an idle block, the state it ends in written with SEQ idle. -/
theorem runTransport_next {ms : List Micro} {s t : State} (hs : s.seq = []) (h : Runs ms s t) (ht : t.seq = []) :
    runTransport ms s = .next t := by
  rw [runTransport_runs hs h, ← ht]
  rfl

/-- A request and what follows it. -/
theorem Runs.requested {ms : List Micro} {s t : State} {op : BitVec 2} {src : Src}
    (h : Runs ms (applyUpd (.request op src) s) t) : Runs (.reg (.request op src) :: ms) s t :=
  Runs.cons (Runs.request op src s) h

theorem reqByte_request_lo (op : BitVec 2) (w : Half) (s : State) :
    reqByte .lo (applyUpd (.request op (.const w)) s) = lo8 w := by
  simp [reqByte, applyUpd, srcValue]

theorem pollLeft_eq (s : State) : pollLeft s = (s.params.pollBudget).getD s.regs.pollcnt := by
  unfold pollLeft
  rcases s.params.pollBudget with _ | n <;> rfl

/-! SEND_BYTE and SEND_WORD. -/

/-- Bit 0 of the low byte is the last bit sent. -/
theorem lo8_bit0 (w : Half) : (lo8 w).getLsbD 0 = w.getLsbD 0 := by
  rw [getLsbD_lo8]
  rfl

/-- Settles O33: the request, then the 24 events, with and without a frame. -/
theorem sendByteBitbang : Obligations.SendByteBitbang := by
  intro s tdata hs hL hm
  have htr : sendTrace s.params (lo8 tdata) =
      byBit (lo8 tdata) (fun b => [.drive .mosi b, .drive .sck true, .drive .sck false]) := by simp [sendTrace, hm]
  rw [exec_sendByte, ← htr, ← lo8_bit0]
  refine ⟨fun b rs r0 rv r n hf hr hg => ?_, fun hf => ?_⟩
  · exact runTransport_next hs (Runs.requested (send_bitbang (s := applyUpd (.request 0#2 (.const tdata)) s) (sel := .lo)
      hm hL (reqByte_request_lo _ _ _) hf hr hg)) hs
  · exact runTransport_next hs (Runs.requested (send_bitbang_unframed (s := applyUpd (.request 0#2 (.const tdata)) s)
      (sel := .lo) hm hL (reqByte_request_lo _ _ _) hf)) hs

/-- SEND_BYTE in controller mode, whatever the exchange gives. -/
theorem exec_sendByte_controller {s : State} {tdata : Half} {r : Byte} {d : Dev} {n : Nat} (hs : s.seq = [])
    (hL : Linked s) (hm : s.params.mode = .controller)
    (hx : s.dev.exchange (lo8 tdata) s.draws = .ok (r, d, n)) :
    exec (.sendByte tdata) s = .next { s with
      regs := { s.regs with treq := packMicro 0#2 tdata, pollcnt := (s.params.pollBudget).getD s.regs.pollcnt }
      ctl := { s.ctl with txbuf := lo8 tdata, rxbuf := r, rxrdy := true, txrdy := true }
      dev := d
      draws := n
      trace := .regWrite (lo8 tdata) :: .poll .txrdy :: s.trace } := by
  have htr : (sendTrace s.params (lo8 tdata)).reverse ++ s.trace = .regWrite (lo8 tdata) :: .poll .txrdy :: s.trace := by
    simp [sendTrace, hm]
  rw [exec_sendByte, ← htr, ← pollLeft_eq]
  exact runTransport_next hs (Runs.requested (send_controller (s := applyUpd (.request 0#2 (.const tdata)) s) (sel := .lo)
    hm hL (reqByte_request_lo _ _ _) hx)) hs

/-- Settles O34: the exchange of the open frame, or the one nobody takes part in. -/
theorem sendByteController : Obligations.SendByteController := by
  intro s tdata hs hL hm
  refine ⟨fun b rs r0 rv r n hf hr hg => ?_, fun hf => ?_⟩
  · exact exec_sendByte_controller hs hL hm (exchange_spec _ s.dev s.draws n b rs 0 r0 r hL.2.2.2 hf hr hg)
  · obtain ⟨r, n, hx⟩ := exchange_no_frame (lo8 tdata) s.dev s.draws hf
    exact ⟨r, n, exec_sendByte_controller hs hL hm hx⟩

/-- Settles O35: send_word as the Command Framer calls it, with and without a frame. -/
theorem sendWordSendsTwoBytes : Obligations.SendWordSendsTwoBytes := by
  intro s tdata hs hL
  rw [exec_sendWord]
  refine ⟨fun b rs r0 rv r n r' n' hf hr hg hr' hg' => ?_, fun hf => ?_⟩
  · obtain ⟨t, run, vis, -, -, hq⟩ := callSendWord_spec (src := .const tdata) hL rfl hf hr hg hr' hg'
    exact ⟨t.setSeq [], runTransport_runs hs run, rfl, hq, vis⟩
  · obtain ⟨t, run, vis, hq⟩ := callSendWord_unframed (src := .const tdata) hL rfl hf
    exact ⟨t.setSeq [], runTransport_runs hs run, rfl, hq, vis⟩

/-! RECEIVE_BYTE. -/

/-- RECEIVE_BYTE in bit-bang mode, whatever the exchange of eight copies of the data-out level gives. -/
theorem exec_receiveByte_bitbang {s : State} (tdata : Half) {r : Byte} {d : Dev} {n : Nat} (hs : s.seq = [])
    (hW : Wired s) (hm : s.params.mode = .bitbang)
    (hx : s.dev.exchange (if s.pins.outMosi then 0xFF#8 else 0x00#8) s.draws = .ok (r, d, n)) :
    exec (.receiveByte tdata) s = .next { s with
      regs := { s.regs with treq := packMicro 2#2 tdata, tret := r, rxacc := r, bitcnt := 8 }
      pins := { s.pins with outSck := false }
      dev := d.note r
      draws := n
      trace := (recvTrace s.params r).reverse ++ s.trace } := by
  rw [exec_receiveByte]
  exact runTransport_next hs (Runs.requested (recv_exchange (s := applyUpd (.request 2#2 (.const tdata)) s) hm hW hx)) hs

/-- RECEIVE_BYTE in controller mode, whatever the exchange of the dummy gives. -/
theorem exec_receiveByte_controller {s : State} (tdata : Half) {r : Byte} {d : Dev} {n : Nat} (hs : s.seq = [])
    (hW : Wired s) (hm : s.params.mode = .controller) (hx : s.dev.exchange Config.dummy s.draws = .ok (r, d, n)) :
    exec (.receiveByte tdata) s = .next { s with
      regs := { s.regs with
        treq := packMicro 2#2 tdata, tret := r, pollcnt := (s.params.pollBudget).getD s.regs.pollcnt }
      ctl := { s.ctl with txbuf := 0xFF#8, rxbuf := r, rxrdy := false, txrdy := true }
      dev := d.note r
      draws := n
      trace := .regRead r :: .poll .rxrdy :: .regWrite 0xFF#8 :: s.trace } := by
  have htr : (recvTrace s.params r).reverse ++ s.trace = .regRead r :: .poll .rxrdy :: .regWrite 0xFF#8 :: s.trace := by
    simp [recvTrace, hm]
  rw [exec_receiveByte, ← htr, ← pollLeft_eq]
  exact runTransport_next hs (Runs.requested (recv_controller (s := applyUpd (.request 2#2 (.const tdata)) s) hm hW hx)) hs

/-- Settles O36: the exchange on a sound line and on a stuck one, with and without a frame. -/
theorem receiveByteBitbang : Obligations.ReceiveByteBitbang := by
  intro s tdata hs hW hm
  refine ⟨fun hl => ⟨fun b rs r0 rv r n hf hr hg => ?_, fun hf => ?_⟩,
    fun pr w x hl hxw => ⟨fun b rs r0 rv r n hf hr hg => ?_, fun hf => ?_⟩⟩
  · exact exec_receiveByte_bitbang tdata hs hW hm (exchange_spec _ s.dev s.draws n b rs 0 r0 r hl hf hr hg)
  · obtain ⟨r, n, hx⟩ := exchange_no_frame (if s.pins.outMosi then 0xFF#8 else 0x00#8) s.dev s.draws hf
    have hrun := exec_receiveByte_bitbang tdata hs hW hm hx
    rw [note_no_frame r s.dev hf] at hrun
    exact ⟨r, n, hrun⟩
  · obtain ⟨m, hx⟩ := exchange_stuck _ s.dev w s.draws n b rs 0 r0 r (by rw [hl]) (by rw [hl]) hf hr hg
    rw [← hxw] at hx
    exact ⟨m, exec_receiveByte_bitbang tdata hs hW hm hx⟩
  · obtain ⟨m, hx⟩ := exchange_stuck_no_frame (if s.pins.outMosi then 0xFF#8 else 0x00#8) s.dev w s.draws (by rw [hl]) hf
    rw [← hxw] at hx
    have hrun := exec_receiveByte_bitbang tdata hs hW hm hx
    rw [note_no_frame x s.dev hf] at hrun
    exact ⟨m, hrun⟩

/-- Settles O37: the same four exchanges, of the dummy. -/
theorem receiveByteController : Obligations.ReceiveByteController := by
  intro s tdata hs hW hm
  refine ⟨fun hl => ⟨fun b rs r0 rv r n hf hr hg => ?_, fun hf => ?_⟩,
    fun pr w x hl hxw => ⟨fun b rs r0 rv r n hf hr hg => ?_, fun hf => ?_⟩⟩
  · exact exec_receiveByte_controller tdata hs hW hm (exchange_spec _ s.dev s.draws n b rs 0 r0 r hl hf hr hg)
  · obtain ⟨r, n, hx⟩ := exchange_no_frame Config.dummy s.dev s.draws hf
    have hrun := exec_receiveByte_controller tdata hs hW hm hx
    rw [note_no_frame r s.dev hf] at hrun
    exact ⟨r, n, hrun⟩
  · obtain ⟨m, hx⟩ := exchange_stuck Config.dummy s.dev w s.draws n b rs 0 r0 r (by rw [hl]) (by rw [hl]) hf hr hg
    rw [← hxw] at hx
    exact ⟨m, exec_receiveByte_controller tdata hs hW hm hx⟩
  · obtain ⟨m, hx⟩ := exchange_stuck_no_frame Config.dummy s.dev w s.draws (by rw [hl]) hf
    rw [← hxw] at hx
    have hrun := exec_receiveByte_controller tdata hs hW hm hx
    rw [note_no_frame x s.dev hf] at hrun
    exact ⟨m, hrun⟩

/-- Settles O38: the decoder gives the reserved code, and the code has no meaning. -/
theorem transportCode3Refused : Obligations.TransportCode3Refused := by
  intro s tdata
  exact ⟨decode_packMicro 3#2 tdata, rfl⟩

/-! PROOFS. The asynchronous controller (40_transport.md R152 to R154): its exchange as moves of its own and while a poll
waits for it, and its hazards. -/

theorem isAsync_of {s : State} (hm : s.params.mode = .controller) (ha : s.params.ctrlAtomic = false) :
    isAsync s = true := by
  simp [isAsync, hm, ha]

/-- TXBUF's byte is exchanged: Load, eight Shifts and Done later. -/
def exchanged (r : Byte) (d : Dev) (n : Nat) (s : State) : State :=
  { s with
    dev := d
    draws := n
    ctl := { s.ctl with
      txfull := false, srBusy := false, srOut := 0, srIn := r, srCnt := 8, rxbuf := r, rxrdy := true } }

/-- TXBUF's byte is in the shift register. -/
def loaded (s : State) : State :=
  { s with ctl := { s.ctl with srOut := s.ctl.txbuf, txfull := false, srBusy := true, srCnt := 0 } }

theorem ctlStep_loaded {s : State} (hx : isAsync s = true) (hl : s.ctl.live = true) (hf : s.ctl.txfull = true)
    (hb : s.ctl.srBusy = false) : ctlStep s = .ok (loaded s) := ctlStep_load hx hl hb hf

/-- Done after the eight Shifts of a byte that was loaded. -/
theorem ctlStep_exchanged {s : State} (r : Byte) (d : Dev) (n : Nat) (hx : isAsync s = true) (hl : s.ctl.live = true) :
    ctlStep (shifted 8 r d n (loaded s)) = .ok (exchanged r d n s) := by
  rw [ctlStep_done (s := shifted 8 r d n (loaded s)) hx hl rfl rfl]
  simp only [shifted, loaded, exchanged, shiftOut_iterate]
  rfl

/-- The ten moves of an exchange, made by the controller on its own. -/
theorem envActs_exchanged {s : State} {r : Byte} {d : Dev} {n : Nat} (hx : isAsync s = true) (hl : s.ctl.live = true)
    (hf : s.ctl.txfull = true) (hb : s.ctl.srBusy = false) (h : s.dev.exchange s.ctl.txbuf s.draws = .ok (r, d, n)) :
    envActs (List.replicate 10 .controller) s = .ok (exchanged r d n s) := by
  have hsplit : List.replicate 10 EnvAct.controller = .controller :: (List.replicate 8 .controller ++ [.controller]) := rfl
  rw [hsplit, envActs_ctl (ctlStep_loaded hx hl hf hb)]
  rw [envActs_shifts 8 [.controller] (s := loaded s) hx hl rfl (Nat.le_refl 8) (exchange_acc h _)]
  rw [envActs_ctl (ctlStep_exchanged r d n hx hl)]
  rfl

/-- The same ten moves while a poll for RXRDY without a budget waits for them. -/
theorem attempts_exchanged {s : State} {r : Byte} {d : Dev} {n : Nat} (j : Nat) (hx : isAsync s = true)
    (hl : s.ctl.live = true) (hf : s.ctl.txfull = true) (hb : s.ctl.srBusy = false) (hr : s.ctl.rxrdy = false)
    (hs : s.sched = []) (hp : s.params.pollBudget = none)
    (h : s.dev.exchange s.ctl.txbuf s.draws = .ok (r, d, n)) :
    attempts (1 + (8 + (1 + j))) (.poll .rxrdy) s = attempts j (.poll .rxrdy) (exchanged r d n s) := by
  rw [Nat.add_comm 1, attempts_ctl _ hs hp (flag_rxrdy_async hx hr) (ctlStep_loaded hx hl hf hb)]
  rw [attempts_shifts 8 (1 + j) (s := loaded s) hx hl rfl (Nat.le_refl 8) (exchange_acc h _) hs hp hr]
  rw [Nat.add_comm 1, attempts_ctl (s := shifted 8 r d n (loaded s)) _ hs hp (flag_rxrdy_async hx hr)
    (ctlStep_exchanged r d n hx hl)]

/-- A poll for RXRDY without a budget, TXBUF just written: it goes on when the exchange is done (40_transport.md R141). -/
theorem Runs.pollExchange {s : State} {r : Byte} {d : Dev} {n : Nat} (hx : isAsync s = true) (hl : s.ctl.live = true)
    (hf : s.ctl.txfull = true) (hb : s.ctl.srBusy = false) (hr : s.ctl.rxrdy = false) (hs : s.sched = [])
    (hp : s.params.pollBudget = none) (h : s.dev.exchange s.ctl.txbuf s.draws = .ok (r, d, n)) :
    Runs [.poll .rxrdy] s ((exchanged r d n s).log (.poll .rxrdy)) := by
  intro rest q
  refine ⟨rest, ?_, fun _ => rfl⟩
  have hready := poll_ready (f := .rxrdy) (s := exchanged r d n (s.setSeq q)) hs
    (flag_rxrdy_async (s := exchanged r d n (s.setSeq q)) hx rfl) (by show s.params.pollBudget ≠ _; rw [hp]; simp)
  have hleft : pollLeft (exchanged r d n (s.setSeq q)) = s.regs.pollcnt := by
    rw [pollLeft_eq]
    show (s.params.pollBudget).getD _ = _
    rw [hp]
    rfl
  have hitem : item (.poll .rxrdy) (s.setSeq q) = .went (((exchanged r d n s).log (.poll .rxrdy)).setSeq q) := by
    unfold item
    rw [show holdTries = 1 + (8 + (1 + (10 + 1))) from rfl,
      attempts_exchanged (s := s.setSeq q) (10 + 1) hx hl hf hb hr hs hp h]
    simp only [attempts, hready, hleft]
    rfl
  simp only [List.singleton_append, runSeq, hitem]
  rfl

/-- A write of TXBUF that the asynchronous controller takes (40_transport.md R153). -/
theorem ctlWrite_async {s : State} (v : Byte) (ha : s.params.ctrlAtomic = false) (hf : s.ctl.txfull = false) :
    ctlWrite v s = .ok (s.setCtl { s.ctl with txbuf := v, txfull := true }) := by
  unfold ctlWrite
  rw [if_neg (by simp [ha]), if_neg (by simp [hf])]

/-- A write of TXBUF while it is full (40_transport.md R154 a). -/
theorem ctlWrite_overwrite {s : State} (v : Byte) (ha : s.params.ctrlAtomic = false) (hf : s.ctl.txfull = true) :
    ctlWrite v s = .error .txOverwrite := by
  unfold ctlWrite
  rw [if_neg (by simp [ha]), if_pos hf]

/-- A read of RXBUF after the exchange is done (40_transport.md R153). -/
theorem perform_regRead_idle {s : State} (hi : ctlIdle s = true) :
    perform .regRead s = .ok ((noteReceived s.ctl.rxbuf ((s.setCtl { s.ctl with rxrdy := false }).setRegs
      { s.regs with tret := s.ctl.rxbuf })).log (.regRead s.ctl.rxbuf)) := by
  simp [perform, ctlRead, hi]

/-- A read of RXBUF before the exchange is done (40_transport.md R154 b). -/
theorem perform_regRead_stale {s : State} (ha : s.params.ctrlAtomic = false) (hi : ctlIdle s = false) :
    perform .regRead s = .error .staleRx := by
  simp [perform, ctlRead, ha, hi]

theorem perform_regWrite {s : State} {sel : ByteSel} {v : Byte} (hv : reqByte sel s = v) :
    perform (.regWrite sel) s = ctlWrite v (s.log (.regWrite v)) := by
  subst hv
  rfl

/-- The dummy of a receive_byte is handed over. -/
def dummyWritten (s : State) : State :=
  { s with ctl := { s.ctl with txbuf := Config.dummy, txfull := true }, trace := .regWrite Config.dummy :: s.trace }

/-- A poll was seen at its first attempt (40_transport.md R144). -/
def polled (f : Flag) (s : State) : State := (s.setRegs { s.regs with pollcnt := pollLeft s }).log (.poll f)

/-- A byte is handed to the asynchronous controller. -/
theorem Runs.writeAsync {s : State} {v : Byte} (hs : s.sched = []) (ha : s.params.ctrlAtomic = false)
    (hf : s.ctl.txfull = false) (hv : reqByte .lo s = v) :
    Runs [.ev (.regWrite .lo)] s { s with
      ctl := { s.ctl with txbuf := v, txfull := true }, trace := .regWrite v :: s.trace } := by
  refine Runs.ev hs (fun q => ?_)
  rw [perform_regWrite (s := s.setSeq q) hv]
  exact ctlWrite_async (s := (s.setSeq q).log (.regWrite v)) v ha hf

theorem Runs.dummyAsync {s : State} (hs : s.sched = []) (ha : s.params.ctrlAtomic = false)
    (hf : s.ctl.txfull = false) : Runs [.ev .regWriteDummy] s (dummyWritten s) :=
  Runs.ev hs (fun q => ctlWrite_async (s := (s.setSeq q).log (.regWrite Config.dummy)) Config.dummy ha hf)

/-- RXBUF is read and returned. -/
def rxTaken (r : Byte) (s : State) : State :=
  { s with
    regs := { s.regs with tret := r }
    ctl := { s.ctl with rxrdy := false }
    dev := s.dev.note r
    trace := .regRead r :: s.trace }

theorem Runs.readAsync {s : State} (hs : s.sched = []) (hi : ctlIdle s = true) :
    Runs [.ev .regRead] s (rxTaken s.ctl.rxbuf s) :=
  Runs.ev hs (fun q => perform_regRead_idle (s := s.setSeq q) hi)

theorem recvByteSeq_controller {p : Params} (hm : p.mode = .controller) :
    recvByteSeq p = [.ev .regWriteDummy, .poll .rxrdy, .ev .regRead] := by
  simp only [recvByteSeq, hm]

/-- RECEIVE_BYTE on the idle asynchronous controller, whatever its exchange of the dummy gives. -/
theorem exec_receiveByte_async {s : State} (tdata : Half) {r : Byte} {d : Dev} {n : Nat} (hs : s.seq = [])
    (hq : s.sched = []) (hm : s.params.mode = .controller) (ha : s.params.ctrlAtomic = false)
    (hf : s.ctl.txfull = false) (hp : s.params.pollBudget = none) (hl : s.ctl.live = true)
    (hb : s.ctl.srBusy = false) (hr : s.ctl.rxrdy = false)
    (hx : s.dev.exchange Config.dummy s.draws = .ok (r, d, n)) :
    exec (.receiveByte tdata) s = .next { s with
      regs := { s.regs with treq := packMicro 2#2 tdata, tret := r }
      ctl := { s.ctl with txbuf := 0xFF#8, srOut := 0, srIn := r, srCnt := 8, rxbuf := r }
      dev := d.note r
      draws := n
      trace := .regRead r :: .poll .rxrdy :: .regWrite 0xFF#8 :: s.trace } := by
  have hasync := isAsync_of hm ha
  have hctl : ({ s.ctl with txbuf := 0xFF#8, srOut := 0, srIn := r, srCnt := 8, rxbuf := r } : Ctl) =
      { s.ctl with
        txbuf := 0xFF#8, srOut := 0, srIn := r, srCnt := 8, rxbuf := r
        txfull := false, srBusy := false, rxrdy := false } := by simp only [hf, hb, hr]
  have run1 := Runs.dummyAsync (s := applyUpd (.request 2#2 (.const tdata)) s) hq ha hf
  have run2 := Runs.pollExchange (s := dummyWritten (applyUpd (.request 2#2 (.const tdata)) s)) hasync hl rfl hb hr hq hp hx
  have run3 := Runs.readAsync
    (s := (exchanged r d n (dummyWritten (applyUpd (.request 2#2 (.const tdata)) s))).log (.poll .rxrdy)) hq rfl
  rw [exec_receiveByte, recvByteSeq_controller hm, hctl]
  exact runTransport_next hs (Runs.requested (Runs.cons run1 (Runs.cons run2 run3))) hs

/-- Settles O39: the send is a poll and a write; the receive waits for its own exchange. -/
theorem asyncTakesByte : Obligations.AsyncTakesByte := by
  intro s tdata hs hq hm ha hf
  refine ⟨fun hb => ?_, fun hp hl hb hr hline => ⟨fun b rs r0 rv r n hfr hrep hg => ?_, fun hfr => ?_⟩⟩
  · have hflag : flagValue .txrdy s = true := by simp [flagValue, ha, hf]
    have hseq : sendByteSeq s.params .lo = [.poll .txrdy, .ev (.regWrite .lo)] := by simp only [sendByteSeq, hm]
    have run1 := Runs.poll (f := .txrdy) (s := applyUpd (.request 0#2 (.const tdata)) s) hq hflag hb
    have run2 := Runs.writeAsync (s := polled .txrdy (applyUpd (.request 0#2 (.const tdata)) s)) hq ha hf
      (reqByte_request_lo 0#2 tdata s)
    rw [exec_sendByte, callSendByte, hseq, ← pollLeft_eq]
    exact runTransport_next hs (Runs.requested (Runs.cons run1 run2)) hs
  · exact exec_receiveByte_async tdata hs hq hm ha hf hp hl hb hr
      (exchange_spec _ s.dev s.draws n b rs 0 r0 r hline hfr hrep hg)
  · obtain ⟨r, n, hx⟩ := exchange_no_frame Config.dummy s.dev s.draws hfr
    have hrun := exec_receiveByte_async tdata hs hq hm ha hf hp hl hb hr hx
    rw [note_no_frame r s.dev hfr] at hrun
    exact ⟨r, n, hrun⟩

/-- Settles O40: the ten moves, and the exchange they make. -/
theorem asyncMovesByte : Obligations.AsyncMovesByte := by
  intro s b rs rv r0 r n rest hs hi hm ha hl hf hb hline hfr hrep hg
  have hx := exchange_spec s.ctl.txbuf s.dev s.draws n b rs 0 r0 r hline hfr hrep hg
  rw [step_serve hs hi, serve, envActs_exchanged (s := s.setInbox rest) (isAsync_of hm ha) hl hf hb hx]
  rfl

/-- Chip-select as INIT's second event finds it: an output, the rest of the state as the command's start left it. -/
def initDirected (addr data len : Half) (s : State) : State :=
  (setDir .cs .output (begun 0x0#4 addr data len s)).log (.dir .cs .output)

/-- INIT whose Drive(CS, 1) faults (43_erase_and_init.md R203, I1). -/
theorem exec_init_fault {s : State} {addr data len : Half} {e : Fault} (hs : s.seq = []) (hq : s.sched = [])
    (h : ∀ q, drivePin .cs true ((initDirected addr data len s).setSeq q) = .error e) :
    exec (.init addr data len) s = .fault e := by
  have hseq : ∀ p, initSeq p = [.ev (.dir .cs .output)] ++ .ev (.drive .cs true) ::
      (initPins p ++ wrenPulse p ++ [.ev (.rsp .zero), .reg .setInited]) := fun p => by simp [initSeq]
  rw [exec_init, runHost_accepted hs (startCheck_init _ _ _), hseq]
  exact Runs.faults (dir_spec (s := begun 0x0#4 addr data len s) .cs .output hq) hq h

/-- Settles O43: each hazard at the event that meets it. -/
theorem asyncHazards : Obligations.AsyncHazards := by
  intro s tdata addr data len hs hq hm ha hb
  refine ⟨fun hf => ?_, fun hf hr => ?_, fun hc => ?_⟩
  · rw [exec_receiveByte, recvByteSeq_controller hm, runTransport, busy_idle hs]
    exact Runs.faults (Runs.request 2#2 (.const tdata) s) hq
      (fun q => ctlWrite_overwrite (s := ((applyUpd (.request 2#2 (.const tdata)) s).setSeq q).log _) _ ha hf)
  · rw [exec_receiveByte, recvByteSeq_controller hm, runTransport, busy_idle hs]
    have run1 := Runs.dummyAsync (s := applyUpd (.request 2#2 (.const tdata)) s) hq ha hf
    have run2 := Runs.poll (f := .rxrdy) (s := dummyWritten (applyUpd (.request 2#2 (.const tdata)) s)) hq
      (flag_rxrdy_async (isAsync_of hm ha) hr) hb
    exact Runs.faults (Runs.requested (Runs.cons run1 run2)) hq (fun q => perform_regRead_stale ha rfl)
  · have hbusy : ctlIdle s = false := by
      unfold ctlIdle
      rcases hc with h | h <;> simp [h]
    exact exec_init_fault hs hq (fun q => drivePin_cs_early (isAsync_of hm ha) hbusy rfl)

end Sys2Proof.Machine

/-! PROOFS. Faults, timeouts and holds (60_exceptions.md section 3; 70_reset_and_hazards.md section 3): one Drive, one poll,
and a dead controller under each host operation. -/

namespace Sys2Proof.Machine

open Sys2Proof

/-! One Drive (10_state.md R37; 20_memory.md R70). -/

/-- Settles O41: the direction is the first thing a Drive looks at, and SEND_BYTE's first event is a Drive. -/
theorem driveNeedsOutput : Obligations.DriveNeedsOutput := by
  refine ⟨fun s p v hd => drivePin_input v hd, fun s tdata hs hq hm hd => ?_⟩
  have hseq : callSendByte s.params (.const tdata) = [.reg (.request 0#2 (.const tdata)), .reg (.loadShift .lo)] ++
      .ev .driveMosi :: ([.ev (.drive .sck true), .ev (.drive .sck false), .reg .shiftLeft] ++
        repeatSeq 7 sendBitSeq) := by
    simp only [callSendByte, sendByteSeq, hm]
    rfl
  rw [exec_sendByte, runTransport, busy_idle hs, hseq]
  exact Runs.faults (Runs.requested (Runs.reg (.loadShift .lo) _)) hq (fun _ => drivePin_input _ hd)

/-- Chip-select driven high off a byte boundary, on any controller that is not in the way. -/
theorem drivePin_cs_offByte {s : State} {f : Frame} (hx : isAsync s = true → ctlIdle s = true)
    (hd : s.pins.dirCs = .output) (ho : s.pins.outCs = false) (hf : s.dev.frame = some f) (hc : f.cnt ≠ 0) :
    drivePin .cs true s = .error .partialByte := by
  have hdir : ¬ pinDir .cs s = .input := by simp [pinDir, hd]
  have hidle : ¬ (OutPin.cs = .cs ∧ true = true ∧ isAsync s = true ∧ ctlIdle s = false) := by
    rintro ⟨-, -, ha, hi⟩
    simp [hx ha] at hi
  unfold drivePin
  rw [if_neg hdir, if_neg hidle]
  simp [lineLevel, csLevel, closeFrame, ho, hf, hc]

/-- Settles O42: a Drive that raises chip-select, INIT's among them. -/
theorem partialBytesFault : Obligations.PartialBytesFault := by
  intro s f ho hf hc
  refine ⟨fun hd hx => drivePin_cs_offByte hx hd ho hf hc, fun addr data len hs hq hx => ?_⟩
  exact exec_init_fault hs hq (fun q =>
    drivePin_cs_offByte (s := (initDirected addr data len s).setSeq q) hx rfl ho hf hc)

/-! One poll (40_transport.md R144). -/

/-- Settles O44: the three ends of a poll. -/
theorem pollOutcomes : Obligations.PollOutcomes := by
  intro s f hq
  refine ⟨fun hf hb => ?_, fun n hf hb => poll_timesOut hq hf hb, fun hf hx hb => ?_⟩
  · rw [poll_ready hq hf hb, pollLeft_eq]
    rfl
  · have hheld := poll_held hq hx hf hb
    exact ⟨hheld, attempts_held hheld _⟩

/-! A host operation up to its first poll, in controller mode. -/

/-- `ms` is `pre`, then the opening of a bracket, then the poll of its first send_byte. -/
def OpensAfter (pre ms : List Micro) : Prop :=
  ∃ w rest, ms = pre ++ (csAssert ++ [.reg (.request 0#2 (.const w))]) ++ .poll .txrdy :: rest

theorem OpensAfter.append {pre ms : List Micro} (h : OpensAfter pre ms) (more : List Micro) :
    OpensAfter pre (ms ++ more) := by
  obtain ⟨w, rest, rfl⟩ := h
  exact ⟨w, rest ++ more, by simp⟩

theorem OpensAfter.prepend {pre ms : List Micro} (h : OpensAfter pre ms) (before : List Micro) :
    OpensAfter (before ++ pre) (before ++ ms) := by
  obtain ⟨w, rest, rfl⟩ := h
  exact ⟨w, rest, by simp⟩

section

variable {p : Params} (hm : p.mode = .controller)
include hm

theorem callSendByte_controller (src : Src) :
    callSendByte p src = [.reg (.request 0#2 src), .poll .txrdy, .ev (.regWrite .lo)] := by
  simp only [callSendByte, sendByteSeq, hm]

theorem wrenPulse_opens : OpensAfter [] (wrenPulse p) :=
  ⟨_, _, by rw [wrenPulse, callSendByte_controller hm]; rfl⟩

theorem readHead_opens : OpensAfter [] (readHead p) :=
  ⟨_, _, by rw [readHead, callSendByte_controller hm]; rfl⟩

theorem writeHead_opens : OpensAfter [] (writeHead p) := by
  unfold writeHead
  simp only [List.append_assoc]
  exact (wrenPulse_opens hm).append _

theorem readFrameSeq_opens (dst : Upd) : OpensAfter [] (readFrameSeq p dst) := by
  unfold readFrameSeq
  simp only [List.append_assoc]
  exact (readHead_opens hm).append _

theorem writeFrameSeq_opens (src : Src) : OpensAfter [] (writeFrameSeq p src) := by
  unfold writeFrameSeq
  simp only [List.append_assoc]
  exact (writeHead_opens hm).append _

end

/-- What an operation does before its first bracket in controller mode: the pins of INIT, the tier call of an array
operation, the first address of ERASE_ALL. -/
def firstItems (p : Params) (op : BitVec 4) : List Micro :=
  if op = 0x0#4 then [.ev (.dir .cs .output), .ev (.drive .cs true)]
  else if op = 0x5#4 ∨ op = 0x6#4 then throttleDown p
  else if op = 0x7#4 then [.reg .eraZero, .reg .eraLoad] else []

theorem initSeq_opens {p : Params} (hm : p.mode = .controller) : OpensAfter (firstItems p 0x0#4) (initSeq p) := by
  have hpins : initPins p = [] := by simp only [initPins, hm]
  have h := ((wrenPulse_opens hm).prepend [.ev (.dir .cs .output), .ev (.drive .cs true)]).append
    [.ev (.rsp .zero), .reg .setInited]
  unfold initSeq
  rw [hpins]
  exact h

theorem readArraySeq_opens {p : Params} (hm : p.mode = .controller) (n : Nat) :
    OpensAfter (firstItems p 0x5#4) (readArraySeq p n) := by
  have h := ((readHead_opens hm).prepend (throttleDown p)).append (.reg .idxZero :: repeatSeq n (readArrayTurn p) ++
    csDeassert ++ throttleUp p ++ [.ev (.rsp .zero)])
  rw [List.append_nil] at h
  show OpensAfter (throttleDown p) (readArraySeq p n)
  unfold readArraySeq
  simpa only [List.append_assoc] using h

theorem writeArraySeq_opens {p : Params} (hm : p.mode = .controller) (n : Nat) :
    OpensAfter (firstItems p 0x6#4) (writeArraySeq p n) := by
  have h := ((writeHead_opens hm).prepend (throttleDown p)).append (.reg .idxZero :: repeatSeq n (writeArrayTurn p) ++
    csDeassert ++ [.ev .wait] ++ throttleUp p ++ [.ev (.rsp .zero)])
  rw [List.append_nil] at h
  show OpensAfter (throttleDown p) (writeArraySeq p n)
  unfold writeArraySeq
  simpa only [List.append_assoc] using h

/-- ERASE_ALL of one address or more; the count is a variable, so that nothing unfolds 4096 turns. -/
theorem eraseLoop_opens {p : Params} (hm : p.mode = .controller) (n : Nat) :
    OpensAfter (firstItems p 0x7#4) (.reg .eraZero :: repeatSeq (n + 1) (eraseTurn p) ++ [.ev (.rsp .zero)]) := by
  have h := ((writeFrameSeq_opens hm .wdataLo).prepend [.reg .eraZero, .reg .eraLoad]).append
    ([.reg .eraInc] ++ repeatSeq n (eraseTurn p) ++ [.ev (.rsp .zero)])
  rw [List.append_nil] at h
  simpa [repeatSeq, eraseTurn, firstItems] using h

/-- The state in which the first bracket opens, up to what `visible` leaves out. -/
def beforeBracket (op : BitVec 4) (s : State) : State :=
  { s with
    regs := firstRegs op s.regs
    tier := if (op = 0x5#4 ∨ op = 0x6#4) ∧ s.params.hasThrottle = true then s.params.tierLow else s.tier
    trace := (firstTrace s.params op).reverse ++ s.trace }

/-- The tier call of an array operation, the mark of T2 with it (60_exceptions.md R218). -/
theorem throttleDown_runs {s : State} (hq : s.sched = []) :
    Runs (throttleDown s.params) s
      (if s.params.hasThrottle then { tiered s.params.tierLow s with tierLow := true } else s) := by
  unfold throttleDown
  split
  · exact Runs.ev hq (fun q => rfl)
  · exact Runs.nil s

theorem firstItems_spec {op : BitVec 4} {s : State} (hop : op.toNat < 8) (hq : s.sched = [])
    (hm : s.params.mode = .controller) (hx : isAsync s = false) (hd : s.pins.dirCs = .output)
    (ho : s.pins.outCs = true) (ht : s.tierLow = false) :
    ∃ t, Runs (firstItems s.params op) s t ∧ visible t = visible (beforeBracket op s) ∧
      t.tierLow = decide ((op = 0x5#4 ∨ op = 0x6#4) ∧ s.params.hasThrottle = true) := by
  have hpins : ({ s.pins with dirCs := .output } : Pins) = s.pins := by rw [← hd]
  obtain rfl | rfl | rfl | rfl | rfl | rfl | rfl | rfl := op_cases hop
  case inl =>
    have h := initPins_spec hq hx ho
    simp only [initPins, hm, initLines, hpins, List.append_nil] at h
    exact ⟨_, h, rfl, ht⟩
  case inr.inr.inr.inr.inr.inl =>
    refine ⟨_, throttleDown_runs hq, ?_, ?_⟩ <;> rcases hh : s.params.hasThrottle <;>
      simp [beforeBracket, firstRegs, firstTrace, hh, ht, tiered, visible]
  case inr.inr.inr.inr.inr.inr.inl =>
    refine ⟨_, throttleDown_runs hq, ?_, ?_⟩ <;> rcases hh : s.params.hasThrottle <;>
      simp [beforeBracket, firstRegs, firstTrace, hh, ht, tiered, visible]
  case inr.inr.inr.inr.inr.inr.inr =>
    exact ⟨_, Runs.cons (Runs.reg .eraZero s) (Runs.reg .eraLoad _), rfl, ht⟩
  all_goals exact ⟨s, Runs.nil s, rfl, ht⟩

/-- An accepted command passes the checks. -/
theorem startCheck_accepted {s : State} {w : BitVec 52} (h : Accepted s w) :
    startCheck (cmdOp w) (cmdAddr w) (cmdLen w) s = none := by
  obtain ⟨h8, hi, harr, hbyte, hword⟩ := h
  rw [startCheck_eq, if_neg, if_neg, if_neg, if_neg]
  · omega
  · rintro ⟨ha, hl⟩
    obtain ⟨-, hlen, -⟩ := harr ha
    omega
  · rintro ⟨h0, hno⟩
    simp [hi h0] at hno
  · rintro (hge | ⟨ha, hno⟩)
    · omega
    · simp [(harr ha).1] at hno

/-- Every host operation is some sequence that opens its first bracket after its first items. -/
theorem exec_opens {s : State} {w : BitVec 52} (hs : s.seq = []) (hm : s.params.mode = .controller)
    (hA : Accepted s w) :
    ∃ ms, exec (decodeCmd w) s = runOp ms (begun (cmdOp w) (cmdAddr w) (cmdData w) (cmdLen w) s) ∧
      OpensAfter (firstItems s.params (cmdOp w)) ms := by
  have hc := startCheck_accepted hA
  have hmode : ∀ op a d l, (begun op a d l s).params.mode = .controller := fun _ _ _ _ => hm
  rw [decodeCmd_eq_hostInstr]
  generalize cmdAddr w = a at *
  generalize cmdData w = d at *
  generalize cmdLen w = l at *
  obtain h | h | h | h | h | h | h | h := op_cases hA.1 <;> rw [h] at hc ⊢
  · exact ⟨_, (exec_init a d l s).trans (runHost_accepted hs hc), initSeq_opens hm⟩
  · exact ⟨_, (exec_readByte a d l s).trans (runHost_accepted hs hc), (readFrameSeq_opens hm .takeLo).append _⟩
  · exact ⟨_, (exec_writeByte a d l s).trans (runHost_accepted hs hc), (writeFrameSeq_opens hm .wdataLo).append _⟩
  · exact ⟨_, (exec_readWord a d l s).trans (runHost_accepted hs hc),
      ((readFrameSeq_opens hm .takeHi).append _).append _⟩
  · exact ⟨_, (exec_writeWord a d l s).trans (runHost_accepted hs hc),
      ((writeFrameSeq_opens hm .wdataHi).append _).append _⟩
  · exact ⟨_, (exec_readArray a d l s).trans (runHost_accepted hs hc), readArraySeq_opens hm _⟩
  · exact ⟨_, (exec_writeArray a d l s).trans (runHost_accepted hs hc), writeArraySeq_opens hm _⟩
  · exact ⟨_, (exec_eraseAll a d l s).trans (runHost_accepted hs hc), eraseLoop_opens hm 4095⟩

/-- A host operation on a dead controller reaches the poll inside its first bracket. -/
theorem exec_reaches_poll {s : State} {w : BitVec 52} (hD : Dead s) (hA : Accepted s w) :
    ∃ ms rest t, exec (decodeCmd w) s =
        runOp (ms ++ .poll .txrdy :: rest) (begun (cmdOp w) (cmdAddr w) (cmdData w) (cmdLen w) s) ∧
      Runs ms (begun (cmdOp w) (cmdAddr w) (cmdData w) (cmdLen w) s) t ∧
      visible t = visible (onFrame Frame.empty [.drive .cs false] (csDown
        (beforeBracket (cmdOp w) (begun (cmdOp w) (cmdAddr w) (cmdData w) (cmdLen w) s)))) ∧
      t.bracketWrite = false ∧
      t.tierLow = decide ((cmdOp w = 0x5#4 ∨ cmdOp w = 0x6#4) ∧ s.params.hasThrottle = true) := by
  obtain ⟨hs, hq, hm, hat, -, ⟨hd, ho, -⟩, hw⟩ := hD
  obtain ⟨ms, hexec, c, rest, rfl⟩ := exec_opens hs hm hA
  obtain ⟨t1, run1, vis1, tier1⟩ := firstItems_spec (s := begun (cmdOp w) (cmdAddr w) (cmdData w) (cmdLen w) s)
    hA.1 hq hm (by simp [isAsync, begun, accept, latch, hat]) hd ho rfl
  obtain ⟨t2, run2, vis2, bw2, tier2⟩ := open_bracket (s := t1) c ((congrArg State.sched vis1).trans hq)
    ((visible_dirCs vis1).trans hd) ((visible_outCs vis1).trans ho) (by rw [visible_dev vis1]; exact hw)
  refine ⟨_, rest, t2, hexec, Runs.append run1 run2, vis2.trans ?_, bw2, tier2.trans tier1⟩
  exact onFrame_visible _ _ (csDown_visible vis1)

/-! What a poll inside a bracket of a dead controller finds. -/

section

variable {s t : State} {w : BitVec 52} (hvis : visible t = visible (onFrame Frame.empty [.drive .cs false] (csDown
    (beforeBracket (cmdOp w) (begun (cmdOp w) (cmdAddr w) (cmdData w) (cmdLen w) s)))))
include hvis

theorem opened_params : t.params = s.params := (visible_params hvis).trans rfl

theorem opened_sched : t.sched = s.sched := congrArg (fun x => x.sched) hvis

theorem opened_notAsync (hat : s.params.ctrlAtomic = true) : isAsync t = false := by
  simp [isAsync, opened_params hvis, hat]

theorem opened_flag (hat : s.params.ctrlAtomic = true) (hlive : s.ctl.live = false) (f : Flag) :
    flagValue f t = false :=
  dead_flag f (by rw [opened_params hvis]; exact hat) ((congrArg (fun x => x.ctl.live) hvis).trans hlive)

end

/-- Settles O46: the poll holds, and the step of the held framer leaves everything as it is. -/
theorem deadControllerBlocks : Obligations.DeadControllerBlocks := by
  intro s w hD hb hA
  obtain ⟨ms, rest, t, hexec, run, hvis, -, -⟩ := exec_reaches_poll hD hA
  obtain ⟨-, hqs, -, hat, hlive, -⟩ := hD
  have hq : t.sched = [] := by rw [opened_sched hvis]; exact hqs
  have hx := opened_notAsync hvis hat
  have hf := opened_flag hvis hat hlive .txrdy
  have hbt : t.params.pollBudget = none := by rw [opened_params hvis]; exact hb
  have hcs : t.pins.outCs = false := visible_outCs hvis
  refine ⟨t.setSeq (.poll .txrdy :: rest), hexec.trans (Runs.holds run hq hx hf hbt), rfl, hcs, ⟨rest, rfl⟩, ?_⟩
  have hheld : attempt (.poll .txrdy) (t.setSeq (.poll .txrdy :: rest)) = .held (t.setSeq (.poll .txrdy :: rest)) :=
    poll_held hq hx hf hbt
  rw [step_busy (m := .poll .txrdy) (ms := rest) rfl]
  simp only [advance, State.setSeq_seq, hheld]

/-- The exit of an operation that was abandoned at the first poll of its first bracket: what is visible of it. -/
theorem abandoned_visible {s : State} {op : BitVec 4} {a d l : Half} (ho : s.pins.outCs = true)
    (hf : s.dev.frame = none) :
    visible (answered 0 (exitTiered (decide ((op = 0x5#4 ∨ op = 0x6#4) ∧ s.params.hasThrottle = true))
      (exitClosed { s.dev with frame := none } s.draws Frame.empty
        (onFrame Frame.empty [.drive .cs false] (csDown (beforeBracket op (begun op a d l s))))))) =
    visible { s with
      regs := { firstRegs op { s.regs with op := op, addr := a, wdata := d, len := lo8 l } with
        status := 3, rspStatus := 3, rspData := 0 }
      tier := if (op = 0x5#4 ∨ op = 0x6#4) ∧ s.params.hasThrottle = true then s.params.tierHigh else s.tier
      frames := ⟨[], [], []⟩ :: s.frames
      trace := opTrace op a d l
        (firstTrace s.params op ++ [.drive .cs false, .drive .cs true] ++ lastTrace s.params op)
        .deviceTimeout 0 s.trace } := by
  have hpins : ({ s.pins with outCs := true } : Pins) = s.pins := by rw [← ho]
  have hregs : firstRegs op { s.regs with op := op, addr := a, wdata := d, len := lo8 l, status := Status.ok.code } =
      { firstRegs op { s.regs with op := op, addr := a, wdata := d, len := lo8 l } with status := Status.ok.code } := by
    unfold firstRegs
    split <;> rfl
  have hlast : lastTrace s.params op =
      if (op = 0x5#4 ∨ op = 0x6#4) ∧ s.params.hasThrottle = true then [.clockTier s.params.tierHigh] else [] := rfl
  by_cases hc : (op = 0x5#4 ∨ op = 0x6#4) ∧ s.params.hasThrottle = true
  · rw [hlast, if_pos hc, if_pos hc, decide_eq_true hc]
    simp only [if_true, exitTiered, exitClosed, shut, frame_none hf, onFrame, csDown, beforeBracket, begun, accept, latch,
      State.setRegs, State.log, State.setBracketWrite, State.setTierLow, hregs, hpins, opTrace, List.reverse_append,
      List.append_assoc]
    rfl
  · have htier : (beforeBracket op (begun op a d l s)).tier = s.tier := if_neg hc
    rw [hlast, if_neg hc, if_neg hc, decide_eq_false hc, ← htier]
    simp only [Bool.false_eq_true, if_false, exitTiered, exitClosed, shut, frame_none hf, onFrame, csDown, beforeBracket,
      begun, accept, latch, State.setRegs, State.log, State.setBracketWrite, State.setTierLow, hregs, hpins, opTrace,
      List.append_nil, List.reverse_append, List.append_assoc]
    rfl


/-- An empty frame does nothing (20_memory.md R74). -/
theorem act_nil (d : Dev) (n : Nat) : Dev.act [] d n = (d, n) := by
  unfold Dev.act
  split <;> rfl

/-- INITED is as it was in the registers an operation works with. -/
theorem firstRegs_inited (op : BitVec 4) (r : Regs) : (firstRegs op r).inited = r.inited := by
  unfold firstRegs
  split <;> rfl

/-- A host operation on a dead controller with a budget is abandoned. -/
theorem exec_abandoned {s : State} {w : BitVec 52} {k : Nat} (hb : s.params.pollBudget = some (k + 1)) (hD : Dead s)
    (hA : Accepted s w) :
    ∃ t, exec (decodeCmd w) s = .next t ∧ t.seq = [] ∧
      visible t = visible (answered 0 (exitTiered (decide ((cmdOp w = 0x5#4 ∨ cmdOp w = 0x6#4) ∧
        s.params.hasThrottle = true)) (exitClosed { s.dev with frame := none } s.draws Frame.empty
          (onFrame Frame.empty [.drive .cs false] (csDown
            (beforeBracket (cmdOp w) (begun (cmdOp w) (cmdAddr w) (cmdData w) (cmdLen w) s))))))) := by
  obtain ⟨ms, rest, t, hexec, run, hvis, hbw, hlow⟩ := exec_reaches_poll hD hA
  obtain ⟨-, hqs, hm, hat, hlive, ⟨hd, -⟩, -⟩ := hD
  have hq : t.sched = [] := by rw [opened_sched hvis]; exact hqs
  have hx : isAsync t = false := opened_notAsync hvis hat
  have hdir : t.pins.dirCs = .output := by rw [visible_dirCs hvis]; exact hd
  have hcs : t.pins.outCs = false := visible_outCs hvis
  have hdev := visible_dev hvis
  have hact : Dev.act [] { t.dev with frame := none } t.draws = ({ s.dev with frame := none }, t.draws) := by
    rw [act_nil, hdev]
    rfl
  obtain ⟨q, hq'⟩ := Runs.timesOut (rest := rest) run hq (opened_flag hvis hat hlive .txrdy)
    (by rw [opened_params hvis]; exact hb)
  generalize ht' : (t.setRegs { t.regs with pollcnt := 0 }).setSeq q = t' at hq'
  have hvis' : visible t' = visible t := by
    rw [← ht']
    exact visible_pollcnt 0 (by rw [opened_params hvis]; exact hm)
  subst ht'
  obtain ⟨-, -, hexit⟩ := timeoutExit_spec (t := (t.setRegs { t.regs with pollcnt := 0 }).setSeq q) (f := Frame.empty)
    (d := { s.dev with frame := none }) (n := t.draws) hq hx hdir hcs (congrArg Dev.frame hdev) rfl
    hact
  refine ⟨_, hexec.trans (hq'.trans hexit), rfl, ?_⟩
  have h := exited_visible (hvis'.trans hvis) hbw
  rw [← hlow]
  exact h

/-- The rest of an exit, in a state from whichever a step answers its first part. -/
theorem steps_timeoutExit {s t u : State} {f : Flag} {m : Micro} {ms : List Micro} (hs : s.seq = m :: ms)
    (ha : attempt m s = .timedOut t f) (hu : exitStart t = .ok u) : ∃ n, steps n s = timeoutExit t := by
  obtain ⟨n, hn⟩ := steps_exit hu
  have hstep : step s = .next u := by
    rw [step_busy hs]
    simp only [advance, hs, ha, hu]
    rfl
  refine ⟨n + 1, ?_⟩
  simp only [steps, hstep, hn, timeoutExit, hu]

/-- Settles O45: the first poll of any operation, and any poll inside a WRITE bracket. -/
theorem deadControllerTimesOut : Obligations.DeadControllerTimesOut := by
  intro s k hb
  refine ⟨fun w hD hA => ?_, fun f rest fr hs hq hm hat hlive hd ho hbw hf hc => ?_⟩
  · obtain ⟨t, hexec, hseq, hvis⟩ := exec_abandoned hb hD hA
    obtain ⟨-, -, -, -, -, ⟨-, ho, hnone⟩, -⟩ := hD
    have hfinal := hvis.trans (abandoned_visible ho hnone)
    refine ⟨t, hexec, hseq, ?_, hfinal⟩
    exact (congrArg (fun x => x.regs.inited) hfinal).trans (firstRegs_inited _ _)
  · have hx : isAsync s = false := by simp [isAsync, hat]
    obtain ⟨d, n, ha⟩ : ∃ d n, Dev.act fr.bytes { s.dev with frame := none } s.draws = (d, n) := ⟨_, _, rfl⟩
    obtain ⟨u, hu, hexit⟩ := timeoutExit_spec (t := s.setRegs { s.regs with pollcnt := 0 }) hq hx hd ho hf hc ha
    obtain ⟨m, hm'⟩ := steps_timeoutExit hs (poll_timesOut hq (dead_flag f hat hlive) hb) hu
    refine ⟨m, _, hm'.trans hexit, rfl, ?_⟩
    rw [ha]
    rcases hset : s.params.oSettle <;> rcases hlow : s.tierLow <;>
      simp [exited, answered, exitTiered, exitWaited, exitClosed, settled, unsettled, tiered,
        shut, sendRsp, State.setRegs, State.log, hbw, hset, hlow]


end Sys2Proof.Machine

/-! PROOFS. Bit-bang mode cannot block (40_transport.md R145): its sequences have no poll, and the one hold they have is
lifted by the device (70_reset_and_hazards.md R280; log 13). -/

namespace Sys2Proof.Machine

open Sys2Proof

/-! Sequences without a poll. -/

/-- A sequence has no poll. -/
def NoPoll (ms : List Micro) : Prop := ∀ f, Micro.poll f ∉ ms

@[simp] theorem noPoll_nil : NoPoll [] := fun _ h => by cases h
@[simp] theorem noPoll_reg (u : Upd) (ms : List Micro) : NoPoll (.reg u :: ms) ↔ NoPoll ms := by simp [NoPoll]
@[simp] theorem noPoll_ev (a : Act) (ms : List Micro) : NoPoll (.ev a :: ms) ↔ NoPoll ms := by simp [NoPoll]
@[simp] theorem noPoll_append (ms ns : List Micro) : NoPoll (ms ++ ns) ↔ NoPoll ms ∧ NoPoll ns := by
  simp [NoPoll, forall_and]

theorem noPoll_repeatSeq {ms : List Micro} (h : NoPoll ms) (n : Nat) : NoPoll (repeatSeq n ms) := by
  induction n with
  | zero => exact noPoll_nil
  | succ n ih => exact (noPoll_append ms _).mpr ⟨h, ih⟩

section

variable {p : Params} (hm : p.mode = .bitbang)
include hm

theorem noPoll_sendByteSeq (sel : ByteSel) : NoPoll (sendByteSeq p sel) := by
  simp only [sendByteSeq, hm, noPoll_reg]
  exact noPoll_repeatSeq (by simp [sendBitSeq]) 8

theorem noPoll_recvByteSeq : NoPoll (recvByteSeq p) := by
  have hbit : NoPoll (recvBitSeq p) := by
    unfold recvBitSeq
    split <;> simp
  simp [recvByteSeq, hm, noPoll_repeatSeq hbit]

theorem noPoll_callSendByte (src : Src) : NoPoll (callSendByte p src) := by
  simp [callSendByte, noPoll_sendByteSeq hm]

theorem noPoll_callSendWord (src : Src) : NoPoll (callSendWord p src) := by
  simp [callSendWord, sendWordSeq, noPoll_sendByteSeq hm]

theorem noPoll_callRecvByte : NoPoll (callRecvByte p) := by simp [callRecvByte, noPoll_recvByteSeq hm]

theorem noPoll_wrenPulse : NoPoll (wrenPulse p) := by
  simp [wrenPulse, csAssert, csDeassert, noPoll_callSendByte hm]

theorem noPoll_readHead : NoPoll (readHead p) := by
  simp [readHead, csAssert, noPoll_callSendByte hm, noPoll_callSendWord hm]

theorem noPoll_writeHead : NoPoll (writeHead p) := by
  simp [writeHead, csAssert, noPoll_wrenPulse hm, noPoll_callSendByte hm, noPoll_callSendWord hm]

theorem noPoll_readFrameSeq {u : Upd} : NoPoll (readFrameSeq p u) := by
  simp [readFrameSeq, csDeassert, noPoll_readHead hm, noPoll_callRecvByte hm]

theorem noPoll_writeFrameSeq (src : Src) : NoPoll (writeFrameSeq p src) := by
  simp [writeFrameSeq, csDeassert, noPoll_writeHead hm, noPoll_callSendByte hm]

theorem noPoll_initSeq : NoPoll (initSeq p) := by
  simp [initSeq, initPins, hm, noPoll_wrenPulse hm]

theorem noPoll_readArraySeq (n : Nat) : NoPoll (readArraySeq p n) := by
  have hturn : NoPoll (readArrayTurn p) := by simp [readArrayTurn, noPoll_callRecvByte hm]
  cases h : p.hasThrottle <;>
    simp [readArraySeq, throttleDown, throttleUp, csDeassert, h, noPoll_readHead hm, noPoll_repeatSeq hturn]

theorem noPoll_writeArraySeq (n : Nat) : NoPoll (writeArraySeq p n) := by
  have hturn : NoPoll (writeArrayTurn p) := by simp [writeArrayTurn, noPoll_callSendByte hm]
  cases h : p.hasThrottle <;>
    simp [writeArraySeq, throttleDown, throttleUp, csDeassert, h, noPoll_writeHead hm, noPoll_repeatSeq hturn]

theorem noPoll_eraseAllSeq : NoPoll (eraseAllSeq p) := by
  have hturn : NoPoll (eraseTurn p) := by simp [eraseTurn, noPoll_writeFrameSeq hm]
  simp [eraseAllSeq, noPoll_repeatSeq hturn]

end

/-! The settle wait: one step of the device lifts it. -/

theorem pulse_wip {m : Bool} {d d' : Dev} {n n' : Nat} (h : d.pulse m n = .ok (d', n')) : d'.wip = d.wip := by
  unfold Dev.pulse at h
  split at h
  · cases h; rfl
  · split at h
    · cases h
    · split at h
      · cases h
      · cases h; rfl

theorem devCommit_wip (d : Dev) : d.commit.wip = false := by
  unfold Dev.commit
  split
  · split <;> rfl
  · simp_all

/-- No move of another agent starts a write cycle. -/
theorem keptEnv_wip : KeptEnv (fun s t => s.dev.wip = false → t.dev.wip = false) where
  refl _ := id
  trans h1 h2 := fun h => h2 (h1 h)
  ctl _ _ := id
  draws _ _ := id
  sched _ _ := id
  pulse e := by
    obtain ⟨d, n, hd, rfl⟩ := pulse_shape e
    exact fun h => (pulse_wip hd).trans h
  commit s := fun _ => devCommit_wip s.dev
  line _ _ := id

/-- An event whose attempt is held was the settle wait, and the device has committed. -/
theorem attempt_ev_held {a : Act} {s t : State} (h : attempt (.ev a) s = .held t) : t.dev.wip = false := by
  simp only [attempt] at h
  split at h
  · cases h
  · rename_i s' _
    split at h
    · cases h; exact devCommit_wip s'.dev
    · rcases hp : perform a s' with e | u <;> simp [hp, Move.ofExcept] at h

/-- Without a write cycle no event is held. -/
theorem attempt_ev_notHeld {a : Act} {s t : State} (hw : s.dev.wip = false) : attempt (.ev a) s ≠ .held t := by
  intro h
  simp only [attempt] at h
  split at h
  · cases h
  · rename_i s' he
    have hw' : s'.dev.wip = false := keptEnv_wip.envPoint he hw
    rw [show waitHeld a s' = false by simp [waitHeld, hw']] at h
    rcases hp : perform a s' with e | u <;> simp [hp, Move.ofExcept] at h

/-- No event is held at the end of its step. -/
theorem item_ev_notHeld (a : Act) (s t : State) : item (.ev a) s ≠ .held t := by
  intro h
  rw [item, show holdTries = 19 + 1 + 1 from rfl, attempts] at h
  rcases h1 : attempt (.ev a) s with u | u | ⟨u, f⟩ | e <;> simp only [h1] at h
  · cases h
  · rw [attempts] at h
    rcases h2 : attempt (.ev a) u with v | v | ⟨v, f⟩ | e <;> simp only [h2] at h
    · cases h
    · exact attempt_ev_notHeld (attempt_ev_held h1) h2
    · cases h
    · cases h
  · cases h
  · cases h

/-! The whole run. -/

/-- A sequence without a poll is not held. -/
theorem runSeq_notHeld (ms : List Micro) (h : NoPoll ms) : ∀ s t, runSeq ms s ≠ .held t := by
  induction ms with
  | nil => intro s t e; cases e
  | cons m ms ih =>
    intro s t e
    rw [runSeq] at e
    rcases ha : item m s with u | u | ⟨u, f⟩ | x <;> simp only [ha] at e
    · exact ih (fun f hf => h f (List.mem_cons_of_mem _ hf)) _ _ e
    · cases m with
      | reg u' => cases ha
      | ev a => exact item_ev_notHeld a s u ha
      | poll g => exact h g List.mem_cons_self
    · cases e
    · cases e

/-- A sequence that is done has left SEQ IDLE. -/
theorem runSeq_went_seq (ms : List Micro) : ∀ {s t : State}, s.seq = ms → runSeq ms s = .went t → t.seq = [] := by
  induction ms with
  | nil => intro s t hs e; cases e; exact hs
  | cons m ms ih =>
    intro s t _ e
    rw [runSeq] at e
    rcases ha : item m s with u | u | ⟨u, f⟩ | x <;> simp only [ha] at e
    · exact ih rfl e
    · cases e
    · cases e
    · cases e

/-- An operation whose sequence has no poll has run to its end when it has a next state. -/
theorem runOp_noPoll {ms : List Micro} {s t : State} (h : NoPoll ms) (e : runOp ms s = .next t) : t.seq = [] := by
  unfold runOp at e
  rcases hr : runSeq ms (s.setSeq ms) with u | u | ⟨u, f⟩ | x
  · rw [hr] at e
    cases e
    exact runSeq_went_seq ms rfl hr
  · exact absurd hr (runSeq_notHeld ms h _ u)
  · exact absurd hr (runSeq_noPoll ms h _ u f)
  · rw [hr] at e
    cases e

theorem seq_of_notBusy {s : State} (h : ¬ s.busy = true) : s.seq = [] := by simpa [State.busy] using h

/-- A host operation without a poll, refused by a check or run whole. -/
theorem runHost_noPoll {op : BitVec 4} {a d l : Half} {f : State → List Micro} {s t : State}
    (h : ∀ u : State, u.params = s.params → NoPoll (f u)) (e : runHost op a d l f s = .next t) : t.seq = [] := by
  unfold runHost at e
  split at e
  · cases e
  · rename_i hb
    split at e
    · cases e; exact seq_of_notBusy hb
    · exact runOp_noPoll (h (accept l (latch op a d l s)) rfl) e

theorem runTransport_noPoll {ms : List Micro} {s t : State} (h : NoPoll ms) (e : runTransport ms s = .next t) :
    t.seq = [] := by
  unfold runTransport at e
  split at e
  · cases e
  · exact runOp_noPoll h e

/-- A frame does not touch SEQ, which is IDLE when the frame is applied. -/
theorem runFrame_seq {bytes dummies : List Byte} {s t : State} (e : runFrame bytes dummies s = .next t) : t.seq = [] := by
  have hb : ¬ s.busy = true := fun h => by simp [runFrame, h] at e
  have hwire : KeptWire (fun s t => t.seq = s.seq) := by
    intro k vs s t e
    obtain ⟨d, n, -, rfl⟩ := exchangeAll_shape e
    rfl
  exact (kept_seq.runFrame hwire e).trans (seq_of_notBusy hb)

/-- Settles O47: by the instruction, each sequence of bit-bang mode having no poll. -/
theorem bitbangNeverBlocks : Obligations.BitbangNeverBlocks := by
  intro s t i hm e
  have hmode : ∀ u : State, u.params = s.params → u.params.mode = .bitbang := fun u hu => by rw [hu, hm]
  cases i with
  | wren => exact runFrame_seq e
  | write a d => exact runFrame_seq e
  | read a d => exact runFrame_seq e
  | init a d l =>
    rw [exec_init] at e
    exact runHost_noPoll (fun u hu => noPoll_initSeq (hmode u hu)) e
  | readByte a d l =>
    rw [exec_readByte] at e
    exact runHost_noPoll (fun u hu => by simp [readByteSeq, noPoll_readFrameSeq (hmode u hu)]) e
  | writeByte a d l =>
    rw [exec_writeByte] at e
    exact runHost_noPoll (fun u hu => by simp [writeByteSeq, noPoll_writeFrameSeq (hmode u hu)]) e
  | readWord a d l =>
    rw [exec_readWord] at e
    exact runHost_noPoll (fun u hu => by simp [readWordSeq, noPoll_readFrameSeq (hmode u hu)]) e
  | writeWord a d l =>
    rw [exec_writeWord] at e
    exact runHost_noPoll (fun u hu => by simp [writeWordSeq, noPoll_writeFrameSeq (hmode u hu)]) e
  | readArray a d l =>
    rw [exec_readArray] at e
    exact runHost_noPoll (fun u hu => noPoll_readArraySeq (hmode u hu) _) e
  | writeArray a d l =>
    rw [exec_writeArray] at e
    exact runHost_noPoll (fun u hu => noPoll_writeArraySeq (hmode u hu) _) e
  | eraseAll a d l =>
    rw [exec_eraseAll] at e
    exact runHost_noPoll (fun u hu => noPoll_eraseAllSeq (hmode u hu)) e
  | reservedHost k a d l =>
    rw [exec_reservedHost] at e
    exact runHost_noPoll (fun _ _ => noPoll_nil) e
  | sendByte d =>
    rw [exec_sendByte] at e
    exact runTransport_noPoll (noPoll_callSendByte hm _) e
  | sendWord d =>
    rw [exec_sendWord] at e
    exact runTransport_noPoll (noPoll_callSendWord hm _) e
  | receiveByte d =>
    rw [exec_receiveByte] at e
    exact runTransport_noPoll (by simp [noPoll_recvByteSeq hm]) e
  | reservedTransport d => cases e

end Sys2Proof.Machine

/-! PROOFS. The host operations run to their end (41_command_framer.md, 42_array_operations.md, 43_erase_and_init.md):
INIT, the reads, the writes under O-SETTLE and without it. -/

namespace Sys2Proof.Machine

open Sys2Proof

/-! What a command latches, and what its response leaves. -/

theorem begun_eq (op : BitVec 4) (addr data len : Half) (s : State) :
    begun op addr data len s = { s with
      bracketWrite := false, tierLow := false
      regs := { s.regs with op := op, addr := addr, wdata := data, len := lo8 len, status := Status.ok.code }
      trace := .cmd op addr data len :: s.trace } := rfl

theorem answered_eq (d : Half) (s : State) :
    answered d s = { s with
      regs := { s.regs with rspStatus := s.regs.status, rspData := d }
      trace := .rsp s.regs.status d :: s.trace } := rfl

/-! Reads between idle lines. The parameters, the address and the byte are named apart from the state, so that what a
frame leaves is said without the state before it. -/

/-- A READ frame of one byte between idle lines. -/
theorem readFrame_idle {s : State} {p : Params} {e : Dev} {a : Half} {b : Byte} (dst : Upd)
    (hdst : dst = .takeLo ∨ dst = .takeHi) (hL : Linked s) (hI : LinesIdle s) (hw : s.dev.wip = false) (hp : s.params = p) (he : s.dev = e)
    (ha : s.regs.addr = a) (hb : eeRead s a.toNat = b) (hA : a.toNat < 4096) :
    ∃ t r0 r1 r2, Runs (readFrameSeq p dst) s t ∧
      visible t = visible (gotByte dst b (bracketed e
        ⟨[Config.opcRead, hi8 a, lo8 a, dummySeen p a], [r0, r1, r2, b], [b]⟩ (readTrace p a [b]) s)) := by
  subst hp he ha hb
  obtain ⟨hd, ho, hf⟩ := hI
  obtain ⟨t, r0, r1, r2, run, vis⟩ := readFrame_spec dst hdst hL hd ho hw hA
  rw [frame_none hf, shut_high ho] at vis
  exact ⟨t, r0, r1, r2, run, vis⟩

/-- Settles O17: one READ frame. -/
theorem readByteCompletes : Obligations.ReadByteCompletes := by
  intro s addr data len hR hA
  obtain ⟨hL, -⟩ := begun_facts 0x1#4 addr data len hR
  obtain ⟨hseq, hinit, -, hI, hw⟩ := hR
  obtain ⟨b, hb⟩ : ∃ b, eeRead s addr.toNat = b := ⟨_, rfl⟩
  obtain ⟨t, r0, r1, r2, run, vis⟩ :=
    readFrame_idle (s := begun 0x1#4 addr data len s) (p := s.params) (e := s.dev) (a := addr) .takeLo (.inl rfl) hL hI
      hw rfl rfl rfl hb hA
  have hrdata : t.regs.rdata = joinHL (hi8 s.regs.rdata) b := visible_rdata vis
  have hrsp := rsp_spec (src := .byte) (visible_linked vis hL).1
  rw [rspValue, hrdata, lo8_joinHL] at hrsp
  have hexec := runHost_runs (f := fun t => readByteSeq t.params) hseq (startCheck_byte (.inl rfl) hinit hA)
    (Runs.append run hrsp)
  refine ⟨_, r0, r1, r2, (exec_readByte addr data len s).trans hexec, rfl, ?_⟩
  rw [finish_visible vis, hb]
  simp only [answered_eq, begun_eq, gotByte, bracketed, doneRegs, opTrace]
  rfl

theorem visible_linesIdle {s t : State} (h : visible t = visible s) (hI : LinesIdle s) : LinesIdle t := by
  obtain ⟨hd, ho, hf⟩ := hI
  exact ⟨(visible_dirCs h).trans hd, (visible_outCs h).trans ho, by rw [visible_dev h]; exact hf⟩

theorem eeRead_congr {s t : State} (h : t.dev = s.dev) (a : Nat) : eeRead t a = eeRead s a := by
  simp only [eeRead, h]

/-- What a READ frame between idle lines leaves. -/
theorem readFrame_leaves {s t : State} {dst : Upd} {b : Byte} {e : Dev} {rec : FrameRec} {tr : List Event}
    (vis : visible t = visible (gotByte dst b (bracketed e rec tr s))) :
    t.params = s.params ∧ t.dev = e ∧ t.regs.addr = s.regs.addr ∧ (Linked s → e.line = s.dev.line → Linked t) ∧
      (LinesIdle s → e.frame = none → LinesIdle t) :=
  ⟨(visible_params vis).trans rfl, visible_dev vis, (visible_addr vis).trans rfl,
    fun ⟨h1, h2, h3, h4⟩ hl => visible_linked vis ⟨h1, h2, h3, hl.trans h4⟩,
    fun ⟨h1, h2, _⟩ hf => visible_linesIdle vis ⟨h1, h2, hf⟩⟩

/-- Settles O18: two READ frames, ADDR stepped between them. -/
theorem readWordCompletes : Obligations.ReadWordCompletes := by
  intro s addr data len hR hA
  obtain ⟨hL, -⟩ := begun_facts 0x3#4 addr data len hR
  obtain ⟨hseq, hinit, -, hI, hw⟩ := hR
  obtain ⟨b1, hb1⟩ : ∃ b, eeRead s addr.toNat = b := ⟨_, rfl⟩
  obtain ⟨b2, hb2⟩ : ∃ b, eeRead s (addr.toNat + 1) = b := ⟨_, rfl⟩
  have hsucc : (addr + 1).toNat = addr.toNat + 1 := toNat_succ hA
  obtain ⟨t1, r0, r1, r2, run1, vis1⟩ := readFrame_idle (s := begun 0x3#4 addr data len s) (p := s.params) (e := s.dev)
    (a := addr) .takeHi (.inr rfl) hL hI hw rfl rfl rfl hb1 (Nat.lt_of_succ_lt hA)
  obtain ⟨hparams, hdev, haddr, hlinked, hidle⟩ := readFrame_leaves vis1
  obtain ⟨t2, q0, q1, q2, run2, vis2⟩ := readFrame_idle (s := stepped t1) (p := s.params) (e := s.dev) (a := addr + 1)
    (b := b2) .takeLo (.inl rfl) (hlinked hL rfl) (hidle hI hI.2.2) (by rw [← hdev] at hw; exact hw) hparams hdev
    (congrArg (· + 1) haddr) ((eeRead_congr (t := stepped t1) hdev _).trans (by rw [hsucc]; exact hb2))
    (by rw [hsucc]; exact hA)
  obtain ⟨-, -, -, hlinked2, -⟩ := readFrame_leaves vis2
  have hL2 : Linked t2 := hlinked2 (hlinked hL rfl) (congrArg Dev.line hdev).symm
  have hword : t2.regs.rdata = joinHL (hi8 t1.regs.rdata) b2 := visible_rdata vis2
  rw [gotByte_visible _ _ (bracketed_visible _ _ _ (stepped_visible vis1))] at vis2
  have hhigh : t1.regs.rdata = joinHL b1 (lo8 s.regs.rdata) := visible_rdata vis1
  rw [hhigh, hi8_joinHL] at hword
  have hrsp := rsp_spec (src := .word) hL2.1
  rw [rspValue, hword] at hrsp
  have hexec := runHost_runs (f := fun t => readWordSeq t.params) hseq (startCheck_word (.inl rfl) hinit hA)
    (Runs.append (Runs.append run1 (Runs.cons (addrInc_spec t1) run2)) hrsp)
  refine ⟨_, r0, r1, r2, q0, q1, q2, (exec_readWord addr data len s).trans hexec, rfl, ?_⟩
  rw [finish_visible vis2, hb1, hb2]
  simp only [answered_eq, stepped, begun_eq, gotByte, bracketed, doneRegs, opTrace, List.reverse_append,
    List.append_assoc, reduceCtorEq, if_true, if_false, hi8_joinHL]
  rfl


/-! The array operations: their bracket, and the tier calls around it. -/

/-- What an array operation's bracket leaves between idle lines: IDX, WAITCNT, BUF and the device as given, the frames and
the events on record. -/
def worked (i : Byte) (w : Nat) (m : Memory) (d : Dev) (fs : List FrameRec) (tr : List Event) (s : State) : State :=
  { s with
    regs := { s.regs with idx := i, waitcnt := w }
    buf := m, dev := d, frames := fs ++ s.frames, trace := tr.reverse ++ s.trace }

theorem worked_visible {s t : State} {i : Byte} {w : Nat} {m : Memory} {d : Dev} {fs : List FrameRec} {tr : List Event}
    (h : visible t = visible s) : visible (worked i w m d fs tr t) = visible (worked i w m d fs tr s) :=
  congrArg (worked i w m d fs tr) h

/-- What an open bracket has of the state before it. -/
theorem onFrame_leaves {s t : State} {f : Frame} {tr : List Event} (vis : visible t = visible (onFrame f tr (csDown s))) :
    t.params = s.params ∧ t.dev = { s.dev with frame := some f } ∧ t.buf = s.buf ∧ t.pins.dirCs = s.pins.dirCs ∧
      t.pins.outCs = false ∧ (Linked s → Linked t) :=
  ⟨(visible_params vis).trans rfl, visible_dev vis, (visible_buf vis).trans rfl, (visible_dirCs vis).trans rfl,
    visible_outCs vis, fun h => visible_linked vis h⟩

/-- The bracket of READ_ARRAY (42_array_operations.md R193, B1 to B5). -/
theorem readBracket_spec {s : State} {p : Params} {e : Dev} {a : Half} {bs : List Byte} {n : Nat} (hL : Linked s)
    (hI : LinesIdle s) (hw : s.dev.wip = false) (hp : s.params = p) (he : s.dev = e) (ha : s.regs.addr = a)
    (hbs : eeBytes s a.toNat n = bs) (hA : a.toNat < 4096) (hlen : a.toNat + n ≤ 4096) (hn : n ≤ 255) :
    ∃ t r0 r1 r2, Runs (readHead p ++ .reg .idxZero :: repeatSeq n (readArrayTurn p) ++ csDeassert) s t ∧
      visible t = visible (worked (BitVec.ofNat 8 n) s.regs.waitcnt (Memory.writeList s.buf 0 bs) e
        [⟨Config.opcRead :: hi8 a :: lo8 a :: List.replicate n (dummySeen p a), r0 :: r1 :: r2 :: bs, bs⟩]
        (readTrace p a bs) s) := by
  subst hp he ha
  obtain ⟨hd, ho, hf⟩ := hI
  obtain ⟨t1, r0, r1, r2, run1, vis1, se1⟩ := readHead_spec hL hd ho hw hA
  obtain ⟨hp1, hdev1, hbuf1, hdir1, hout1, hlinked1⟩ := onFrame_leaves vis1
  have hdev : (withIdx 0 t1).dev = _ := hdev1
  have hbs1 : eeBytes (withIdx 0 t1) s.regs.addr.toNat n = bs := (eeBytes_congr (by rw [hdev]) _ _).trans hbs
  obtain ⟨t2, r', run2, vis2⟩ := readTurns_spec n (s := withIdx 0 t1) (ah := hi8 s.regs.addr) (al := lo8 s.regs.addr)
    (r0 := r2) (xs := []) (rs := [r0, r1, r2]) (rv := []) (hlinked1 hL) (by rw [hdev]) se1 (by simpa using hA)
    (by simpa using hlen) (by simpa [withIdx] using Nat.lt_succ_of_le hn)
  simp only [List.length_nil, Nat.add_zero, frameAddr_hi8_lo8, hbs1, List.nil_append, List.cons_append] at vis2
  have hp : (withIdx 0 t1).params = s.params := hp1
  have hbuf : (withIdx 0 t1).buf = s.buf := hbuf1
  rw [hp] at run2 vis2
  rw [hbuf] at vis2
  have hidx : (withIdx 0 t1).regs.idx = 0#8 := rfl
  rw [hidx, BitVec.zero_add] at vis2
  have hdev2 := visible_dev vis2
  simp only [withBuf, withIdx, onFrame, hdev1] at hdev2
  have hpins : ({ s.pins with outCs := true } : Pins) = s.pins := by rw [← ho]
  obtain ⟨t3, run3, vis3, -, -⟩ := csDeassert_spec (s := t2) (acc := 0) (r0 := r')
    (b := Config.opcRead :: hi8 s.regs.addr :: lo8 s.regs.addr :: List.replicate n (dummySeen s.params s.regs.addr))
    (rs := r0 :: r1 :: r2 :: bs) (rv := bs)
    (d := s.dev) (n := t2.draws) (visible_linked vis2 (hlinked1 hL))
    ((visible_dirCs vis2).trans (hdir1.trans hd)) ((visible_outCs vis2).trans hout1) (by rw [hdev2]; rfl)
    (by rw [act_read, hdev2]; exact congrArg (·, t2.draws) (frame_none hf))
  refine ⟨t3, r0, r1, r2, ?_, ?_⟩
  · exact Runs.append (Runs.append run1 (Runs.cons (Runs.reg .idxZero t1) run2)) run3
  · rw [vis3, shut_visible _ _ _ (vis2.trans (withBuf_visible _ (withIdx_visible _ (onFrame_visible _ _
      (withIdx_visible 0 vis1)))))]
    simp only [shut, withBuf, withIdx, onFrame, csDown, worked, readTrace, List.reverse_append, List.append_assoc, hpins]
    rfl


/-- What the first tier call leaves. -/
theorem tierIf_leaves {s t : State} {n : Nat} (vis : visible t = visible (tierIf n s)) :
    t.params = s.params ∧ t.dev = s.dev ∧ t.buf = s.buf ∧ t.regs.addr = s.regs.addr ∧
      t.regs.waitcnt = s.regs.waitcnt ∧ (Linked s → Linked t) ∧ (LinesIdle s → LinesIdle t) := by
  obtain ⟨hp, hpins, hdev, hregs, hbuf, hL⟩ := tierIf_facts n s
  refine ⟨(visible_params vis).trans hp, (visible_dev vis).trans hdev, (visible_buf vis).trans hbuf,
    (visible_addr vis).trans (by rw [hregs]), (congrArg (fun x => x.regs.waitcnt) vis).trans ?_,
    fun h => visible_linked vis (hL h), fun ⟨h1, h2, h3⟩ => visible_linesIdle vis ?_⟩
  · show (tierIf n s).regs.waitcnt = _
    rw [hregs]
  · exact ⟨by rw [hpins]; exact h1, by rw [hpins]; exact h2, by rw [hdev]; exact h3⟩

/-- The tier calls on both sides of a bracket. -/
theorem tierIf_worked {i : Byte} {w : Nat} {m : Memory} {d : Dev} {fs : List FrameRec} {tr : List Event} (s : State) :
    tierIf s.params.tierHigh (worked i w m d fs tr (tierIf s.params.tierLow s)) =
      { worked i w m d fs (throttled s.params tr) s with
        tier := if s.params.hasThrottle then s.params.tierHigh else s.tier } := by
  rcases h : s.params.hasThrottle <;> simp [tierIf, worked, throttled, tiered, h]

/-- The end of an array operation: the second tier call and the response. -/
theorem array_finish {s t0 t3 : State} {op : BitVec 4} {addr data len : Half} {i : Byte} {w : Nat} {m : Memory} {d : Dev}
    {fs : List FrameRec} {tr : List Event} (hq : s.sched = [])
    (vis0 : visible t0 = visible (tierIf s.params.tierLow (begun op addr data len s)))
    (vis3 : visible t3 = visible (worked i w m d fs tr t0)) :
    ∃ t, Runs (throttleUp s.params ++ [.ev (.rsp .zero)]) t3 t ∧
      visible (t.setSeq []) = visible { s with
        regs := { doneRegs s.regs op addr data len 0 with idx := i, waitcnt := w }
        tier := if s.params.hasThrottle then s.params.tierHigh else s.tier
        buf := m, dev := d, frames := fs ++ s.frames
        trace := opTrace op addr data len (throttled s.params tr) .ok 0 s.trace } := by
  have vis := vis3.trans (worked_visible vis0)
  obtain ⟨hp, -⟩ := tierIf_leaves vis0
  have hp3 : t3.params = s.params := ((visible_params vis3).trans rfl).trans hp
  have hq0 : (tierIf s.params.tierLow (begun op addr data len s)).sched = [] := by
    unfold tierIf
    split <;> exact hq
  have hq3 : t3.sched = [] := (congrArg (fun x => x.sched) vis).trans hq0
  obtain ⟨t4, run, vis4⟩ := throttleUp_spec hq3
  have hw := tierIf_worked (i := i) (w := w) (m := m) (d := d) (fs := fs) (tr := tr) (begun op addr data len s)
  rw [hp3] at run vis4
  have vis5 := vis4.trans ((tierIf_visible _ vis).trans (congrArg visible hw))
  refine ⟨_, Runs.append run (rsp_spec (src := .zero) ((congrArg (fun x => x.sched) vis5).trans hq)), ?_⟩
  rw [rspValue, finish_visible vis5]
  simp only [answered_eq, worked, begun_eq, doneRegs, opTrace]
  rfl

/-- Settles O19: the READ bracket inside the tier calls, BUF read back entry by entry. -/
theorem readArrayCompletes : Obligations.ReadArrayCompletes := by
  intro s addr data len hR harr hlen hA hend
  obtain ⟨hL, -⟩ := begun_facts 0x5#4 addr data len hR
  obtain ⟨hseq, hinit, -, hI, hw⟩ := hR
  have hlen8 : (begun 0x5#4 addr data len s).regs.len.toNat = len.toNat := lo8_toNat hlen
  obtain ⟨t0, run0, vis0, -⟩ := throttleDown_spec (s := begun 0x5#4 addr data len s) hL.1
  obtain ⟨hp0, hdev0, hbuf0, haddr0, hwait0, hL0, hI0⟩ := tierIf_leaves vis0
  obtain ⟨t3, r0, r1, r2, run3, vis3⟩ := readBracket_spec (p := s.params) (e := s.dev) (a := addr)
    (bs := eeBytes s addr.toNat len.toNat) (hL0 hL) (hI0 hI) (by rw [hdev0]; exact hw) hp0 hdev0 haddr0
    (eeBytes_congr (by rw [hdev0]; rfl) _ _) hA hend hlen
  rw [hbuf0, hwait0, ofNat_toNat_lo8] at vis3
  obtain ⟨t, run, vis⟩ := array_finish (s := s) hL.1 vis0 vis3
  have hrun : Runs (readArraySeq s.params (begun 0x5#4 addr data len s).regs.len.toNat) (begun 0x5#4 addr data len s) t := by
    have h := Runs.append (Runs.append run0 run3) run
    rw [hlen8]
    simp only [readArraySeq, List.append_assoc] at h ⊢
    exact h
  have hexec := runHost_runs (f := fun t => readArraySeq t.params t.regs.len.toNat) hseq
    (startCheck_array (.inl rfl) hinit harr hlen hA hend) hrun
  refine ⟨t.setSeq [], r0, r1, r2, (exec_readArray addr data len s).trans hexec, rfl, ?_, fun i => ?_⟩
  · rw [visible_buf vis, vis]
    rfl
  · have hbuf : t.buf = _ := visible_buf vis
    rw [show (t.setSeq []).buf = _ from hbuf, Memory.read_writeList, eeBytes_length]
    simp only [Nat.zero_le, true_and, Nat.zero_add, Nat.sub_zero]
    split
    · rename_i hi
      rw [eeBytes_get _ _ _ _ hi]
    · rfl


/-! INIT (43_erase_and_init.md R203). -/

/-- Its pins let the transport work. -/
theorem linked_initLines {s : State} {tr : List Event} (hq : s.sched = []) (hline : s.dev.line = Line.sound)
    (hctl : s.params.mode = .controller →
      s.params.ctrlAtomic = true ∧ s.ctl.live = true ∧ s.ctl.txrdy = true ∧ s.params.pollBudget ≠ some 0) :
    Linked { s with pins := initLines s.pins s.params.mode, trace := tr } := by
  refine ⟨hq, fun hm => ?_, hctl, hline⟩
  have hm : s.params.mode = .bitbang := hm
  simp [initLines, hm]

theorem setInited_visible {s t : State} (h : visible t = visible s) :
    visible (applyUpd .setInited t) = visible (applyUpd .setInited s) := congrArg (applyUpd .setInited) h

/-- The last bit of the enable pulse is 0, and data-out stays at it. -/
theorem outMosi_of_seen_wren {s : State} (h : seen s = seenAfter s.params Config.opcWren) (hm : s.params.mode = .bitbang) :
    s.pins.outMosi = false := by
  rcases ho : s.pins.outMosi
  · rfl
  · simp only [seen, seenAfter, hm, ho, if_true] at h
    exact absurd h (by decide)

/-- Settles O16: the pins, the enable pulse, the response with INITED. -/
theorem initCompletes : Obligations.InitCompletes := by
  intro s addr data len hseq hq ho hf hw hline hctl
  have hx : isAsync s = false := by
    unfold isAsync
    rcases hm : s.params.mode
    · rfl
    · simp [(hctl hm).1]
  have hrun1 := initPins_spec (s := begun 0x0#4 addr data len s) hq hx ho
  generalize hs1 : ({ begun 0x0#4 addr data len s with
      pins := initLines (begun 0x0#4 addr data len s).pins (begun 0x0#4 addr data len s).params.mode
      trace := _ } : State) = s1 at hrun1
  have hL1 : Linked s1 := hs1 ▸ linked_initLines (s := begun 0x0#4 addr data len s) hq hline hctl
  have hp1 : s1.params = s.params := by rw [← hs1]; rfl
  have hd1 : s1.dev = s.dev := by rw [← hs1]; rfl
  have hdir1 : s1.pins.dirCs = .output := by
    rw [← hs1]
    show (initLines s.pins s.params.mode).dirCs = _
    unfold initLines
    split <;> rfl
  have hout1 : s1.pins.outCs = true := by
    rw [← hs1]
    show (initLines s.pins s.params.mode).outCs = _
    unfold initLines
    split <;> exact ho
  obtain ⟨t, r, run2, vis, hseen⟩ := wrenPulse_spec hL1 hdir1 hout1 (by rw [hd1]; exact hw)
  have hdev : ({ s1.dev with wel := true, frame := none } : Dev) = { s.dev with wel := true } := by rw [hd1, ← hf]
  rw [hp1] at run2 vis
  rw [hdev, shut_high hout1] at vis
  have hpt : t.params = s.params := ((visible_params vis).trans rfl).trans hp1
  have hdt : t.dev = { s.dev with wel := true } := visible_dev vis
  have hLt : Linked t := visible_linked vis ⟨hL1.1, hL1.2.1, hL1.2.2.1, hline⟩
  have hready : Ready ((answered 0 (applyUpd .setInited t)).setSeq []) :=
    ⟨rfl, rfl, hLt, ⟨(visible_dirCs vis).trans hdir1, (visible_outCs vis).trans hout1, (congrArg Dev.frame hdt).trans hf⟩,
      (congrArg Dev.wip hdt).trans hw⟩
  have hexec := runHost_runs (f := fun t => initSeq t.params) hseq (startCheck_init addr len s)
    (Runs.append (Runs.append hrun1 run2) (initEnd_spec hLt.1))
  refine ⟨_, r, (exec_init addr data len s).trans hexec, hready, ?_, fun hm => ?_⟩
  · rw [finish_visible (setInited_visible vis), ← hs1]
    simp only [answered_eq, applyUpd, State.setRegs, bracketed, begun_eq, doneRegs, opTrace, initTrace, initPinsTrace,
      initLines, List.reverse_append, List.append_assoc]
    rcases hm : s.params.mode <;> simp [visible, hm, ho]
  · have h : t.pins.outMosi = false := outMosi_of_seen_wren (by rw [hseen, hp1, hpt]) (by rw [hpt]; exact hm)
    exact h


/-! Writes under O-SETTLE. -/

/-- The two frames of a write. -/
def writeFrames (a : Half) (ds : List Byte) (r : Byte) (rs : List Byte) : List FrameRec :=
  [⟨Config.opcWrite :: hi8 a :: lo8 a :: ds, rs, []⟩, ⟨[Config.opcWren], [r], []⟩]

/-- The device after a committed write. -/
def devWritten (d : Dev) (a : Nat) (ds : List Byte) : Dev :=
  { d with ee := Memory.writeList d.ee a ds, wel := false, wip := false, pending := none, frame := none }

/-- What a committed write leaves between idle lines: WAITCNT 0, the device as given, the frames and the events on
record. -/
def wrote (d : Dev) (fs : List FrameRec) (tr : List Event) (s : State) : State :=
  { s with
    regs := { s.regs with waitcnt := 0 }
    dev := d, frames := fs ++ s.frames, trace := tr.reverse ++ s.trace }

theorem wrote_visible {s t : State} {d : Dev} {fs : List FrameRec} {tr : List Event} (h : visible t = visible s) :
    visible (wrote d fs tr t) = visible (wrote d fs tr s) := congrArg (wrote d fs tr) h

theorem written_eq {s : State} {a : Half} {ds rs : List Byte} {r : Byte} (ho : s.pins.outCs = true) :
    written a ds ⟨[Config.opcWren], [r], []⟩ ⟨Config.opcWrite :: hi8 a :: lo8 a :: ds, rs, []⟩ s =
      wrote (devWritten s.dev a.toNat ds) (writeFrames a ds r rs) (writeTrace s.params a ds) s :=
  written_high ho

theorem wrote_leaves {s t : State} {d : Dev} {fs : List FrameRec} {tr : List Event}
    (vis : visible t = visible (wrote d fs tr s)) :
    t.params = s.params ∧ t.dev = d ∧ t.regs.addr = s.regs.addr ∧ t.regs.wdata = s.regs.wdata ∧
      (Linked s → d.line = s.dev.line → Linked t) ∧ (LinesIdle s → d.frame = none → LinesIdle t) :=
  ⟨(visible_params vis).trans rfl, visible_dev vis, (visible_addr vis).trans rfl, (visible_wdata vis).trans rfl,
    fun ⟨h1, h2, h3, h4⟩ hl => visible_linked vis ⟨h1, h2, h3, hl.trans h4⟩,
    fun ⟨h1, h2, _⟩ hf => visible_linesIdle vis ⟨h1, h2, hf⟩⟩

/-- A half of WDATA as the source of a send. -/
theorem srcValue_wdata {s : State} {src : Src} {b : Byte} {v : Half}
    (hsrc : (src = .wdataLo ∧ lo8 v = b) ∨ (src = .wdataHi ∧ hi8 v = b)) (hv : s.regs.wdata = v) :
    srcValue src s = (zext16 b, s.setDraws s.draws) := by
  rcases hsrc with ⟨rfl, rfl⟩ | ⟨rfl, rfl⟩ <;> simp only [srcValue, hv] <;> rfl

/-- A WRITE of one byte under O-SETTLE between idle lines. -/
theorem writeFrame_idle {s : State} {p : Params} {e : Dev} {a v : Half} {b : Byte} {src : Src}
    (hsrc : (src = .wdataLo ∧ lo8 v = b) ∨ (src = .wdataHi ∧ hi8 v = b)) (hL : Linked s) (hI : LinesIdle s)
    (hw : s.dev.wip = false) (hO : s.params.oSettle = true) (hp : s.params = p) (he : s.dev = e) (ha : s.regs.addr = a)
    (hv : s.regs.wdata = v) (hA : a.toNat < 4096) :
    ∃ t r rs, Runs (writeFrameSeq p src) s t ∧ rs.length = 4 ∧
      visible t = visible (wrote (devWritten e a.toNat [b]) (writeFrames a [b] r rs) (writeTrace p a [b]) s) := by
  subst hp he ha hv
  obtain ⟨hd, ho, hf⟩ := hI
  obtain ⟨t, r, r0, r1, r2, r3, run, vis⟩ := writeFrame_spec (src := src) (w := zext16 b)
    (fun t ht => srcValue_wdata hsrc ht) hL hd ho hw hO hA
  rw [lo8_zext16, written_eq ho] at vis
  exact ⟨t, r, [r0, r1, r2, r3], run, rfl, vis⟩

/-- Settles O20: one enable pulse, one WRITE frame, one settle wait. -/
theorem writeByteCompletes : Obligations.WriteByteCompletes := by
  intro s addr data len hR hO hA
  obtain ⟨hL, -⟩ := begun_facts 0x2#4 addr data len hR
  obtain ⟨hseq, hinit, -, hI, hw⟩ := hR
  obtain ⟨t, r, rs, run, hrs, vis⟩ := writeFrame_idle (s := begun 0x2#4 addr data len s) (p := s.params) (e := s.dev)
    (a := addr) (b := lo8 data) (.inl ⟨rfl, rfl⟩) hL hI hw hO rfl rfl rfl rfl hA
  obtain ⟨-, hdev, -, -, hlinked, -⟩ := wrote_leaves vis
  have hexec := runHost_runs (f := fun t => writeByteSeq t.params) hseq (startCheck_byte (.inr rfl) hinit hA)
    (Runs.append run (rsp_spec (src := .zero) (hlinked hL rfl).1))
  refine ⟨_, r, rs, (exec_writeByte addr data len s).trans hexec, rfl, hrs, ?_, ?_⟩
  · rw [rspValue, finish_dev vis, finish_visible vis]
    simp only [answered_eq, wrote, begun_eq, doneRegs, opTrace]
    rfl
  · exact committed_writeList (s := s) hdev

/-- Settles O21: two such writes, ADDR stepped between them. -/
theorem writeWordCompletes : Obligations.WriteWordCompletes := by
  intro s addr data len hR hO hA
  obtain ⟨hL, -⟩ := begun_facts 0x4#4 addr data len hR
  obtain ⟨hseq, hinit, -, hI, hw⟩ := hR
  have hsucc : (addr + 1).toNat = addr.toNat + 1 := toNat_succ hA
  obtain ⟨t1, r, rs, run1, hrs, vis1⟩ := writeFrame_idle (s := begun 0x4#4 addr data len s) (p := s.params) (e := s.dev)
    (a := addr) (b := hi8 data) (.inr ⟨rfl, rfl⟩) hL hI hw hO rfl rfl rfl rfl (Nat.lt_of_succ_lt hA)
  obtain ⟨hp1, hdev1, haddr1, hdata1, hlinked1, hidle1⟩ := wrote_leaves vis1
  obtain ⟨t2, q, qs, run2, hqs, vis2⟩ := writeFrame_idle (s := stepped t1) (p := s.params)
    (e := devWritten s.dev addr.toNat [hi8 data]) (a := addr + 1) (v := data) (b := lo8 data) (.inl ⟨rfl, rfl⟩)
    (hlinked1 hL rfl) (hidle1 hI rfl) (congrArg Dev.wip hdev1) ((congrArg Params.oSettle hp1).trans hO) hp1 hdev1
    (congrArg (· + 1) haddr1) hdata1 (by rw [hsucc]; exact hA)
  obtain ⟨-, hdev2, -, -, hlinked2, -⟩ := wrote_leaves vis2
  have hL2 : Linked t2 := hlinked2 (hlinked1 hL rfl) (congrArg Dev.line hdev1).symm
  have hexec := runHost_runs (f := fun t => writeWordSeq t.params) hseq (startCheck_word (.inr rfl) hinit hA)
    (Runs.append (Runs.append run1 (Runs.cons (addrInc_spec t1) run2)) (rsp_spec (src := .zero) hL2.1))
  rw [wrote_visible (stepped_visible vis1)] at vis2
  refine ⟨_, r, rs, q, qs, (exec_writeWord addr data len s).trans hexec, rfl, hrs, hqs, ?_, ?_⟩
  · rw [rspValue, finish_dev vis2, finish_visible vis2]
    simp only [answered_eq, stepped, wrote, begun_eq, doneRegs, opTrace, List.reverse_append, List.append_assoc]
    rfl
  · refine committed_writeList (s := s) (hdev2.trans ?_)
    simp only [devWritten, Memory.writeList, hsucc]


/-! WRITE_ARRAY, whatever its length and with or without O-SETTLE. -/

/-- The device after the settle wait. -/
def afterWait (p : Params) (d : Dev) : Dev := if p.oSettle then d.commit else d

/-- The head of the WRITE bracket and its data bytes (42_array_operations.md R190, A1 to A7). -/
theorem writeLoop_spec {s : State} {a : Half} {n : Nat} (hL : Linked s) (hd : s.pins.dirCs = .output)
    (ho : s.pins.outCs = true) (hw : s.dev.wip = false) (ha : s.regs.addr = a) (hA : a.toNat < 4096)
    (hlen : a.toNat + n ≤ 4096) (hn : n ≤ 255) :
    ∃ t r r0 rs vs, Runs (writeHead s.params ++ .reg .idxZero :: repeatSeq n (writeArrayTurn s.params)) s t ∧
      vs.length = n ∧ BufGives s.buf 0 vs ∧
      visible t = visible (onFrame ⟨Config.opcWrite :: hi8 a :: lo8 a :: vs, rs, 0, 0, r0, []⟩
        ([.drive .cs false] ++ sendAllTrace s.params (Config.opcWrite :: hi8 a :: lo8 a :: vs))
        (csDown (shut { s.dev with wel := true, frame := none } ⟨[Config.opcWren], [r], []⟩ (wrenTrace s.params)
          (withIdx (BitVec.ofNat 8 n) s)))) := by
  subst ha
  obtain ⟨t1, r, q0, q1, q2, run1, vis1⟩ := writeHead_spec hL hd ho hw hA
  obtain ⟨hp1, hdev1, hbuf1, -, -, hlinked1⟩ := onFrame_leaves vis1
  have hp : (withIdx 0 t1).params = s.params := hp1
  have hbuf : (withIdx 0 t1).buf = s.buf := hbuf1
  have hidx : (withIdx 0 t1).regs.idx = 0#8 := rfl
  obtain ⟨t2, vs, rs, r', run2, hvl, hgives, vis2⟩ := writeTurns_spec n (s := withIdx 0 t1) (ah := hi8 s.regs.addr)
    (al := lo8 s.regs.addr) (r0 := q2) (xs := []) (rs := [q0, q1, q2]) (rv := [])
    (hlinked1 ⟨hL.1, hL.2.1, hL.2.2.1, hL.2.2.2⟩) (congrArg Dev.frame hdev1) (by simpa using hA) (by simpa using hlen)
    (by simpa [withIdx] using Nat.lt_succ_of_le hn)
  rw [hp] at run2 vis2
  rw [hbuf] at hgives
  rw [hidx, BitVec.zero_add, List.nil_append, withIdx_visible _ (onFrame_visible _ _ (withIdx_visible 0 vis1))] at vis2
  refine ⟨t2, r, r', rs, vs, Runs.append run1 (Runs.cons (Runs.reg .idxZero t1) run2), hvl, hgives, vis2.trans ?_⟩
  simp only [onFrame, withIdx, csDown, shut, sendAllTrace, List.reverse_append, List.append_assoc, List.append_nil]

/-- The whole WRITE bracket and its settle wait (42_array_operations.md R190, A1 to A9). -/
theorem writeBracket_spec {s : State} {p : Params} {e : Dev} {a : Half} {n : Nat} (hL : Linked s) (hI : LinesIdle s)
    (hw : s.dev.wip = false) (hp : s.params = p) (he : s.dev = e) (ha : s.regs.addr = a) (hA : a.toNat < 4096)
    (hlen : a.toNat + n ≤ 4096) (hn : n ≤ 255) :
    ∃ t r rs vs k, Runs (writeHead p ++ .reg .idxZero :: repeatSeq n (writeArrayTurn p) ++ csDeassert ++ [.ev .wait]) s t ∧
      vs.length = n ∧ BufGives s.buf 0 vs ∧
      visible t = visible (worked (BitVec.ofNat 8 n) 0 s.buf
        (afterWait p (Dev.act (Config.opcWrite :: hi8 a :: lo8 a :: vs) { e with wel := true } k).1)
        (writeFrames a vs r rs) (writeTrace p a vs) s) := by
  subst hp he
  obtain ⟨hd, ho, hf⟩ := hI
  obtain ⟨t1, r, r0, rs, vs, run1, hvl, hgives, vis1⟩ := writeLoop_spec hL hd ho hw ha hA hlen hn
  obtain ⟨hp1, hdev1, hbuf1, hdir1, hout1, hlinked1⟩ := onFrame_leaves vis1
  have hL1 : Linked t1 := hlinked1 ⟨hL.1, hL.2.1, hL.2.2.1, hL.2.2.2⟩
  have hopen : ({ t1.dev with frame := none } : Dev) = { s.dev with wel := true } := by
    rw [hdev1]
    show ({ s.dev with wel := true, frame := none } : Dev) = _
    rw [← hf]
  obtain ⟨t2, run2, vis2, -, -⟩ := csDeassert_spec (s := t1) hL1 (hdir1.trans hd) hout1 (congrArg Dev.frame hdev1) rfl
  rw [hopen, shut_visible _ _ _ vis1] at vis2
  have hp2 : t2.params = s.params := (visible_params vis2).trans rfl
  have hq2 : t2.sched = [] := (congrArg (fun x => x.sched) vis2).trans hL.1
  have run3 := exitWaited_spec true hq2
  rw [if_pos rfl] at run3
  refine ⟨_, r, rs, vs, t1.draws, Runs.append (Runs.append run1 run2) run3, hvl, hgives, ?_⟩
  have hpins : ({ s.pins with outCs := true } : Pins) = s.pins := by rw [← ho]
  unfold exitWaited afterWait
  rw [if_pos rfl, hp2]
  split
  · rw [settled_visible vis2]
    simp only [settled, shut, onFrame, csDown, withIdx, worked, writeFrames, writeTrace, hpins, List.reverse_append,
      List.append_assoc]
    rfl
  · rw [unsettled_visible vis2]
    simp only [unsettled, shut, onFrame, csDown, withIdx, worked, writeFrames, writeTrace, hpins, List.reverse_append,
      List.append_assoc]
    rfl


/-- WRITE_ARRAY from a ready state, what it leaves of the device open. -/
theorem exec_writeArray_ready {s : State} {addr data len : Half} (hR : Ready s) (harr : s.params.hasArray = true)
    (hlen : len.toNat ≤ 255) (hA : addr.toNat < 4096) (hend : addr.toNat + len.toNat ≤ 4096) :
    ∃ t r rs vs k, exec (.writeArray addr data len) s = .next t ∧ t.seq = [] ∧
      vs.length = len.toNat ∧ BufGives s.buf 0 vs ∧
      visible t = visible { s with
        regs := { doneRegs s.regs 0x6#4 addr data len 0 with idx := lo8 len, waitcnt := 0 }
        tier := if s.params.hasThrottle then s.params.tierHigh else s.tier
        dev := afterWait s.params (Dev.act (Config.opcWrite :: hi8 addr :: lo8 addr :: vs) { s.dev with wel := true } k).1
        frames := writeFrames addr vs r rs ++ s.frames
        trace := opTrace 0x6#4 addr data len (throttled s.params (writeTrace s.params addr vs)) .ok 0 s.trace } := by
  obtain ⟨hL, -⟩ := begun_facts 0x6#4 addr data len hR
  obtain ⟨hseq, hinit, -, hI, hw⟩ := hR
  have hlen8 : (begun 0x6#4 addr data len s).regs.len.toNat = len.toNat := lo8_toNat hlen
  obtain ⟨t0, run0, vis0, -⟩ := throttleDown_spec (s := begun 0x6#4 addr data len s) hL.1
  obtain ⟨hp0, hdev0, hbuf0, haddr0, -, hL0, hI0⟩ := tierIf_leaves vis0
  obtain ⟨t3, r, rs, vs, k, run3, hvl, hgives, vis3⟩ := writeBracket_spec (p := s.params) (e := s.dev) (a := addr)
    (hL0 hL) (hI0 hI) (by rw [hdev0]; exact hw) hp0 hdev0 haddr0 hA hend hlen
  rw [hbuf0] at vis3 hgives
  rw [ofNat_toNat_lo8] at vis3
  obtain ⟨t, run, vis⟩ := array_finish (s := s) hL.1 vis0 vis3
  have hrun : Runs (writeArraySeq s.params (begun 0x6#4 addr data len s).regs.len.toNat) (begun 0x6#4 addr data len s) t := by
    have h := Runs.append (Runs.append run0 run3) run
    rw [hlen8]
    simp only [writeArraySeq, List.append_assoc] at h ⊢
    exact h
  have hexec := runHost_runs (f := fun t => writeArraySeq t.params t.regs.len.toNat) hseq
    (startCheck_array (.inr rfl) hinit harr hlen hA hend) hrun
  exact ⟨t.setSeq [], r, rs, vs, k, (exec_writeArray addr data len s).trans hexec, rfl, hvl, hgives, vis⟩

/-- A WRITE bracket with data has started the write cycle, its latch set before it. -/
theorem act_write_enabled {e : Dev} {a : Half} {vs : List Byte} (k : Nat) (hp : e.line.present = true) (hvs : vs ≠ []) :
    (Dev.act (Config.opcWrite :: hi8 a :: lo8 a :: vs) { e with wel := true } k).1 =
      { e with wel := true, wip := true, pending := some { addr := a.toNat, data := vs } } := by
  rw [act_write (hi8 a) (lo8 a) vs { e with wel := true } k hp hvs rfl, frameAddr_hi8_lo8]

/-- Settles O22: the cycle is committed in the settle wait. -/
theorem writeArrayCompletes : Obligations.WriteArrayCompletes := by
  intro s addr data len hR hO harr hpos hlen hend
  obtain ⟨t, r, rs, vs, k, hexec, hseq, hvl, hgives, vis⟩ :=
    exec_writeArray_ready (data := data) hR harr hlen (by omega) hend
  obtain ⟨-, -, hL, ⟨-, -, hf⟩, -⟩ := hR
  have hvs : vs ≠ [] := List.ne_nil_of_length_pos (by omega)
  have hdev : t.dev = devWritten s.dev addr.toNat vs := by
    rw [visible_dev vis, afterWait, if_pos hO, act_write_enabled k (present_linked hL) hvs, devWritten, ← hf]
    rfl
  refine ⟨t, r, rs, vs, hexec, hseq, hvl, hgives, ?_, committed_writeList hdev⟩
  rw [visible_dev vis]
  exact vis

/-- Settles O23: the device closes the frame with its latch open, and no cycle runs. -/
theorem writeArrayOfNothing : Obligations.WriteArrayOfNothing := by
  intro s addr data len hR harr hlen hA
  subst hlen
  obtain ⟨t, r, rs, vs, k, hexec, hseq, hvl, -, vis⟩ :=
    exec_writeArray_ready (data := data) (len := 0) hR harr (by decide) hA (by simpa using Nat.le_of_lt hA)
  obtain ⟨-, -, hL, -, hw⟩ := hR
  obtain rfl : vs = [] := List.eq_nil_of_length_eq_zero hvl
  have hidle : ({ s.dev with wel := Config.freeBit k } : Dev).commit = { s.dev with wel := Config.freeBit k } := by
    simp [Dev.commit, hw]
  have hact : (Dev.act [Config.opcWrite, hi8 addr, lo8 addr] { s.dev with wel := true } k).1 =
      { s.dev with wel := Config.freeBit k } :=
    congrArg Prod.fst (act_write_empty _ _ { s.dev with wel := true } k (present_linked hL))
  rw [hact, afterWait, hidle, ite_self] at vis
  exact ⟨t, r, rs, Config.freeBit k, hexec, hseq, vis⟩

/-! Writes without O-SETTLE (70_reset_and_hazards.md R262). -/

/-- The device while the write cycle of `ds` at `a` runs. -/
def devCycle (d : Dev) (a : Nat) (ds : List Byte) : Dev :=
  { d with wel := true, wip := true, pending := some { addr := a, data := ds } }

/-- A WRITE of one byte without O-SETTLE between idle lines: the wait is over at once, the cycle runs on. -/
theorem writeFrame_loose {s : State} {p : Params} {e : Dev} {a v : Half} {b : Byte} {src : Src}
    (hsrc : (src = .wdataLo ∧ lo8 v = b) ∨ (src = .wdataHi ∧ hi8 v = b)) (hL : Linked s) (hI : LinesIdle s)
    (hw : s.dev.wip = false) (hO : s.params.oSettle = false) (hp : s.params = p) (he : s.dev = e) (ha : s.regs.addr = a)
    (hv : s.regs.wdata = v) (hA : a.toNat < 4096) :
    ∃ t r rs, Runs (writeFrameSeq p src) s t ∧ rs.length = 4 ∧
      visible t = visible (wrote (devCycle e a.toNat [b]) (writeFrames a [b] r rs) (writeTrace p a [b]) s) := by
  subst hp he ha hv
  obtain ⟨hd, ho, hf⟩ := hI
  obtain ⟨t1, r, r0, r1, r2, r3, run1, vis1⟩ := writeBody_spec (src := src) (w := zext16 b)
    (fun t ht => srcValue_wdata hsrc ht) hL hd ho hw hA
  rw [lo8_zext16] at vis1
  obtain ⟨t2, run2, vis2⟩ := writeClose_spec hL hd (List.cons_ne_nil b []) vis1
  have hp2 : t2.params = s.params := (visible_params vis2).trans rfl
  have run3 := wait_open (s := t2) ((congrArg (fun x => x.sched) vis2).trans hL.1) (.inl (by rw [hp2]; exact hO))
  refine ⟨_, r, [r0, r1, r2, r3], Runs.append (Runs.append run1 run2) run3, rfl, ?_⟩
  have hpins : ({ s.pins with outCs := true } : Pins) = s.pins := by rw [← ho]
  have hdev : ({ s.dev with
      wel := true, frame := none, wip := true, pending := some { addr := s.regs.addr.toNat, data := [b] } } : Dev) =
      devCycle s.dev s.regs.addr.toNat [b] := by rw [devCycle, ← hf]
  rw [hdev] at vis2
  rw [unsettled_visible vis2]
  simp only [unsettled, shut, wrote, writeFrames, writeTrace, hpins, List.reverse_append, List.append_assoc]
  rfl


/-- A second WRITE opened while the first one's cycle runs is the fault DeviceBusyAccess (20_memory.md R80). -/
theorem secondWrite_faults {s0 s t0 t : State} {p : Params} {src : Src} {d : Dev} {fs : List FrameRec} {tr : List Event}
    {ms rest : List Micro} (run : Runs ms s0 t) (vis : visible t0 = visible (wrote d fs tr s)) (hq : s.sched = [])
    (hI : LinesIdle s) (ht : t.sched = t0.sched ∧ t.pins = t0.pins ∧ t.dev = t0.dev) (hp : d.line.present = true)
    (hw : d.wip = true) : runOp (ms ++ writeFrameSeq p src ++ rest) s0 = .fault .deviceBusyAccess := by
  obtain ⟨hts, htp, htd⟩ := ht
  obtain ⟨hd, ho, -⟩ := hI
  obtain ⟨more, hmore⟩ : ∃ more, writeFrameSeq p src = .reg (.bracketWrite false) :: .ev (.drive .cs false) :: more :=
    ⟨_, rfl⟩
  have hseq : ms ++ writeFrameSeq p src ++ rest =
      (ms ++ [.reg (.bracketWrite false)]) ++ .ev (.drive .cs false) :: (more ++ rest) := by
    simp [hmore]
  have hdev : t.dev = d := by rw [htd, visible_dev vis]; rfl
  rw [hseq]
  refine Runs.faults (Runs.append run (Runs.reg (.bracketWrite false) t))
    (hts.trans ((congrArg (fun x => x.sched) vis).trans hq)) (fun q => drivePin_cs_busy ?_ ?_ ?_ ?_)
  · show t.pins.dirCs = _
    rw [htp, visible_dirCs vis]
    exact hd
  · show t.pins.outCs = _
    rw [htp, visible_outCs vis]
    exact ho
  · show t.dev.line.present = _
    rw [hdev, hp]
  · show t.dev.wip = _
    rw [hdev, hw]

/-- ERASE_ALL of two addresses or more without O-SETTLE; the count is a variable, so that nothing unfolds 4096 turns. -/
theorem eraseLoop_faults {s : State} (n : Nat) (hL : Linked s) (hI : LinesIdle s) (hw : s.dev.wip = false)
    (hO : s.params.oSettle = false) :
    runOp (.reg .eraZero :: repeatSeq (n + 2) (eraseTurn s.params) ++ [.ev (.rsp .zero)]) s = .fault .deviceBusyAccess := by
  have hload : Runs [.reg .eraZero, .reg .eraLoad] s (applyUpd .eraLoad (applyUpd .eraZero s)) :=
    Runs.cons (Runs.reg .eraZero s) (Runs.reg .eraLoad _)
  obtain ⟨t, r, rs, run, -, vis⟩ := writeFrame_loose (s := applyUpd .eraLoad (applyUpd .eraZero s)) (p := s.params)
    (e := s.dev) (a := 0) (b := Config.eraseFill) (src := .wdataLo) (.inl ⟨rfl, lo8_joinHL (hi8 s.regs.wdata) _⟩) hL hI hw
    hO rfl rfl rfl rfl (by decide)
  have hnext : Runs [.reg .eraInc, .reg .eraLoad] t (applyUpd .eraLoad (applyUpd .eraInc t)) :=
    Runs.cons (Runs.reg .eraInc t) (Runs.reg .eraLoad _)
  have hfault := secondWrite_faults (p := s.params) (src := .wdataLo)
    (rest := .reg .eraInc :: repeatSeq n (eraseTurn s.params) ++ [.ev (.rsp .zero)])
    (Runs.append (Runs.append hload run) hnext) vis hL.1 hI ⟨rfl, rfl, rfl⟩ (present_linked hL) rfl
  rw [← hfault]
  simp [repeatSeq, eraseTurn]

/-- Settles O25: the cycle runs on; a second bracket meets it. -/
theorem writesWithoutSettle : Obligations.WritesWithoutSettle := by
  intro s addr data len hR hO
  have hpres : s.dev.line.present = true := present_linked hR.2.2.1
  refine ⟨fun hA => ?_, fun harr hpos hlen hend => ?_, fun hA => ?_, ?_⟩
  · obtain ⟨hL, -⟩ := begun_facts 0x2#4 addr data len hR
    obtain ⟨hseq, hinit, -, hI, hw⟩ := hR
    obtain ⟨t, r, rs, run, hrs, vis⟩ := writeFrame_loose (s := begun 0x2#4 addr data len s) (p := s.params) (e := s.dev)
      (a := addr) (b := lo8 data) (.inl ⟨rfl, rfl⟩) hL hI hw hO rfl rfl rfl rfl hA
    obtain ⟨-, -, -, -, hlinked, -⟩ := wrote_leaves vis
    have hexec := runHost_runs (f := fun t => writeByteSeq t.params) hseq (startCheck_byte (.inr rfl) hinit hA)
      (Runs.append run (rsp_spec (src := .zero) (hlinked hL rfl).1))
    refine ⟨_, r, rs, (exec_writeByte addr data len s).trans hexec, rfl, hrs, ?_⟩
    rw [rspValue, finish_visible vis]
    simp only [answered_eq, wrote, begun_eq, doneRegs, opTrace]
    rfl
  · obtain ⟨t, r, rs, vs, k, hexec, hseq, hvl, hgives, vis⟩ :=
      exec_writeArray_ready (data := data) hR harr hlen (by omega) hend
    have hvs : vs ≠ [] := List.ne_nil_of_length_pos (by omega)
    rw [afterWait, hO, act_write_enabled k hpres hvs] at vis
    exact ⟨t, r, rs, vs, hexec, hseq, hvl, hgives, vis⟩
  · obtain ⟨hL, -⟩ := begun_facts 0x4#4 addr data len hR
    obtain ⟨hseq, hinit, -, hI, hw⟩ := hR
    obtain ⟨t, r, rs, run, -, vis⟩ := writeFrame_loose (s := begun 0x4#4 addr data len s) (p := s.params) (e := s.dev)
      (a := addr) (b := hi8 data) (.inr ⟨rfl, rfl⟩) hL hI hw hO rfl rfl rfl rfl (Nat.lt_of_succ_lt hA)
    have hfault := secondWrite_faults (p := s.params) (src := .wdataLo) (rest := [.ev (.rsp .zero)])
      (Runs.append run (addrInc_spec t)) vis hL.1 hI ⟨rfl, rfl, rfl⟩ hpres rfl
    rw [exec_writeWord, runHost_accepted hseq (startCheck_word (.inr rfl) hinit hA), ← hfault]
    simp only [writeWordSeq, List.append_assoc]
    rfl
  · obtain ⟨hL, -⟩ := begun_facts 0x7#4 addr data len hR
    obtain ⟨hseq, hinit, -, hI, hw⟩ := hR
    rw [exec_eraseAll, runHost_accepted hseq (startCheck_erase hinit)]
    exact eraseLoop_faults 4094 hL hI hw hO

end Sys2Proof.Machine

/-! PROOFS. What every host command does from a ready state under O-SETTLE: it answers, leaves the block ready, and puts
only well-formed wire commands on the wire (10_state.md R52; 60_exceptions.md R218, R219; 30_encoding.md section 1). -/

namespace Sys2Proof.Machine

open Sys2Proof

/-! The frames. -/

/-- A frame on record is a well-formed wire command. -/
def WireFrame (out : List Byte) : Prop := ∃ i, decodeFrame out = .ok i ∧ i.wf = true

theorem wireFrame_wren : WireFrame [Config.opcWren] := ⟨.wren, rfl, rfl⟩

theorem wireFrame_write {a : Half} {ds : List Byte} (hA : a.toNat < 4096) (hds : ds.length ≤ 255) :
    WireFrame (Config.opcWrite :: hi8 a :: lo8 a :: ds) := by
  refine ⟨_, decodeFrame_write _ _ ds, ?_⟩
  simp [Instr.wf, wireAddrOk, wireLenOk, Config.capacity, Config.lenMax, hA, hds]

theorem wireFrame_read {a : Half} {xs : List Byte} (hA : a.toNat < 4096) (hxs : xs.length ≤ 255) :
    WireFrame (Config.opcRead :: hi8 a :: lo8 a :: xs) := by
  refine ⟨_, decodeFrame_read _ _ xs, ?_⟩
  simp [Instr.wf, wireAddrOk, wireLenOk, Config.capacity, Config.lenMax, hA, hxs]

/-- The frames of an erase loop. -/
theorem wireFrame_eraseOuts (n : Nat) : ∀ {a : Nat} {out : List Byte}, a + n ≤ 4096 → out ∈ eraseOuts a n →
    WireFrame out := by
  induction n with
  | zero => intro a out _ h; cases h
  | succ n ih =>
    intro a out hA h
    have ha : (BitVec.ofNat 16 a).toNat < 4096 := by rw [BitVec.toNat_ofNat]; omega
    simp only [eraseOuts, List.mem_cons] at h
    obtain rfl | rfl | h := h
    · exact wireFrame_wren
    · exact wireFrame_write ha (by simp)
    · exact ih (by omega) h

/-! A command that was served. -/

/-- The block is ready again, the response is on the port, and the new frames are wire commands. -/
structure Served (s t : State) : Prop where
  ready : Ready t
  response : t.trace.head? = some (.rsp t.regs.rspStatus t.regs.rspData)
  frames : ∃ fs, t.frames = fs ++ s.frames ∧ ∀ f ∈ fs, WireFrame f.out

/-- An operation that has run to its end between idle lines has served its command. -/
theorem served_of_visible {s t : State} {r : Regs} {n : Nat} {b : Memory} {d : Dev} {fs : List FrameRec} {e : Event}
    {es : List Event} (hR : Ready s) (hseq : t.seq = [])
    (vis : visible t = visible { s with
      regs := r, tier := n, buf := b, dev := d, frames := fs ++ s.frames, trace := e :: es })
    (hi : r.inited = true) (hd : d.line = s.dev.line ∧ d.frame = none ∧ d.wip = false)
    (he : e = .rsp r.rspStatus r.rspData) (hfs : ∀ f ∈ fs, WireFrame f.out) : Served s t := by
  obtain ⟨-, -, ⟨hq, hb, hc, hl⟩, ⟨hdir, hout, -⟩, -⟩ := hR
  obtain ⟨hline, hframe, hwip⟩ := hd
  have hdev : t.dev = d := visible_dev vis
  have hst : t.regs.rspStatus = r.rspStatus := congrArg (fun x => x.regs.rspStatus) vis
  have hda : t.regs.rspData = r.rspData := congrArg (fun x => x.regs.rspData) vis
  have htr : t.trace = e :: es := congrArg (fun x => x.trace) vis
  refine ⟨⟨hseq, (congrArg (fun x => x.regs.inited) vis).trans hi, visible_linked vis ⟨hq, hb, hc, hline.trans hl⟩,
    visible_linesIdle vis ⟨hdir, hout, hframe⟩, by rw [hdev, hwip]⟩, ?_, fs, congrArg (fun x => x.frames) vis, hfs⟩
  rw [htr, hst, hda, he]
  rfl

/-- A refused command is served by its error result. -/
theorem served_refused {s : State} {op : BitVec 4} {addr data len : Half} (st : Status) (hR : Ready s) :
    Served s (refusedWith st op addr data len s) := ⟨hR, rfl, [], rfl, fun _ h => by cases h⟩

/-! Each operation serves its command. -/

section

variable {s : State} (addr data len : Half) (hR : Ready s)
include hR

theorem served_init : ∃ t, exec (.init addr data len) s = .next t ∧ Served s t := by
  obtain ⟨hseq, -, ⟨hq, -, hc, hl⟩, ⟨-, ho, hf⟩, hw⟩ := hR
  obtain ⟨t, r, hexec, ht, vis, -⟩ := initCompletes s addr data len hseq hq ho hf hw hl hc
  have hst : t.regs.rspStatus = 0 := congrArg (fun x => x.regs.rspStatus) vis
  have hda : t.regs.rspData = 0 := congrArg (fun x => x.regs.rspData) vis
  have htr : t.trace.head? = some (.rsp 0 0) := congrArg (fun x => x.trace.head?) vis
  refine ⟨t, hexec, ht, by rw [htr, hst, hda], [⟨[0x06#8], [r], []⟩], congrArg (fun x => x.frames) vis, ?_⟩
  intro f hmem
  rw [List.mem_singleton.mp hmem]
  exact wireFrame_wren

theorem served_readByte (hA : addr.toNat < 4096) : ∃ t, exec (.readByte addr data len) s = .next t ∧ Served s t := by
  obtain ⟨t, r0, r1, r2, hexec, hseq, vis⟩ := readByteCompletes s addr data len hR hA
  refine ⟨t, hexec, served_of_visible (fs := [_]) hR hseq vis hR.2.1 ⟨rfl, hR.2.2.2.1.2.2, hR.2.2.2.2⟩ rfl ?_⟩
  intro f hmem
  rw [List.mem_singleton.mp hmem]
  exact wireFrame_read hA (by simp)

theorem served_readWord (hA : addr.toNat + 1 < 4096) :
    ∃ t, exec (.readWord addr data len) s = .next t ∧ Served s t := by
  obtain ⟨t, r0, r1, r2, q0, q1, q2, hexec, hseq, vis⟩ := readWordCompletes s addr data len hR hA
  refine ⟨t, hexec, served_of_visible (fs := [_, _]) hR hseq vis hR.2.1 ⟨rfl, hR.2.2.2.1.2.2, hR.2.2.2.2⟩ rfl ?_⟩
  simp only [List.forall_mem_cons, List.not_mem_nil, false_implies, implies_true, and_true]
  exact ⟨wireFrame_read (by rw [toNat_succ hA]; exact hA) (by simp), wireFrame_read (Nat.lt_of_succ_lt hA) (by simp)⟩

theorem served_readArray (harr : s.params.hasArray = true) (hlen : len.toNat ≤ 255) (hA : addr.toNat < 4096)
    (hend : addr.toNat + len.toNat ≤ 4096) : ∃ t, exec (.readArray addr data len) s = .next t ∧ Served s t := by
  obtain ⟨t, r0, r1, r2, hexec, hseq, vis, -⟩ := readArrayCompletes s addr data len hR harr hlen hA hend
  refine ⟨t, hexec, served_of_visible (fs := [_]) hR hseq vis hR.2.1 ⟨rfl, hR.2.2.2.1.2.2, hR.2.2.2.2⟩ rfl ?_⟩
  intro f hmem
  rw [List.mem_singleton.mp hmem]
  exact wireFrame_read hA (by simpa using hlen)

theorem served_writeArrayOfNothing (harr : s.params.hasArray = true) (hlen : len = 0) (hA : addr.toNat < 4096) :
    ∃ t, exec (.writeArray addr data len) s = .next t ∧ Served s t := by
  obtain ⟨t, r, rs, w, hexec, hseq, vis⟩ := writeArrayOfNothing s addr data len hR harr hlen hA
  refine ⟨t, hexec, served_of_visible (fs := [_, _]) hR hseq vis hR.2.1 ⟨rfl, hR.2.2.2.1.2.2, hR.2.2.2.2⟩ rfl ?_⟩
  simp only [List.forall_mem_cons, List.not_mem_nil, false_implies, implies_true, and_true]
  exact ⟨wireFrame_write (ds := []) hA (by simp), wireFrame_wren⟩

variable (hO : s.params.oSettle = true)
include hO

theorem served_writeByte (hA : addr.toNat < 4096) : ∃ t, exec (.writeByte addr data len) s = .next t ∧ Served s t := by
  obtain ⟨t, r, rs, hexec, hseq, -, vis, -, hwip, -, hframe, hline, -⟩ := writeByteCompletes s addr data len hR hO hA
  refine ⟨t, hexec, served_of_visible (fs := [_, _]) hR hseq vis hR.2.1 ⟨hline, hframe, hwip⟩ rfl ?_⟩
  simp only [List.forall_mem_cons, List.not_mem_nil, false_implies, implies_true, and_true]
  exact ⟨wireFrame_write hA (by simp), wireFrame_wren⟩

theorem served_writeWord (hA : addr.toNat + 1 < 4096) :
    ∃ t, exec (.writeWord addr data len) s = .next t ∧ Served s t := by
  obtain ⟨t, r, rs, q, qs, hexec, hseq, -, -, vis, -, hwip, -, hframe, hline, -⟩ :=
    writeWordCompletes s addr data len hR hO hA
  refine ⟨t, hexec, served_of_visible (fs := [_, _, _, _]) hR hseq vis hR.2.1 ⟨hline, hframe, hwip⟩ rfl ?_⟩
  simp only [List.forall_mem_cons, List.not_mem_nil, false_implies, implies_true, and_true]
  exact ⟨wireFrame_write (by rw [toNat_succ hA]; exact hA) (by simp), wireFrame_wren,
    wireFrame_write (Nat.lt_of_succ_lt hA) (by simp), wireFrame_wren⟩

theorem served_writeArray (harr : s.params.hasArray = true) (hlen : len.toNat ≤ 255) (hA : addr.toNat < 4096)
    (hend : addr.toNat + len.toNat ≤ 4096) : ∃ t, exec (.writeArray addr data len) s = .next t ∧ Served s t := by
  by_cases hpos : 0 < len.toNat
  · obtain ⟨t, r, rs, vs, hexec, hseq, hvl, -, vis, -, hwip, -, hframe, hline, -⟩ :=
      writeArrayCompletes s addr data len hR hO harr hpos hlen hend
    refine ⟨t, hexec, served_of_visible (fs := [_, _]) hR hseq vis hR.2.1 ⟨hline, hframe, hwip⟩ rfl ?_⟩
    simp only [List.forall_mem_cons, List.not_mem_nil, false_implies, implies_true, and_true]
    exact ⟨wireFrame_write hA (by rw [hvl]; exact hlen), wireFrame_wren⟩
  · exact served_writeArrayOfNothing addr data len hR harr (BitVec.eq_of_toNat_eq (by simp; omega)) hA

theorem served_eraseAll : ∃ t, exec (.eraseAll addr data len) s = .next t ∧ Served s t := by
  obtain ⟨t, fs, hexec, hseq, houts, vis, -, hwip, -, hframe, hline, -⟩ := eraseAllCompletes s addr data len hR hO
  refine ⟨t, hexec, served_of_visible hR hseq vis hR.2.1 ⟨hline, hframe, hwip⟩ rfl fun f hmem => ?_⟩
  refine wireFrame_eraseOuts 4096 (a := 0) (by omega) ?_
  rw [← houts]
  exact List.mem_map.mpr ⟨f, List.mem_reverse.mpr hmem, rfl⟩

end

/-- A command that passes the checks is an accepted one (60_exceptions.md R212, R213, R216). -/
theorem accepted_of_startCheck {s : State} {w : BitVec 52}
    (hc : startCheck (cmdOp w) (cmdAddr w) (cmdLen w) s = none) : Accepted s w := by
  rw [startCheck_eq] at hc
  split_ifs at hc with hcode hinit hlong haddr
  refine ⟨by omega, fun h0 => ?_, fun harr => ⟨?_, by omega, by omega, by omega⟩, by omega, by omega⟩
  · by_contra hno
    exact hinit ⟨h0, by simpa using hno⟩
  · by_contra hno
    exact hcode (.inr ⟨harr, by simpa using hno⟩)

/-- Every command word is served from a ready state under O-SETTLE. -/
theorem served_command {s : State} (w : BitVec 52) (hR : Ready s) (hO : s.params.oSettle = true) :
    ∃ t, exec (decodeCmd w) s = .next t ∧ Served s t := by
  rcases hc : startCheck (cmdOp w) (cmdAddr w) (cmdLen w) s with _ | st
  · obtain ⟨h8, -, harr, hbyte, hword⟩ := accepted_of_startCheck hc
    rw [decodeCmd_eq_hostInstr]
    generalize cmdAddr w = a at *
    generalize cmdData w = d at *
    generalize cmdLen w = l at *
    generalize cmdOp w = op at *
    obtain rfl | rfl | rfl | rfl | rfl | rfl | rfl | rfl := op_cases h8
    · exact served_init a d l hR
    · exact served_readByte a d l hR (hbyte (.inl rfl))
    · exact served_writeByte a d l hR hO (hbyte (.inr rfl))
    · exact served_readWord a d l hR (hword (.inl rfl))
    · exact served_writeWord a d l hR hO (hword (.inr rfl))
    · obtain ⟨hh, hlen, hA, hend⟩ := harr (.inl rfl)
      exact served_readArray a d l hR hh hlen hA hend
    · obtain ⟨hh, hlen, hA, hend⟩ := harr (.inr rfl)
      exact served_writeArray a d l hR hO hh hlen hA hend
    · exact served_eraseAll a d l hR hO
  · exact ⟨_, exec_decodeCmd_refused hR.1 hc, served_refused st hR⟩

/-- Settles O52: refused or run to its end, a command leaves the block ready with its response last. -/
theorem hostCommandsAnswered : Obligations.HostCommandsAnswered := by
  intro s w hR hO
  obtain ⟨t, hexec, hserved⟩ := served_command w hR hO
  exact ⟨t, hexec, hserved.ready, hserved.response⟩

/-- Settles O53: the answer of a served command is the only one, and its new frames are wire commands. -/
theorem framesAreWireCommands : Obligations.FramesAreWireCommands := by
  intro s t w hR hO hexec
  obtain ⟨t', hexec', hserved⟩ := served_command w hR hO
  obtain rfl : t' = t := by rw [hexec'] at hexec; exact Host.Outcome.next.inj hexec
  exact hserved.frames

end Sys2Proof.Machine

/-! PROOFS. Round trips and event counts (20_memory.md section 8; 95_test_vectors.md sections 1.4 and 2.13). -/

namespace Sys2Proof.Machine

open Sys2Proof

/-! A write, then a read. -/

theorem visible_rspStatus {s t : State} (h : visible t = visible s) : t.regs.rspStatus = s.regs.rspStatus :=
  congrArg (fun x => x.regs.rspStatus) h
theorem visible_rspData {s t : State} (h : visible t = visible s) : t.regs.rspData = s.regs.rspData :=
  congrArg (fun x => x.regs.rspData) h

/-- A served command's answer is ready again. -/
theorem ready_of_served {i : Instr} {s t : State} (h : ∃ u, exec i s = .next u ∧ Served s u) (ht : exec i s = .next t) :
    Ready t := by
  obtain ⟨u, hu, hserved⟩ := h
  obtain rfl : u = t := by rw [hu] at ht; exact Host.Outcome.next.inj ht
  exact hserved.ready

/-- The store after a committed write, byte by byte. -/
theorem Committed.read {s t : State} {a : Nat} {ds : List Byte} (h : Committed s t a ds) (b : Nat) :
    eeRead t b = if a ≤ b ∧ b < a + ds.length then (ds[b - a]?).getD 0 else eeRead s b := by
  obtain ⟨-, -, -, -, -, hread⟩ := h
  exact hread b

theorem Committed.read_in {s t : State} {a i : Nat} {ds : List Byte} (h : Committed s t a ds) (hi : i < ds.length) :
    eeRead t (a + i) = ds[i] := by
  rw [h.read, if_pos (by omega), Nat.add_sub_cancel_left, List.getElem?_eq_getElem hi, Option.getD_some]

/-- READ_BYTE's response is the store's byte. -/
theorem readByte_response {s : State} (addr data len : Half) (hR : Ready s) (hA : addr.toNat < 4096) :
    ∃ t, exec (.readByte addr data len) s = .next t ∧ t.regs.rspStatus = 0 ∧
      t.regs.rspData = zext16 (eeRead s addr.toNat) := by
  obtain ⟨t, _, _, _, hexec, -, vis⟩ := readByteCompletes s addr data len hR hA
  exact ⟨t, hexec, visible_rspStatus vis, visible_rspData vis⟩

/-- Settles O54: the read finds the store as the write left it. -/
theorem byteRoundTrip : Obligations.ByteRoundTrip := by
  intro s a b data len data' len' hR hO hA hB
  obtain ⟨t, r, rs, hexec, -, -, vis, hstored⟩ := writeByteCompletes s a data len hR hO hA
  have hRt := ready_of_served (served_writeByte a data len hR hO hA) hexec
  obtain ⟨u, hexec', hst, hdata⟩ := readByte_response b data' len' hRt hB
  refine ⟨t, u, hexec, hexec', visible_rspStatus vis, hst, ?_⟩
  rw [hdata, hstored.read]
  by_cases hab : b = a
  · subst hab
    simp
  · have hne : b.toNat ≠ a.toNat := fun h => hab (BitVec.eq_of_toNat_eq h)
    rw [if_neg hab, if_neg (by simp only [List.length_singleton]; omega)]

/-- Settles O55: the two bytes of the word are in the store, the high byte first. -/
theorem wordRoundTrip : Obligations.WordRoundTrip := by
  intro s a v len data' len' hR hO hA
  obtain ⟨t, -, -, -, -, hexec, -, -, -, -, hstored⟩ := writeWordCompletes s a v len hR hO hA
  have hRt := ready_of_served (served_writeWord a v len hR hO hA) hexec
  have hhi : eeRead t a.toNat = hi8 v := hstored.read_in (i := 0) (by simp)
  have hlo : eeRead t (a.toNat + 1) = lo8 v := hstored.read_in (i := 1) (by simp)
  obtain ⟨u, _, _, _, _, _, _, hexecu, -, visu⟩ := readWordCompletes t a data' len' hRt hA
  obtain ⟨h, hexech, -, hdatah⟩ := readByte_response a data' len' hRt (Nat.lt_of_succ_lt hA)
  obtain ⟨l, hexecl, -, hdatal⟩ := readByte_response (a + 1) data' len' hRt (by rw [toNat_succ hA]; exact hA)
  refine ⟨t, u, h, l, hexec, hexecu, hexech, hexecl, (visible_rspData visu).trans ?_, ?_, ?_⟩
  · show joinHL (eeRead t a.toNat) (eeRead t (a.toNat + 1)) = v
    rw [hhi, hlo, joinHL_hi8_lo8]
  · rw [hdatah, hhi]
  · rw [hdatal, toNat_succ hA, hlo]

/-- Settles O56: BUF plays no part in a ready state, and the read fills it from the store. -/
theorem arrayRoundTrip : Obligations.ArrayRoundTrip := by
  intro s a data len data' m hR hO harr hpos hlen hend
  obtain ⟨t, r, rs, vs, hexec, -, hvl, hgives, vis, hstored⟩ := writeArrayCompletes s a data len hR hO harr hpos hlen hend
  have hA : a.toNat < 4096 := by omega
  have hRt : Ready t := ready_of_served (served_writeArray a data len hR hO harr hlen hA hend) hexec
  have hharr : (t.setBuf m).params.hasArray = true := by
    show t.params.hasArray = true
    rw [visible_params vis]
    exact harr
  obtain ⟨u, -, -, -, hexecu, -, -, hbuf⟩ := readArrayCompletes (t.setBuf m) a data' len hRt hharr hlen hA hend
  refine ⟨t, u, vs, hexec, hexecu, hvl, hgives, fun i => ?_⟩
  rw [hbuf]
  split
  · rename_i hi
    rw [show eeRead (t.setBuf m) (a.toNat + i) = eeRead t (a.toNat + i) from rfl, hstored.read_in (by omega),
      List.getElem?_eq_getElem]
  · rfl

theorem eraseOuts_length (n : Nat) : ∀ a, (eraseOuts a n).length = 2 * n := by
  induction n with
  | zero => intro a; rfl
  | succ n ih => intro a; simp only [eraseOuts, List.length_cons, ih]; omega

/-- Settles O57: each run writes the same frames, one pair for each address, and leaves the same store. -/
theorem eraseIdempotent : Obligations.EraseIdempotent := by
  intro s addr data len addr' data' len' hR hO
  obtain ⟨t, fs, hexec, -, houts, vis, hstored⟩ := eraseAllCompletes s addr data len hR hO
  have hRt := ready_of_served (served_eraseAll addr data len hR hO) hexec
  have hOt : t.params.oSettle = true := by rw [visible_params vis]; exact hO
  obtain ⟨u, gs, hexec', -, houts', vis', hstored'⟩ := eraseAllCompletes t addr' data' len' hRt hOt
  refine ⟨t, u, fs, gs, hexec, hexec', fun a ha => ?_, congrArg (fun x => x.frames) vis, congrArg (fun x => x.frames) vis',
    ?_, ?_⟩
  · have hin : 0 ≤ a ∧ a < 0 + (List.replicate 4096 0x00#8).length := by
      rw [List.length_replicate]
      omega
    have hzero : ((List.replicate 4096 0x00#8)[a - 0]?).getD 0 = 0x00#8 := by
      rw [List.getElem?_replicate]
      split <;> rfl
    rw [hstored.read, hstored'.read, if_pos hin, if_pos hin, hzero]
    exact ⟨rfl, rfl⟩
  · have h := houts'.trans houts.symm
    rwa [List.map_reverse, List.map_reverse, List.reverse_inj] at h
  · have h := congrArg List.length houts
    rwa [List.length_map, List.length_reverse, eraseOuts_length] at h


/-! Event counts (95_test_vectors.md section 2.13). -/

/-- Events of a byte sent. -/
def sendCount (p : Params) : Nat := if p.mode = .bitbang then 24 else 2

/-- Events of a byte received. -/
def recvCount (p : Params) : Nat := if p.mode = .bitbang then 24 else 3

theorem length_sendTrace (p : Params) (v : Byte) : (sendTrace p v).length = sendCount p := by
  unfold sendTrace sendCount
  cases p.mode <;> rfl

theorem length_recvTrace (p : Params) (r : Byte) : (recvTrace p r).length = recvCount p := by
  unfold recvTrace recvCount
  cases p.mode
  · cases p.samplePoint <;> rfl
  · rfl

theorem length_sendAllTrace (p : Params) (vs : List Byte) :
    (sendAllTrace p vs).length = sendCount p * vs.length := by
  induction vs with
  | nil => rfl
  | cons v vs ih => simp only [sendAllTrace, List.length_append, length_sendTrace, ih, List.length_cons]; ring

theorem length_recvAllTrace (p : Params) (rs : List Byte) :
    (recvAllTrace p rs).length = recvCount p * rs.length := by
  induction rs with
  | nil => rfl
  | cons r rs ih => simp only [recvAllTrace, List.length_append, length_recvTrace, ih, List.length_cons]; ring

theorem length_wrenTrace (p : Params) : (wrenTrace p).length = sendCount p + 2 := by
  simp only [wrenTrace, List.length_append, length_sendTrace, List.length_singleton]
  omega

theorem length_readTrace (p : Params) (a : Half) (rs : List Byte) :
    (readTrace p a rs).length = 3 * sendCount p + recvCount p * rs.length + 2 := by
  simp only [readTrace, List.length_append, length_sendAllTrace, length_recvAllTrace, List.length_cons, List.length_nil]
  ring

theorem length_writeTrace (p : Params) (a : Half) (ds : List Byte) :
    (writeTrace p a ds).length = sendCount p * (ds.length + 4) + 5 := by
  simp only [writeTrace, List.length_append, length_wrenTrace, length_sendAllTrace, List.length_cons, List.length_nil]
  ring

theorem length_throttled (p : Params) (tr : List Event) :
    (throttled p tr).length + (if p.hasThrottle then 0 else 2) = tr.length + 2 := by
  unfold throttled
  split <;> simp

theorem length_eraseTrace (p : Params) (n : Nat) : ∀ a, (eraseTrace p a n).length = n * (sendCount p * 5 + 5) := by
  induction n with
  | zero => intro a; simp [eraseTrace]
  | succ n ih =>
    intro a
    simp only [eraseTrace, List.length_append, length_writeTrace, ih, List.length_singleton]
    ring

theorem length_initTrace (p : Params) :
    (initTrace p).length = sendCount p + (if p.mode = .bitbang then 8 else 4) := by
  unfold initTrace
  cases p.mode <;> simp [length_wrenTrace]

/-- The trace after a command: the command, the events, the response. -/
theorem length_trace {t u : State} {op : BitVec 4} {addr data len rdata : Half} {st : Status} {tr before : List Event}
    (vis : visible t = visible u) (hu : u.trace = opTrace op addr data len tr st rdata before) :
    t.trace.length = before.length + 2 + tr.length := by
  have h : t.trace = u.trace := congrArg (fun x => x.trace) vis
  rw [h, hu]
  simp only [opTrace, List.length_cons, List.length_append, List.length_reverse]
  omega

/-- Settles O59: each trace is known, and counted. -/
theorem eventCounts : Obligations.EventCounts := by
  intro s addr data len hR hO hA
  have hA' := Nat.lt_of_succ_lt hA
  have hR' := hR
  obtain ⟨hseq, -, ⟨hq, -, hc, hl⟩, ⟨-, ho, hf⟩, hw⟩ := hR'
  obtain ⟨t0, _, h0, -, vis0, -⟩ := initCompletes s addr data len hseq hq ho hf hw hl hc
  obtain ⟨t1, _, _, _, h1, -, vis1⟩ := readByteCompletes s addr data len hR hA'
  obtain ⟨t2, _, _, h2, -, -, vis2, -⟩ := writeByteCompletes s addr data len hR hO hA'
  obtain ⟨t3, _, _, _, _, _, _, h3, -, vis3⟩ := readWordCompletes s addr data len hR hA
  obtain ⟨t4, _, _, _, _, h4, -, -, -, vis4, -⟩ := writeWordCompletes s addr data len hR hO hA
  refine ⟨t0, t1, t2, t3, t4, h0, ?_, h1, ?_, h2, ?_, h3, ?_, h4, ?_⟩
  · rw [length_trace vis0 rfl, length_initTrace, sendCount]
    split <;> rfl
  · rw [length_trace vis1 rfl, length_readTrace, sendCount, recvCount]
    split <;> rfl
  · rw [length_trace vis2 rfl, length_writeTrace, sendCount]
    split <;> rfl
  · rw [length_trace vis3 rfl, List.length_append, length_readTrace, length_readTrace, sendCount, recvCount]
    split <;> rfl
  · rw [length_trace vis4 rfl, List.length_append, length_writeTrace, length_writeTrace, sendCount]
    split <;> rfl

/-- Settles O60: the same with the loops counted by induction. -/
theorem longEventCounts : Obligations.LongEventCounts := by
  intro s addr data len hR hO harr hlen hA hend
  obtain ⟨t0, h0, hwrite⟩ : ∃ t, exec (.writeArray addr data len) s = .next t ∧ ∃ vs : List Byte, vs.length = len.toNat ∧
      t.trace.length = s.trace.length + 2 + (throttled s.params (writeTrace s.params addr vs)).length := by
    obtain ⟨t, r, rs, vs, k, hexec, -, hvl, -, vis⟩ := exec_writeArray_ready (data := data) hR harr hlen hA hend
    exact ⟨t, hexec, vs, hvl, length_trace vis rfl⟩
  obtain ⟨t1, _, _, _, h1, -, vis1, -⟩ := readArrayCompletes s addr data len hR harr hlen hA hend
  obtain ⟨t2, fs, h2, -, -, vis2, -⟩ := eraseAllCompletes s addr data len hR hO
  refine ⟨t0, t1, t2, h0, ?_, h1, ?_, h2, ?_⟩
  · obtain ⟨vs, hvl, htr⟩ := hwrite
    have hcount := length_throttled s.params (writeTrace s.params addr vs)
    rw [length_writeTrace, hvl] at hcount
    rw [htr, Nat.add_assoc, hcount, sendCount]
    split <;> omega
  · have hcount := length_throttled s.params (readTrace s.params addr (eeBytes s addr.toNat len.toNat))
    rw [length_readTrace, eeBytes_length] at hcount
    rw [length_trace vis1 rfl, Nat.add_assoc, hcount, sendCount, recvCount]
    split <;> omega
  · rw [length_trace vis2 rfl, length_eraseTrace, sendCount]
    split <;> rfl

end Sys2Proof.Machine
